-- ==== Sys2Proof/Word.lean ====
section
/-!
DEFINITION. The two kinds of value that move through the machine: 32-bit words (command words and control
registers, rules R12, R30, R90) and values of the number format `NUM` (cells, taps, scalars, rules R8, R22,
R24, R25), with the names of what rule R7 leaves open about them. Types only; the arithmetic of `NUM` is in
`Machine/Num.lean`.
-/

namespace Sys2Proof

/-- A command word or the contents of a 32-bit host register (rules R12, R30). -/
abbrev Word := BitVec 32

/-- One byte of the host's byte-addressed bus (rule R62). -/
abbrev Byte := BitVec 8

/-- A 3-bit register field: the index of an array buffer, a scalar register or a kernel register (rule R95). -/
abbrev RegIx := Fin 8

/-- The real number `coef * sqrt rad * cos (π * ang)`: the shape of every irrational entry that the matrix
formulas of rules R131 and R132 produce. -/
structure Surd where
  coef : Rat
  rad  : Nat
  ang  : Rat
  deriving DecidableEq, Repr

/-- A rational number plus finitely many `Surd`s: an exact real number that the machine's additions and
multiplications keep in this form. -/
structure Alg where
  rat : Rat
  irr : List Surd
  deriving DecidableEq, Repr

/-- The number format, the open parameter `NUM` (rules R7, R8). -/
inductive NumFormat where
  /-- the reference value: the real numbers with exact arithmetic -/
  | reals
  /-- any other format, the `k`-th, of whose arithmetic nothing is known (`Config.arithOther`) -/
  | other (k : Nat)
  deriving DecidableEq, Repr

/-- The arithmetic operations that the command rules ask of a number format (rule R15): two operands for the first
four, none for the constant π, one for the others. -/
inductive NumOp where
  | add | sub | mul | div | neg | sqrt | cos | log2 | ceil | pi
  deriving DecidableEq, Repr

/-- The binning function of the bit-cost estimator, the open parameter `BIN` (rules R7, R216). -/
inductive BinRule where
  /-- the reference value `BIN(x) = floor(x + 1/2)` -/
  | reference
  /-- any other function, the `k`-th, of which nothing is known (`Config.binOther`) -/
  | other (k : Nat)
  deriving DecidableEq, Repr

mutual

/-- A value of the number format (rules R7, R8): a real number as plain data. It is held in the computed form
`alg`, or as an expression where no computed form is known: the exact expression over the reals, and for any other
format the tree of that format's operations that made it. `Machine/Ideal.lean` says which real number each one is.
DESIGN CHOICE, log entry 1. -/
inductive NUM where
  /-- a computed value -/
  | alg (a : Alg)
  /-- a real number the host supplied and of which the model knows only its name `k` (log entry 2) -/
  | real (k : Nat)
  /-- the sum of two values, one of them without a computed form -/
  | add (x y : NUM)
  /-- the product of two values, one of them without a computed form -/
  | mul (x y : NUM)
  /-- the binary logarithm of a rational that is no power of two (rule R216) -/
  | log2 (q : Rat)
  /-- `quantise(x, step)` of rule R212 in a format, where the level is not decided by rational bounds -/
  | quant (f : NumFormat) (x step : NUM)
  /-- `bpp` of rule R216 in a format and under a binning, where the cells' bins are not decided -/
  | bpp (f : NumFormat) (bin : BinRule) (cells : NUMList)
  /-- the result of an operation of the `k`-th other format (rule R8, log entry 15) -/
  | op (k : Nat) (o : NumOp) (args : NUMList)
  deriving DecidableEq, Repr

/-- A list of `NUM` values, inside one `NUM` value. -/
inductive NUMList where
  | nil
  | cons (x : NUM) (xs : NUMList)
  deriving DecidableEq, Repr

end

end Sys2Proof
end

