-- ==== Sys2Proof/Syntax.lean ====
section
/-!
DEFINITION. The commands of the machine, one constructor per row of the opcode map (rule R97), in its order. The
operands come in the order of the assembler syntax of rule R103. Register operands are 3-bit indices (rule R95);
immediates are natural numbers whose encodable range `WellFormed.lean` states (rule R96).
-/

namespace Sys2Proof

/-- A command (rule R97). -/
inductive Instr where
  /-- `NOP` (R246) -/
  | nop
  /-- `FREE Ad` (R247) -/
  | free (ad : RegIx)
  /-- `MKDCT2 Ad, N` (R131) -/
  | mkdct2 (ad : RegIx) (n : Nat)
  /-- `MKDCT4 Ad, N` (R132) -/
  | mkdct4 (ad : RegIx) (n : Nat)
  /-- `COLXFM Ad, As, Ac` (R141) -/
  | colxfm (ad sa ac : RegIx)
  /-- `TRN Ad, As` (R143) -/
  | trn (ad sa : RegIx)
  /-- `DCT Ad, As, N` (R151) -/
  | dct (ad sa : RegIx) (n : Nat)
  /-- `IDCT Ad, As, N` (R153) -/
  | idct (ad sa : RegIx) (n : Nat)
  /-- `REGROUP Ad, As, N1, N2` (R156) -/
  | regroup (ad sa : RegIx) (n1 n2 : Nat)
  /-- `DCTBPP Sd, As, N` (R158) -/
  | dctbpp (sd sa : RegIx) (n : Nat)
  /-- `DWT Ad, As, Kh1, Kh2` (R171) -/
  | dwt (ad sa k1 k2 : RegIx)
  /-- `IDWT Ad, As, Kg1, Kg2` (R173) -/
  | idwt (ad sa k1 k2 : RegIx)
  /-- `NLEVDWT Ad, As, n` (R176) -/
  | nlevdwt (ad sa : RegIx) (n : Nat)
  /-- `NLEVIDWT Ad, As, n` (R179) -/
  | nlevidwt (ad sa : RegIx) (n : Nat)
  /-- `QUANTDWT Ad, Ae, As, At` (R191) -/
  | quantdwt (ad ae sa ta : RegIx)
  /-- `ENERGYZ Sd, n, layer, i` (R196) -/
  | energyz (sd : RegIx) (n layer i : Nat)
  /-- `QUANTISE Ad, As, Ss` (R211) -/
  | quantise (ad sa ss : RegIx)
  /-- `BPP Sd, As` (R215) -/
  | bpp (sd sa : RegIx)
  /-- `ROWDEC Ad, As, Kh` (R229) -/
  | rowdec (ad sa k : RegIx)
  /-- `ROWDEC2 Ad, As, Kh` (R230) -/
  | rowdec2 (ad sa k : RegIx)
  /-- `ROWINT Ad, As, Kg` (R231) -/
  | rowint (ad sa k : RegIx)
  /-- `ROWINT2 Ad, As, Kg` (R232) -/
  | rowint2 (ad sa k : RegIx)
  deriving DecidableEq, Repr

end Sys2Proof
end

