-- ==== Sys2Proof/WellFormed.lean ====
section
/-!
DEFINITION. Which commands have an encoding: immediates within their fields (rule R96) and, for `QUANTDWT`, two
different destinations (rule R101). Register operands are within range by their type (rule R95).
-/

namespace Sys2Proof

/-- A value of a 10-bit immediate field (rule R96). -/
def immOk (n : Nat) : Bool := decide (n < 1024)

/-- A value of the 3-bit field `i` of `ENERGYZ` (rules R94, R96). -/
def orientOk (i : Nat) : Bool := decide (i < 8)

/-- The command is encodable and its word is legal (rules R96, R101). -/
def Instr.wellFormed : Instr → Bool
  | .nop => true
  | .free _ => true
  | .mkdct2 _ n => immOk n
  | .mkdct4 _ n => immOk n
  | .colxfm _ _ _ => true
  | .trn _ _ => true
  | .dct _ _ n => immOk n
  | .idct _ _ n => immOk n
  | .regroup _ _ n1 n2 => immOk n1 && immOk n2
  | .dctbpp _ _ n => immOk n
  | .dwt _ _ _ _ => true
  | .idwt _ _ _ _ => true
  | .nlevdwt _ _ n => immOk n
  | .nlevidwt _ _ n => immOk n
  | .quantdwt ad ae _ _ => decide (ad ≠ ae)
  | .energyz _ n layer i => immOk n && immOk layer && orientOk i
  | .quantise _ _ _ => true
  | .bpp _ _ => true
  | .rowdec _ _ _ => true
  | .rowdec2 _ _ _ => true
  | .rowint _ _ _ => true
  | .rowint2 _ _ _ => true

end Sys2Proof
end

