-- ==== Sys2Proof/Decode.lean ====
section
/-!
DEFINITION. The decoder (rules R97 to R105) and, after it, the encoder (rules R91 to R97). The decoder is total:
every 32-bit word, and every list of bytes, is a command or is rejected by name.
-/

namespace Sys2Proof

/-- Why a word is no command. Each makes the command fail with `ILLEGAL` (rule R254). -/
inductive Rejection where
  /-- a reserved opcode (rule R99) -/
  | reservedOpcode
  /-- a nonzero must-be-zero bit (rule R100) -/
  | mustBeZero
  /-- `QUANTDWT` with `f1 = f4` (rule R101) -/
  | sameDestination
  /-- bytes that are not one 32-bit word (rules R63, R90); never reached from a write to `CMD` -/
  | notOneWord
  deriving DecidableEq, Repr

/-- The rows of the opcode map (rule R97). -/
inductive Opcode where
  | nop | free | mkdct2 | mkdct4 | colxfm | trn
  | dct | idct | regroup | dctbpp
  | dwt | idwt | nlevdwt | nlevidwt | quantdwt | energyz
  | quantise | bpp | rowdec | rowdec2 | rowint | rowint2
  deriving DecidableEq, Repr

/-- The `op` column of rule R97. -/
def Opcode.code : Opcode → Nat
  | .nop => 0x00
  | .free => 0x01
  | .mkdct2 => 0x02
  | .mkdct4 => 0x03
  | .colxfm => 0x04
  | .trn => 0x05
  | .dct => 0x08
  | .idct => 0x09
  | .regroup => 0x0A
  | .dctbpp => 0x0B
  | .dwt => 0x10
  | .idwt => 0x11
  | .nlevdwt => 0x12
  | .nlevidwt => 0x13
  | .quantdwt => 0x14
  | .energyz => 0x15
  | .quantise => 0x18
  | .bpp => 0x19
  | .rowdec => 0x1C
  | .rowdec2 => 0x1D
  | .rowint => 0x1E
  | .rowint2 => 0x1F

/-- The `match` column of rule R97. -/
def Opcode.pattern : Opcode → Word
  | .nop => 0x00000000#32
  | .free => 0x04000000#32
  | .mkdct2 => 0x08000000#32
  | .mkdct4 => 0x0C000000#32
  | .colxfm => 0x10000000#32
  | .trn => 0x14000000#32
  | .dct => 0x20000000#32
  | .idct => 0x24000000#32
  | .regroup => 0x28000000#32
  | .dctbpp => 0x2C000000#32
  | .dwt => 0x40000000#32
  | .idwt => 0x44000000#32
  | .nlevdwt => 0x48000000#32
  | .nlevidwt => 0x4C000000#32
  | .quantdwt => 0x50000000#32
  | .energyz => 0x54000000#32
  | .quantise => 0x60000000#32
  | .bpp => 0x64000000#32
  | .rowdec => 0x70000000#32
  | .rowdec2 => 0x74000000#32
  | .rowint => 0x78000000#32
  | .rowint2 => 0x7C000000#32

/-- The `mask` column of rule R97: the opcode and every must-be-zero bit. -/
def Opcode.mask : Opcode → Word
  | .nop => 0xFFFFFFFF#32
  | .free => 0xFC7FFFFF#32
  | .mkdct2 => 0xFC7003FF#32
  | .mkdct4 => 0xFC7003FF#32
  | .colxfm => 0xFC01FFFF#32
  | .trn => 0xFC0FFFFF#32
  | .dct => 0xFC0003FF#32
  | .idct => 0xFC0003FF#32
  | .regroup => 0xFC000000#32
  | .dctbpp => 0xFC0003FF#32
  | .dwt => 0xFC0FC0FF#32
  | .idwt => 0xFC0FC0FF#32
  | .nlevdwt => 0xFC0003FF#32
  | .nlevidwt => 0xFC0003FF#32
  | .quantdwt => 0xFC003FFF#32
  | .energyz => 0xFC000000#32
  | .quantise => 0xFC01FFFF#32
  | .bpp => 0xFC0FFFFF#32
  | .rowdec => 0xFC0FC7FF#32
  | .rowdec2 => 0xFC0FC7FF#32
  | .rowint => 0xFC0FC7FF#32
  | .rowint2 => 0xFC0FC7FF#32

/-- The row with a given opcode number, none for a reserved one (rules R97, R99). -/
def opcodeOf (op : Nat) : Option Opcode :=
  match op with
  | 0x00 => some .nop
  | 0x01 => some .free
  | 0x02 => some .mkdct2
  | 0x03 => some .mkdct4
  | 0x04 => some .colxfm
  | 0x05 => some .trn
  | 0x08 => some .dct
  | 0x09 => some .idct
  | 0x0A => some .regroup
  | 0x0B => some .dctbpp
  | 0x10 => some .dwt
  | 0x11 => some .idwt
  | 0x12 => some .nlevdwt
  | 0x13 => some .nlevidwt
  | 0x14 => some .quantdwt
  | 0x15 => some .energyz
  | 0x18 => some .quantise
  | 0x19 => some .bpp
  | 0x1C => some .rowdec
  | 0x1D => some .rowdec2
  | 0x1E => some .rowint
  | 0x1F => some .rowint2
  | _ => none

/-- `cmd[lo+len-1:lo]` as a natural number (rules R12, R96). -/
def bits (w : Word) (lo len : Nat) : Nat := (w.extractLsb' lo len).toNat

/-- The 3-bit register field whose lowest bit is `lo` (rule R95). -/
def regField (w : Word) (lo : Nat) : RegIx := (w.extractLsb' lo 3).toFin

/-- The opcode field, bits 31:26 in every format (rule R90). -/
def opField (w : Word) : Nat := bits w 26 6
/-- `f1`, bits 25:23 (rules R92 to R94). -/
def f1Field (w : Word) : RegIx := regField w 23
/-- `f2`, bits 22:20 (rules R92, R93). -/
def f2Field (w : Word) : RegIx := regField w 20
/-- `f3`, bits 19:17 (rule R93). -/
def f3Field (w : Word) : RegIx := regField w 17
/-- `f4`, bits 16:14 (rule R93). -/
def f4Field (w : Word) : RegIx := regField w 14
/-- `k1`, bits 13:11 (rule R93). -/
def k1Field (w : Word) : RegIx := regField w 11
/-- `k2`, bits 10:8 (rule R93). -/
def k2Field (w : Word) : RegIx := regField w 8
/-- `n1`, bits 19:10 (rule R92); `layer` in format E (rule R94). -/
def n1Field (w : Word) : Nat := bits w 10 10
/-- `n2`, bits 9:0 (rule R92); `n` in format E (rule R94). -/
def n2Field (w : Word) : Nat := bits w 0 10
/-- `i` of format E, bits 22:20 (rule R94). -/
def iField (w : Word) : Nat := bits w 20 3

/-- The row of the opcode map a command belongs to (rule R97). -/
def Instr.opcode : Instr → Opcode
  | .nop => .nop
  | .free _ => .free
  | .mkdct2 _ _ => .mkdct2
  | .mkdct4 _ _ => .mkdct4
  | .colxfm _ _ _ => .colxfm
  | .trn _ _ => .trn
  | .dct _ _ _ => .dct
  | .idct _ _ _ => .idct
  | .regroup _ _ _ _ => .regroup
  | .dctbpp _ _ _ => .dctbpp
  | .dwt _ _ _ _ => .dwt
  | .idwt _ _ _ _ => .idwt
  | .nlevdwt _ _ _ => .nlevdwt
  | .nlevidwt _ _ _ => .nlevidwt
  | .quantdwt _ _ _ _ => .quantdwt
  | .energyz _ _ _ _ => .energyz
  | .quantise _ _ _ => .quantise
  | .bpp _ _ => .bpp
  | .rowdec _ _ _ => .rowdec
  | .rowdec2 _ _ _ => .rowdec2
  | .rowint _ _ _ => .rowint
  | .rowint2 _ _ _ => .rowint2

/-- The command of a row with its operands taken from the word's fields (rules R91 to R94, R97). -/
def Opcode.build (op : Opcode) (w : Word) : Instr :=
  match op with
  | .nop => .nop
  | .free => .free (f1Field w)
  | .mkdct2 => .mkdct2 (f1Field w) (n1Field w)
  | .mkdct4 => .mkdct4 (f1Field w) (n1Field w)
  | .colxfm => .colxfm (f1Field w) (f2Field w) (f3Field w)
  | .trn => .trn (f1Field w) (f2Field w)
  | .dct => .dct (f1Field w) (f2Field w) (n1Field w)
  | .idct => .idct (f1Field w) (f2Field w) (n1Field w)
  | .regroup => .regroup (f1Field w) (f2Field w) (n1Field w) (n2Field w)
  | .dctbpp => .dctbpp (f1Field w) (f2Field w) (n1Field w)
  | .dwt => .dwt (f1Field w) (f2Field w) (k1Field w) (k2Field w)
  | .idwt => .idwt (f1Field w) (f2Field w) (k1Field w) (k2Field w)
  | .nlevdwt => .nlevdwt (f1Field w) (f2Field w) (n1Field w)
  | .nlevidwt => .nlevidwt (f1Field w) (f2Field w) (n1Field w)
  | .quantdwt => .quantdwt (f1Field w) (f4Field w) (f2Field w) (f3Field w)
  | .energyz => .energyz (f1Field w) (n2Field w) (n1Field w) (iField w)
  | .quantise => .quantise (f1Field w) (f2Field w) (f3Field w)
  | .bpp => .bpp (f1Field w) (f2Field w)
  | .rowdec => .rowdec (f1Field w) (f2Field w) (k1Field w)
  | .rowdec2 => .rowdec2 (f1Field w) (f2Field w) (k1Field w)
  | .rowint => .rowint (f1Field w) (f2Field w) (k1Field w)
  | .rowint2 => .rowint2 (f1Field w) (f2Field w) (k1Field w)

/-- The decoding procedure of rule R105. -/
def decode (w : Word) : Except Rejection Instr :=
  match opcodeOf (opField w) with
  | none => .error .reservedOpcode
  | some op =>
    if w &&& op.mask ≠ op.pattern then .error .mustBeZero
    else if op = .quantdwt ∧ f1Field w = f4Field w then .error .sameDestination
    else .ok (op.build w)

/-- Four bytes as the word a byte-addressed bus carries, the first byte bits 7:0 (rule R62). -/
def wordOfBytes (bs : List Byte) : Option Word :=
  match bs with
  | [b0, b1, b2, b3] => some (b3 ++ b2 ++ b1 ++ b0)
  | _ => none

/-- The bytes of a word in the order of their offsets (rule R62). -/
def bytesOfWord (w : Word) : List Byte :=
  [w.extractLsb' 0 8, w.extractLsb' 8 8, w.extractLsb' 16 8, w.extractLsb' 24 8]

/-- Decoding of the bytes of a bus write; anything but four bytes is no command word (rules R63, R90). -/
def decodeBytes (bs : List Byte) : Except Rejection Instr :=
  match wordOfBytes bs with
  | none => .error .notOneWord
  | some w => decode w

/-- The word whose table bits are `w` and whose bits from `nbits` up are zero (rule R90: one word holds it all). -/
def tableWord (nbits w : Nat) : Word := BitVec.ofNat 32 (w % 2 ^ nbits)

/-- The instruction the decoder reads from a row of the opcode table whose bits are `w`. The word is laid out as
the bus carries it and decoded from its bytes. -/
def decodeTableWord (nbits w : Nat) : Option Instr :=
  match decodeBytes (bytesOfWord (tableWord nbits w)) with
  | .ok i => some i
  | .error _ => none

/-! ### The encoder -/

/-- Format Z (rule R91). -/
def formatZ (op : Opcode) : Word := (BitVec.ofNat 6 op.code ++ 0#26).cast (m := 32) rfl

/-- Format N (rule R92). -/
def formatN (op : Opcode) (f1 f2 n1 n2 : Nat) : Word :=
  (BitVec.ofNat 6 op.code ++ BitVec.ofNat 3 f1 ++ BitVec.ofNat 3 f2 ++ BitVec.ofNat 10 n1
    ++ BitVec.ofNat 10 n2).cast (m := 32) rfl

/-- Format R (rule R93). -/
def formatR (op : Opcode) (f1 f2 f3 f4 k1 k2 : Nat) : Word :=
  (BitVec.ofNat 6 op.code ++ BitVec.ofNat 3 f1 ++ BitVec.ofNat 3 f2 ++ BitVec.ofNat 3 f3 ++ BitVec.ofNat 3 f4
    ++ BitVec.ofNat 3 k1 ++ BitVec.ofNat 3 k2 ++ 0#8).cast (m := 32) rfl

/-- Format E (rule R94). -/
def formatE (op : Opcode) (f1 i layer n : Nat) : Word :=
  (BitVec.ofNat 6 op.code ++ BitVec.ofNat 3 f1 ++ BitVec.ofNat 3 i ++ BitVec.ofNat 10 layer
    ++ BitVec.ofNat 10 n).cast (m := 32) rfl

/-- The command word of a command (rules R91 to R97, R103); unused fields are 0 (rule R100). -/
def encode : Instr → Word
  | .nop => formatZ .nop
  | .free ad => formatN .free ad 0 0 0
  | .mkdct2 ad n => formatN .mkdct2 ad 0 n 0
  | .mkdct4 ad n => formatN .mkdct4 ad 0 n 0
  | .colxfm ad sa ac => formatR .colxfm ad sa ac 0 0 0
  | .trn ad sa => formatR .trn ad sa 0 0 0 0
  | .dct ad sa n => formatN .dct ad sa n 0
  | .idct ad sa n => formatN .idct ad sa n 0
  | .regroup ad sa n1 n2 => formatN .regroup ad sa n1 n2
  | .dctbpp sd sa n => formatN .dctbpp sd sa n 0
  | .dwt ad sa k1 k2 => formatR .dwt ad sa 0 0 k1 k2
  | .idwt ad sa k1 k2 => formatR .idwt ad sa 0 0 k1 k2
  | .nlevdwt ad sa n => formatN .nlevdwt ad sa n 0
  | .nlevidwt ad sa n => formatN .nlevidwt ad sa n 0
  | .quantdwt ad ae sa ta => formatR .quantdwt ad sa ta ae 0 0
  | .energyz sd n layer i => formatE .energyz sd i layer n
  | .quantise ad sa ss => formatR .quantise ad sa ss 0 0 0
  | .bpp sd sa => formatR .bpp sd sa 0 0 0 0
  | .rowdec ad sa k => formatR .rowdec ad sa 0 0 k 0
  | .rowdec2 ad sa k => formatR .rowdec2 ad sa 0 0 k 0
  | .rowint ad sa k => formatR .rowint ad sa 0 0 k 0
  | .rowint2 ad sa k => formatR .rowint2 ad sa 0 0 k 0

end Sys2Proof
end

