-- ==== Sys2Proof/Config.lean ====
section
/-!
DEFINITION. The parameters of the machine (rule R7): the fixed ones as constants, the open ones MAXDIM,
MAXTAPS, NUM, EPS and BIN as a record that the state carries and no step changes (log entry 3).
-/

namespace Sys2Proof

/-- The open parameters of one machine (rule R7). `eps` is the tolerance of the source's "≈" properties; it has a
meaning only for a `num` other than the reals, and no command reads it. -/
structure Config where
  maxDim  : Nat
  maxTaps : Nat
  num     : NumFormat
  eps     : Rat
  bin     : BinRule
  deriving DecidableEq, Repr

/-- The `k`-th unknown binning function, from the reals to the integers: no body, so nothing can be proved of its
values (rules R7, R216). DESIGN CHOICE, log entry 3. -/
noncomputable opaque Config.binOther : Nat → ℝ → ℤ

/-- The arithmetic of the `k`-th unknown number format: the result of an operation as a function of its operands,
with no body, so nothing can be proved of its values (rule R8). DESIGN CHOICE, log entry 15. -/
noncomputable opaque Config.arithOther : Nat → NumOp → List ℝ → ℝ

/-- The ranges the spec gives the open parameters (rule R7; EPS > 0 when NUM is not the reals). -/
def Config.wf (c : Config) : Bool :=
  decide (256 ≤ c.maxDim) && decide (c.maxDim ≤ 65535) && decide (5 ≤ c.maxTaps) && decide (c.maxTaps ≤ 255) &&
    decide (c.num = .reals ∨ 0 < c.eps)

/-- The suggested and reference values (rule R7): MAXDIM = 512, MAXTAPS = 15, NUM = ℝ, EPS = 1e-10,
`BIN(x) = floor(x + 1/2)`. DESIGN CHOICE, log entry 3. -/
def Config.suggested : Config := ⟨512, 15, .reals, 1 / 10 ^ 10, .reference⟩

/-- The identification value, ASCII "IPC1" (rules R1, R31). -/
def idValue : Word := 0x49504331#32

/-- The reset value of `IMGSIZE` (rules R7, R38). -/
def imgSizeReset : BitVec 16 := 256#16

/-- The magnitude of the energy probe's impulse (rules R7, R196). -/
def impulse : Rat := 100

end Sys2Proof
end

