-- ==== Sys2Proof/Machine/Num.lean ====
section
/-!
DEFINITION. The exact arithmetic of the reference `NUM` (rules R8, R15): sums, products, square roots of rationals,
cosines of rational multiples of π and binary logarithms of rationals. Every function computes the ideal real result
of its rule; `Laws/Num.lean` proves that against `Machine/Ideal.lean`. At the end the arithmetic of any format, which
for a format other than the reals records the operation (rule R8).
-/

namespace Sys2Proof

/-! ### Rational combinations of surds -/

/-- A rational number (rule R7: `NUM` contains the dyadic rationals). -/
def Alg.ofRat (q : Rat) : Alg := ⟨q, []⟩

/-- The order in which surds are listed: by radicand, then by angle. -/
def Surd.before (t u : Surd) : Bool :=
  decide (t.rad < u.rad) || (decide (t.rad = u.rad) && decide (t.ang < u.ang))

/-- Adds one surd into an ordered list of surds, joining it with a surd of the same radicand and angle. -/
def Alg.insertSurd (t : Surd) : List Surd → List Surd
  | [] => if t.coef = 0 then [] else [t]
  | u :: us =>
    if t.rad = u.rad ∧ t.ang = u.ang then
      if t.coef + u.coef = 0 then us else ⟨t.coef + u.coef, u.rad, u.ang⟩ :: us
    else if t.before u then
      if t.coef = 0 then u :: us else t :: u :: us
    else u :: Alg.insertSurd t us

/-- The sum of two exact numbers. -/
def Alg.add (a b : Alg) : Alg := ⟨a.rat + b.rat, a.irr.foldr Alg.insertSurd b.irr⟩

/-- A rational multiple of an exact number. -/
def Alg.scale (q : Rat) (a : Alg) : Alg :=
  if q = 0 then Alg.ofRat 0 else ⟨q * a.rat, a.irr.map fun t => ⟨q * t.coef, t.rad, t.ang⟩⟩

/-- `c * sqrt n`. -/
def Alg.radical (c : Rat) (n : Nat) : Alg :=
  if c = 0 ∨ n = 0 then Alg.ofRat 0 else if n = 1 then Alg.ofRat c else ⟨0, [⟨c, n, 0⟩]⟩

/-- `c * sqrt m * sqrt n`, the common factor of `m` and `n` taken out of the root. -/
def Alg.radical2 (c : Rat) (m n : Nat) : Alg :=
  Alg.radical (c * (Nat.gcd m n : Rat)) ((m / Nat.gcd m n) * (n / Nat.gcd m n))

/-- `c * sqrt n * cos (π * b)` for an angle `0 ≤ b ≤ 1/2`, the angles with a simple cosine resolved. -/
def Alg.quadrant (c : Rat) (n : Nat) (b : Rat) : Alg :=
  if b = 0 then Alg.radical c n
  else if b = 1 / 2 then Alg.ofRat 0
  else if b = 1 / 3 then Alg.radical (c / 2) n
  else if b = 1 / 4 then Alg.radical2 (c / 2) n 2
  else if b = 1 / 6 then Alg.radical2 (c / 2) n 3
  else if c = 0 ∨ n = 0 then Alg.ofRat 0
  else ⟨0, [⟨c, n, b⟩]⟩

/-- The angle `r` (in half turns) brought into `0 ≤ b ≤ 1` with the same cosine. -/
def Alg.foldAngle (r : Rat) : Rat :=
  let a := r - 2 * ((r / 2).floor : Rat)
  if 1 < a then 2 - a else a

/-- `c * sqrt n * cos (π * r)` for any rational `r`. -/
def Alg.cosine (c : Rat) (n : Nat) (r : Rat) : Alg :=
  let b := Alg.foldAngle r
  if 1 / 2 < b then Alg.quadrant (-c) n (1 - b) else Alg.quadrant c n b

/-- The product of two surds, by `2 cos a cos b = cos (a + b) + cos (a - b)`. -/
def Surd.mul (t u : Surd) : Alg :=
  let g := Nat.gcd t.rad u.rad
  let n := (t.rad / g) * (u.rad / g)
  let c := t.coef * u.coef * (g : Rat)
  if t.ang = 0 then Alg.cosine c n u.ang
  else if u.ang = 0 then Alg.cosine c n t.ang
  else Alg.add (Alg.cosine (c / 2) n (t.ang + u.ang)) (Alg.cosine (c / 2) n (t.ang - u.ang))

/-- The sum of the products of one surd with every surd of a list. -/
def Surd.mulList (t : Surd) : List Surd → Alg
  | [] => Alg.ofRat 0
  | u :: us => Alg.add (t.mul u) (Surd.mulList t us)

/-- The sum of the products of every surd of one list with every surd of another. -/
def Alg.mulIrr : List Surd → List Surd → Alg
  | [], _ => Alg.ofRat 0
  | t :: ts, us => Alg.add (t.mulList us) (Alg.mulIrr ts us)

/-- The product of two exact numbers. -/
def Alg.mul (a b : Alg) : Alg :=
  if a.irr = [] then Alg.scale a.rat b
  else if b.irr = [] then Alg.scale b.rat a
  else Alg.add (Alg.scale a.rat b) (Alg.add (Alg.scale b.rat ⟨0, a.irr⟩) (Alg.mulIrr a.irr b.irr))

/-- The largest `j ≤ k` whose square divides `m` (1 if there is none). -/
def Alg.squareFactorUpTo : Nat → Nat → Nat
  | 0, _ => 1
  | k + 1, m => if m % ((k + 1) * (k + 1)) = 0 then k + 1 else Alg.squareFactorUpTo k m

/-- The largest number whose square divides `m`. -/
def Alg.squareFactor (m : Nat) : Nat := Alg.squareFactorUpTo (2 ^ (m.log2 / 2 + 1)) m

/-- `sqrt q`, as `sqrt (num * den) / den` with the square factor taken out of the root. -/
def Alg.sqrt (q : Rat) : Alg :=
  let m := q.num.toNat * q.den
  let j := Alg.squareFactor m
  Alg.radical ((j : Rat) / (q.den : Rat)) (m / (j * j))

/-! ### Values of `NUM` -/

/-- The value of a rational number. -/
def NUM.ofRat (q : Rat) : NUM := .alg (Alg.ofRat q)

/-- The zero of `NUM`. -/
def NUM.zero : NUM := NUM.ofRat 0

/-- `x + y` (rule R15). -/
def NUM.plus (x y : NUM) : NUM :=
  match x, y with
  | .alg a, .alg b => .alg (a.add b)
  | x, y => if x = NUM.zero then y else if y = NUM.zero then x else .add x y

/-- `x · y` (rule R15). -/
def NUM.times (x y : NUM) : NUM :=
  match x, y with
  | .alg a, .alg b => .alg (a.mul b)
  | x, y =>
    if x = NUM.zero ∨ y = NUM.zero then NUM.zero
    else if x = NUM.ofRat 1 then y
    else if y = NUM.ofRat 1 then x
    else .mul x y

/-- `Σ_{i=0}^{n-1} f i`, the terms added in increasing `i` (rules R15, R141, R234). -/
def NUM.sum : Nat → (Nat → NUM) → NUM
  | 0, _ => NUM.zero
  | n + 1, f => (NUM.sum n f).plus (f n)

/-- `sqrt q` of a rational (rule R15). -/
def NUM.sqrt (q : Rat) : NUM := .alg (Alg.sqrt q)

/-- `cos (π · r)` for a rational `r` (rule R15). -/
def NUM.cosPi (r : Rat) : NUM := .alg (Alg.cosine 1 1 r)

/-- `log2 q` of a positive rational (rules R15, R216), a power of two resolved. -/
def NUM.logTwo (q : Rat) : NUM :=
  if q.num = 1 ∧ q.den = 2 ^ q.den.log2 then NUM.ofRat (-(q.den.log2 : Rat))
  else if q.den = 1 ∧ q.num = (2 ^ q.num.toNat.log2 : Nat) then NUM.ofRat (q.num.toNat.log2 : Rat)
  else .log2 q

/-- The list of values inside a `NUMList`. -/
def NUMList.ofList : List NUM → NUMList
  | [] => .nil
  | x :: xs => .cons x (NUMList.ofList xs)

/-! ### The arithmetic of any format -/

/-- An operation of the `k`-th other format on one operand. -/
def NUM.op1 (k : Nat) (o : NumOp) (x : NUM) : NUM := .op k o (NUMList.ofList [x])

/-- An operation of the `k`-th other format on two operands. -/
def NUM.op2 (k : Nat) (o : NumOp) (x y : NUM) : NUM := .op k o (NUMList.ofList [x, y])

/-- `x + y` in a format (rules R8, R15). -/
def NumFormat.plus (f : NumFormat) (x y : NUM) : NUM :=
  match f with
  | .reals => x.plus y
  | .other k => NUM.op2 k .add x y

/-- `x · y` in a format (rules R8, R15). -/
def NumFormat.times (f : NumFormat) (x y : NUM) : NUM :=
  match f with
  | .reals => x.times y
  | .other k => NUM.op2 k .mul x y

/-- `t 0 + t 1 + ... + t (n-1)` in the `k`-th other format, in increasing index (rules R141, R234). That the sum
begins with its first term and not with a zero is log entry 15. -/
def NUM.opSum (k : Nat) : Nat → (Nat → NUM) → NUM
  | 0, _ => NUM.zero
  | 1, t => t 0
  | n + 2, t => NUM.op2 k .add (NUM.opSum k (n + 1) t) (t (n + 1))

/-- `Σ_{i=0}^{n-1} t i` in a format, the terms added in increasing `i` (rules R15, R141, R234). -/
def NumFormat.sum (f : NumFormat) (n : Nat) (t : Nat → NUM) : NUM :=
  match f with
  | .reals => NUM.sum n t
  | .other k => NUM.opSum k n t

/-- `total = 0`, then `total = total + t i` in increasing `i`, in the `k`-th other format (rule R158). -/
def NUM.opTotal (k : Nat) : Nat → (Nat → NUM) → NUM
  | 0, _ => NUM.zero
  | n + 1, t => NUM.op2 k .add (NUM.opTotal k n t) (t n)

/-- A running total from zero in a format (rule R158). -/
def NumFormat.total (f : NumFormat) (n : Nat) (t : Nat → NUM) : NUM :=
  match f with
  | .reals => NUM.sum n t
  | .other k => NUM.opTotal k n t

end Sys2Proof
end

