-- ==== Sys2Proof/Machine/Enclose.lean ====
section
/-!
DEFINITION. Rational bounds on exact numbers, and with them the two places where rules R212 and R216 compare a
real number with a boundary (`ceil`, `floor`, `sign`). A comparison that the bounds decide gives a computed
result; one they do not decide leaves the exact expression in the value (`NUM.quant`, `NUM.bpp`), so the result
is the ideal one either way. DESIGN CHOICE, log entry 11. In a format other than the reals the expression stays
(rule R219).
-/

namespace Sys2Proof

/-- A closed interval with rational ends. -/
structure Interval where
  lo : Rat
  hi : Rat
  deriving DecidableEq, Repr

/-- The interval of all sums. -/
def Interval.add (i j : Interval) : Interval := ⟨i.lo + j.lo, i.hi + j.hi⟩

/-- The interval of all products. -/
def Interval.mul (i j : Interval) : Interval :=
  let p := i.lo * j.lo
  let q := i.lo * j.hi
  let r := i.hi * j.lo
  let t := i.hi * j.hi
  ⟨min (min p q) (min r t), max (max p q) (max r t)⟩

/-- Twenty decimals of π, rounded down. -/
def piLow : Rat := 314159265358979323846 / 100000000000000000000

/-- `Σ_{j<n} (-1)^j h^(2j) / (2j)!` by Horner's scheme: the cosine's power series cut off after `n` terms,
`k` the number of factors already taken out. -/
def cosSeries (h2 : Rat) : Nat → Nat → Rat
  | 0, _ => 0
  | n + 1, k => 1 - h2 / ((2 * k + 1) * (2 * k + 2) : Nat) * cosSeries h2 n (k + 1)

/-- Bounds on `cos (π * r)` for `0 ≤ r ≤ 1/2`, from the series of the half angle. -/
def cosBounds (r : Rat) : Interval :=
  let h := piLow * r / 2
  let c := cosSeries (h * h) 12 0
  let m := 2 * c * c - 1
  ⟨m - 1 / 10 ^ 18, m + 1 / 10 ^ 18⟩

/-- The largest `j ≤ 2^k - 1` with `j * j ≤ n`, added to `acc * 2^k`, one binary digit at a time. -/
def sqrtDigits (n : Nat) : Nat → Nat → Nat
  | 0, acc => acc
  | k + 1, acc =>
    let t := acc + 2 ^ k
    if t * t ≤ n then sqrtDigits n k t else sqrtDigits n k acc

/-- Bounds on `sqrt n`, 64 binary places. -/
def sqrtBounds (n : Nat) : Interval :=
  let m := n * 2 ^ 128
  let j := sqrtDigits m (m.log2 / 2 + 1) 0
  ⟨(j : Rat) / 2 ^ 64, ((j + 1 : Nat) : Rat) / 2 ^ 64⟩

/-- Bounds on a surd. An angle outside `0 ≤ ang ≤ 1/2` does not arise from the machine's arithmetic and gets the
bounds of every cosine. -/
def Surd.bounds (t : Surd) : Interval :=
  let c : Interval := if t.ang = 0 then ⟨1, 1⟩ else if 0 < t.ang ∧ t.ang ≤ 1 / 2 then cosBounds t.ang else ⟨-1, 1⟩
  (Interval.mul ⟨t.coef, t.coef⟩ (sqrtBounds t.rad)).mul c

/-- Bounds on an exact number; a rational is its own bounds. -/
def Alg.bounds (a : Alg) : Interval := a.irr.foldr (fun t i => t.bounds.add i) ⟨a.rat, a.rat⟩

/-- Bounds on a value that has a computed form. -/
def NUM.bounds : NUM → Option Interval
  | .alg a => some a.bounds
  | .real _ => none
  | .add x y =>
    match x.bounds, y.bounds with
    | some i, some j => some (i.add j)
    | _, _ => none
  | .mul x y =>
    match x.bounds, y.bounds with
    | some i, some j => some (i.mul j)
    | _, _ => none
  | .log2 _ => none
  | .quant _ _ _ => none
  | .bpp _ _ _ => none
  | .op _ _ _ => none

/-- The interval of absolute values. -/
def Interval.abs (i : Interval) : Interval :=
  if 0 ≤ i.lo then i else if i.hi ≤ 0 then ⟨-i.hi, -i.lo⟩ else ⟨0, max (-i.lo) i.hi⟩

/-- The quantiser's level `max(0, ceil((a - step/2)/step))` for an absolute value `a` and a positive step, the
quotient written `a/step - 1/2` (rule R212). DEDUCED, log entry 12. -/
def quantLevel (ratio : Rat) : Nat := (ratio - 1 / 2).ceil.toNat

/-- `sign(x) * q * step` over the reals for a step with the bounds `st`, both of them positive (rule R212). -/
def NUM.quantiseReal (x step : NUM) (st : Interval) : NUM :=
  match x.bounds with
  | none => .quant .reals x step
  | some i =>
    let q := quantLevel (i.abs.lo / st.hi)
    if q ≠ quantLevel (i.abs.hi / st.lo) then .quant .reals x step
    else if q = 0 then NUM.zero
    else if 0 < i.lo then NUM.times (NUM.ofRat q) step
    else NUM.times (NUM.ofRat (-(q : Rat))) step

/-- `quantise(x, step)` of one value in a format (rule R212): the identity for `step ≤ 0` in every format (rule R9),
else `sign(x) * q * step`. -/
def NUM.quantise (f : NumFormat) (x step : NUM) : NUM :=
  match step.bounds with
  | none => .quant f x step
  | some st =>
    if st.hi ≤ 0 then x
    else if st.lo ≤ 0 then .quant f x step
    else
      match f with
      | .reals => x.quantiseReal step st
      | .other k => .quant (.other k) x step

/-- The reference binning `BIN(x) = floor(x + 1/2)` (rule R216), where the bounds of `x` decide it. -/
def NUM.refBin (x : NUM) : Option Int :=
  match x.bounds with
  | none => none
  | some i => if (i.lo + 1 / 2).floor = (i.hi + 1 / 2).floor then some (i.lo + 1 / 2).floor else none

/-- The bins of a list of cells, if every one is decided. -/
def NUM.refBins : List NUM → Option (List Int)
  | [] => some []
  | x :: xs =>
    match x.refBin, NUM.refBins xs with
    | some b, some bs => some (b :: bs)
    | _, _ => none

/-- Counts one more cell in bin `b`, the bins kept in increasing order (rules R216, R217). -/
def countBin (b : Int) : List (Int × Nat) → List (Int × Nat)
  | [] => [(b, 1)]
  | (c, n) :: cs => if b = c then (c, n + 1) :: cs else if b < c then (b, 1) :: (c, n) :: cs else (c, n) :: countBin b cs

/-- The histogram of a list of bins: every non-empty bin with its count, in increasing order (rule R216). -/
def histogram (bins : List Int) : List (Int × Nat) := bins.foldr countBin []

/-- `(n/T) * log2 (n/T)` (rule R216). -/
def entropyTerm (total n : Nat) : NUM :=
  NUM.times (NUM.ofRat ((n : Rat) / (total : Rat))) (NUM.logTwo ((n : Rat) / (total : Rat)))

/-- `- Σ_b (count[b]/T) * log2 (count[b]/T)`, the terms added in increasing `b` (rule R216). -/
def entropyOf (bins : List Int) : NUM :=
  NUM.times (NUM.ofRat (-1))
    ((histogram bins).foldl (fun acc bn => acc.plus (entropyTerm bins.length bn.2)) NUM.zero)

end Sys2Proof
end

