-- ==== Sys2Proof/Machine/Arr.lean ====
section
/-!
DEFINITION. Arrays (rule R13): the type and the operations on them that the command rules write in their
pseudocode. Rows and columns are 0-based; row 0 is the top row and column 0 the left column. This is all the
memory the machine has (rule R60). DESIGN CHOICE of its form, log entry 13.
-/

namespace Sys2Proof

/-- A two-dimensional array: the contents of one valid buffer (rules R13, R22). `cells` lists the rows from the
top, each row its cells from the left. -/
structure Arr where
  rows  : Nat
  cols  : Nat
  cells : List (List NUM)
  deriving DecidableEq, Repr

/-- `X[r][c]` (rule R13). -/
def Arr.get (x : Arr) (r c : Nat) : NUM := (x.cells.getD r []).getD c NUM.zero

/-- The array with `m` rows, `n` columns and cell `f r c` at `[r][c]`. -/
def Arr.ofFn (m n : Nat) (f : Nat → Nat → NUM) : Arr :=
  ⟨m, n, (List.range m).map fun r => (List.range n).map (f r)⟩

/-- The array whose rows are given. -/
def Arr.ofRows (rows : List (List NUM)) : Arr := ⟨rows.length, (rows.headD []).length, rows⟩

/-- `zeros(m, n)` (rule R13). -/
def Arr.zeros (m n : Nat) : Arr := Arr.ofFn m n fun _ _ => NUM.zero

/-- `X^T` (rule R13). -/
def Arr.transpose (x : Arr) : Arr := Arr.ofFn x.cols x.rows fun r c => x.get c r

/-- `X[r0:r0+m, c0:c0+n]` (rule R13). -/
def Arr.sub (x : Arr) (r0 c0 m n : Nat) : Arr := Arr.ofFn m n fun r c => x.get (r0 + r) (c0 + c)

/-- `X` with `X[r0:r0+rows(P), c0:c0+cols(P)]` replaced by `P`, every other cell untouched (rules R69, R176). -/
def Arr.paste (x : Arr) (r0 c0 : Nat) (p : Arr) : Arr :=
  Arr.ofFn x.rows x.cols fun r c =>
    if r0 ≤ r ∧ r < r0 + p.rows ∧ c0 ≤ c ∧ c < c0 + p.cols then p.get (r - r0) (c - c0) else x.get r c

/-- `X` with the cell `[r][c]` replaced. -/
def Arr.setCell (x : Arr) (r c : Nat) (v : NUM) : Arr :=
  ⟨x.rows, x.cols, x.cells.set r ((x.cells.getD r []).set c v)⟩

/-- `[P | Q]` (rule R13). -/
def Arr.beside (p q : Arr) : Arr :=
  Arr.ofFn p.rows (p.cols + q.cols) fun r c => if c < p.cols then p.get r c else q.get r (c - p.cols)

/-- `[P ; Q]` (rule R13). -/
def Arr.above (p q : Arr) : Arr :=
  Arr.ofFn (p.rows + q.rows) p.cols fun r c => if r < p.rows then p.get r c else q.get (r - p.rows) c

/-- `P + Q` in a format (rule R13). -/
def Arr.plus (f : NumFormat) (p q : Arr) : Arr := Arr.ofFn p.rows p.cols fun r c => f.plus (p.get r c) (q.get r c)

/-- `f` applied to every cell. -/
def Arr.map (f : NUM → NUM) (x : Arr) : Arr := Arr.ofFn x.rows x.cols fun r c => f (x.get r c)

/-- The cells in row-major order (rule R61). -/
def Arr.toList (x : Arr) : List NUM := x.cells.flatten

/-- The shape and the cells agree: `rows` rows of `cols` cells each. -/
def Arr.shaped (x : Arr) : Bool :=
  decide (x.cells.length = x.rows) && x.cells.all fun row => decide (row.length = x.cols)

/-- The condition a buffer's contents meet (rule R22): a shape within 1..MAXDIM and `rows * cols` cells. -/
def Arr.wf (maxDim : Nat) (x : Arr) : Bool :=
  x.shaped && decide (1 ≤ x.rows) && decide (x.rows ≤ maxDim) && decide (1 ≤ x.cols) && decide (x.cols ≤ maxDim)

/-! ### The two functions of the quantiser and the estimator on arrays -/

/-- `quantise(X, step)`: every cell alone, the shape kept (rules R211, R212). -/
def Arr.quantise (f : NumFormat) (x : Arr) (step : NUM) : Arr := x.map fun v => v.quantise f step

/-- `bpp` of a list of cells in a format and under a binning (rule R216): computed where the bins are decided, over
the reals and with the reference binning, and else the expression itself. DESIGN CHOICE, log entries 10 and 11. -/
def bitsPerPixel (f : NumFormat) (bin : BinRule) (cells : List NUM) : NUM :=
  match f, bin with
  | .reals, .reference =>
    match NUM.refBins cells with
    | some bins => entropyOf bins
    | none => .bpp .reals .reference (NUMList.ofList cells)
  | f, bin => .bpp f bin (NUMList.ofList cells)

/-- `bpp(X)`: estimated bits per pixel of an array (rule R216). -/
def Arr.bpp (f : NumFormat) (bin : BinRule) (x : Arr) : NUM := bitsPerPixel f bin x.toList

end Sys2Proof
end

