-- ==== Sys2Proof/Machine/State.lean ====
section
/-!
DEFINITION. The state of the machine (rules R21 to R53) as plain data, what can end a run, and the state after
reset (rule R52).
-/

namespace Sys2Proof.Machine

/-- The error codes that a command can end with (rule R251). Codes 7..15 are never produced. -/
inductive ErrCode where
  | ok | dim | domain | illegal | empty | capacity | kernel
  deriving DecidableEq, Repr

/-- A value that crosses the host port: 32 bits, or one `NUM` for the data ports (rules R30, R68). -/
inductive HostVal where
  | word (w : Word)
  | num (x : NUM)
  deriving DecidableEq, Repr

/-- What a host read returns: the register's value, or its bytes over a byte-addressed bus (rules R30, R62). -/
inductive Reply where
  | val (v : HostVal)
  | bytes (bs : List Byte)
  deriving DecidableEq, Repr

/-- One action of the outside world (rules R20, R30, R280). -/
inductive HostAction where
  /-- `RegRead(n)` -/
  | read (n : Fin 32)
  /-- `RegWrite(n, v)` -/
  | write (n : Fin 32) (v : HostVal)
  /-- a read of `size` bytes at a byte offset of the core's bus window -/
  | busRead (offset size : Nat)
  /-- a write of bytes at a byte offset of the core's bus window -/
  | busWrite (offset : Nat) (bs : List Byte)
  /-- the reset input -/
  | reset
  deriving DecidableEq, Repr

/-- What stops the machine with a fault. No command does (rule R288). -/
inductive Fault where
  /-- Raised by a bus access that reaches beyond the core's 32 registers: what lies there is the platform's
  (rule R60). Safe: the model stops where a platform may go on. -/
  | outsideCore
  deriving DecidableEq, Repr

/-- What the model gives no meaning. -/
inductive Refusal where
  /-- Raised by `exec` for a command without a meaning; no arm raises it. Safe. -/
  | notModelled (mnemonic : String)
  /-- Raised by a bus access that is not to a whole register, which "is not an access of this machine: the model
  gives it no meaning and refuses it" (rule R63). Safe. -/
  | partialAccess
  /-- Raised by a register access whose value has the wrong width for the register, a word for a `NUM` port or a
  `NUM` for a 32-bit register: not an access of this machine (rules R30, R63, R64). Safe. -/
  | wrongWidth
  /-- Raised by a bus access to a `NUM` port: the byte image of a `NUM` value belongs to the open parameter
  `NUM` (rule R62). Safe. -/
  | numByteImage
  deriving DecidableEq, Repr

/-- The architectural state (rule R21), then the model's own fields. -/
structure State where
  /-- `A[0..7]`; `none` is a buffer that is not valid (rule R22) -/
  bufs : Vector (Option Arr) 8
  /-- `S[0..7]`; `none` is a register that is not valid (rule R24) -/
  scalars : Vector (Option NUM) 8
  /-- the taps of `K[4..7]`; an empty list is a register that holds no kernel (rule R25) -/
  kernels : Vector (List NUM) 4
  /-- `STATUS.ERR` (rule R35) -/
  err : ErrCode
  /-- `STICKY` (rule R36) -/
  sticky : Word
  /-- `ERRINFO` (rule R37) -/
  errInfo : Word
  /-- `IMGSIZE.SIZE` (rule R38) -/
  imgSize : BitVec 16
  /-- `BSEL` (rule R39) -/
  bSel : RegIx
  /-- `CADDR` (rule R42) -/
  cAddr : Word
  /-- `KSEL` (rule R44) -/
  kSel : RegIx
  /-- `KADDR` (rule R46) -/
  kAddr : Word
  /-- `SSEL` (rule R49) -/
  sSel : RegIx
  /-- the model's own: the open parameters (rule R7, log entry 3); no step changes them -/
  cfg : Config
  /-- the model's own: the host's coming actions, oldest first (log entry 4) -/
  pending : List HostAction
  /-- the model's own: what host reads returned, newest first (log entry 4) -/
  replies : List Reply
  deriving DecidableEq, Repr

/-- The state after reset (rules R52, R281). `cfg` holds the suggested and reference parameters and no host
action is pending: DESIGN CHOICE, log entries 3 and 4. -/
def State.reset : State where
  bufs := Vector.replicate 8 none
  scalars := Vector.replicate 8 none
  kernels := Vector.replicate 4 []
  err := .ok
  sticky := 0#32
  errInfo := 0#32
  imgSize := imgSizeReset
  bSel := 0
  cAddr := 0#32
  kSel := 0
  kAddr := 0#32
  sSel := 0
  cfg := Config.suggested
  pending := []
  replies := []

end Sys2Proof.Machine
end

