-- ==== Sys2Proof/Machine/Flags.lean ====
section
/-!
DEFINITION. The status registers of a command (rules R29, R35 to R37, R251): this machine has no condition codes;
the error code, the sticky bits and their views are all there is.
-/

namespace Sys2Proof.Machine

/-- The number of an error code (rule R251). -/
def ErrCode.code : ErrCode → Nat
  | .ok => 0
  | .dim => 1
  | .domain => 2
  | .illegal => 3
  | .empty => 4
  | .capacity => 5
  | .kernel => 6

/-- The number of `STICKY.HOSTERR` (rule R36). -/
def hostErrBit : Nat := 7

/-- The word with bit `c` set. -/
def stickyBit (c : Nat) : Word := 1#32 <<< c

/-- `STICKY` with bit `c` set (rules R36, R258). -/
def setSticky (sticky : Word) (c : Nat) : Word := sticky ||| stickyBit c

/-- `STICKY` after a host write of `v`: every bit written as 1 is cleared (rule R36). -/
def clearSticky (sticky v : Word) : Word := sticky &&& ~~~v

/-- The view of `STATUS`: `ERR` in bits 3:0, `BUSY` and all others 0 (rule R35). -/
def statusWord (e : ErrCode) : Word := BitVec.ofNat 32 e.code

end Sys2Proof.Machine
end

