-- ==== Sys2Proof/Machine/Operands.lean ====
section
/-!
DEFINITION. The operand forms of the commands (rules R14, R95, R96): array buffer, scalar register, kernel
register, immediate; the hardwired kernels (rule R26); and the checks that more than one command makes.
-/

namespace Sys2Proof.Machine

/-- The hardwired taps of `K0`..`K3`, the LeGall 5/3 pair (rule R26); empty for the writable registers. -/
def romKernel (j : RegIx) : List NUM :=
  match j.val with
  | 0 => [NUM.ofRat (-1/8), NUM.ofRat (2/8), NUM.ofRat (6/8), NUM.ofRat (2/8), NUM.ofRat (-1/8)]
  | 1 => [NUM.ofRat (-1/4), NUM.ofRat (2/4), NUM.ofRat (-1/4)]
  | 2 => [NUM.ofRat (1/2), NUM.ofRat (2/2), NUM.ofRat (1/2)]
  | 3 => [NUM.ofRat (-1/4), NUM.ofRat (-2/4), NUM.ofRat (6/4), NUM.ofRat (-2/4), NUM.ofRat (-1/4)]
  | _ => []

/-- `KH1`, the default analysis low-pass kernel (rule R26). -/
def kh1 : List NUM := romKernel 0
/-- `KH2`, the default analysis high-pass kernel (rule R26). -/
def kh2 : List NUM := romKernel 1
/-- `KG1`, the default synthesis low-pass kernel (rule R26). -/
def kg1 : List NUM := romKernel 2
/-- `KG2`, the default synthesis high-pass kernel (rule R26). -/
def kg2 : List NUM := romKernel 3

/-- The contents of buffer `A[b]`, none if it is not valid (rule R22). -/
def State.buf (s : State) (b : RegIx) : Option Arr := s.bufs.get b

/-- The contents of scalar register `S[j]`, none if it is not valid (rule R24). -/
def State.scal (s : State) (j : RegIx) : Option NUM := s.scalars.get j

/-- The taps of kernel register `K[j]` (rule R25): the hardwired ones of rule R26 for `j < 4`. -/
def State.kern (s : State) (j : RegIx) : List NUM :=
  if h : j.val < 4 then romKernel j else s.kernels[j.val - 4]'(by omega)

/-- `raise e` if the condition holds (rule R14). -/
def raiseIf (c : Prop) [Decidable c] (e : ErrCode) : Except ErrCode Unit := if c then .error e else .ok ()

/-- `A[b]` read as a source operand: `raise EMPTY` if not valid (rules R14, R255). -/
def State.srcBuf (s : State) (b : RegIx) : Except ErrCode Arr :=
  match s.buf b with
  | none => .error .empty
  | some x => .ok x

/-- `S[j]` read as a source operand: `raise EMPTY` if not valid (rules R14, R255). -/
def State.srcScal (s : State) (j : RegIx) : Except ErrCode NUM :=
  match s.scal j with
  | none => .error .empty
  | some x => .ok x

/-- `K[j]` read as a source operand: `raise EMPTY` if it has length 0 (rules R14, R255). -/
def State.srcKern (s : State) (j : RegIx) : Except ErrCode (List NUM) :=
  match s.kern j with
  | [] => .error .empty
  | t :: ts => .ok (t :: ts)

/-- A kernel of even length, which no filter command accepts (rules R227, R257). -/
abbrev evenKernel (h : List NUM) : Prop := h.length % 2 = 0

/-- `2^n` does not divide both dimensions (rules R176, R179, R191, R252). -/
abbrev notDyadic (x : Arr) (n : Nat) : Prop := x.rows % 2 ^ n ≠ 0 ∨ x.cols % 2 ^ n ≠ 0

end Sys2Proof.Machine
end

