-- ==== Sys2Proof/Machine/Ops.lean ====
section
/-!
DEFINITION. The named operations over the register files, the end of a command, and taking an error (rules R14,
R258, R261, R263), once for all commands. There is no return from an error (rule R262).
-/

namespace Sys2Proof.Machine

/-- `A[b] <- M` (rule R14). -/
def State.setBuf (s : State) (b : RegIx) (x : Arr) : State := { s with bufs := s.bufs.set b.val (some x) b.isLt }

/-- `A[b].valid <- 0` (rule R247). -/
def State.freeBuf (s : State) (b : RegIx) : State := { s with bufs := s.bufs.set b.val none b.isLt }

/-- `S[j] <- v` (rule R14). -/
def State.setScal (s : State) (j : RegIx) (v : NUM) : State :=
  { s with scalars := s.scalars.set j.val (some v) j.isLt }

/-- Replaces the taps of a writable kernel register; `K0`..`K3` never change (rules R25, R45, R47). -/
def State.setKern (s : State) (j : RegIx) (taps : List NUM) : State :=
  if j.val < 4 then s else { s with kernels := s.kernels.set (j.val - 4) taps (by omega) }

/-- The end of a successful command: `STATUS.ERR <- 0`, `STICKY` and `ERRINFO` unchanged (rule R263). -/
def State.succeed (s : State) : State := { s with err := .ok }

/-- Taking an error: `STATUS.ERR <- code; STICKY[code] <- 1; ERRINFO <- cmd` and nothing else (rules R258, R261). -/
def State.takeError (s : State) (e : ErrCode) (cmd : Word) : State :=
  { s with err := e, sticky := setSticky s.sticky e.code, errInfo := cmd }

/-- An improper host access: `STICKY.HOSTERR <- 1` and nothing else (rules R66, R266). -/
def State.hostErr (s : State) : State := { s with sticky := setSticky s.sticky hostErrBit }

/-- The end of a command `i` started in state `s`: success with the writes made, or the error in the state the
command started from. The command word is `encode i`, the only word of `i` (rules R97, R100). DEDUCED, log
entry 5. -/
def finish (i : Instr) (s : State) (r : Except ErrCode State) : Host.Outcome State Fault Refusal :=
  match r with
  | .ok t => .next t.succeed
  | .error e => .next (s.takeError e (encode i))

end Sys2Proof.Machine
end

