-- ==== Sys2Proof/Machine/ColumnTransform.lean ====
section
/-!
DEFINITION. The Column Transform Applier: `COLXFM` and `TRN` (rules R140 to R143).
-/

namespace Sys2Proof.Machine

/-- `colxfm(X, C)`: `Y[b*N + i][j] = Σ_k C[i][k] * X[b*N + k][j]`, with `N = rows(C)`, `k` increasing
(rule R141). -/
def colxfm (f : NumFormat) (x c : Arr) : Arr :=
  Arr.ofFn x.rows x.cols fun r j =>
    f.sum c.rows fun k => f.times (c.get (r % c.rows) k) (x.get (r / c.rows * c.rows + k) j)

/-- `COLXFM Ad, As, Ac` (rule R141). -/
def execColxfm (ad sa ac : RegIx) (s : State) : Host.Outcome State Fault Refusal :=
  finish (.colxfm ad sa ac) s do
    let x ← s.srcBuf sa
    let c ← s.srcBuf ac
    raiseIf (c.cols ≠ c.rows) .dim
    raiseIf (x.rows % c.rows ≠ 0) .dim
    return s.setBuf ad (colxfm s.cfg.num x c)

/-- `TRN Ad, As` (rule R143). -/
def execTrn (ad sa : RegIx) (s : State) : Host.Outcome State Fault Refusal :=
  finish (.trn ad sa) s do
    let x ← s.srcBuf sa
    return s.setBuf ad x.transpose

end Sys2Proof.Machine
end

