-- ==== Sys2Proof/Machine/MatrixBuilder.lean ====
section
/-!
DEFINITION. The Transform-Matrix Builder: `MKDCT2` and `MKDCT4` (rules R130 to R134).
-/

namespace Sys2Proof.Machine

/-- `sqrt(2/n) * cos((k + 0.5) * π * j / n)` in the operations of the `k`-th other format, from left to right
(rules R131, R132). -/
def opCosine (f n k : Nat) (j : NUM) : NUM :=
  let angle := NUM.op2 f .mul (NUM.op2 f .mul (NUM.op2 f .add (NUM.ofRat k) (NUM.ofRat (1 / 2))) (.op f .pi .nil)) j
  NUM.op2 f .mul (NUM.op1 f .sqrt (NUM.op2 f .div (NUM.ofRat 2) (NUM.ofRat n)))
    (NUM.op1 f .cos (NUM.op2 f .div angle (NUM.ofRat n)))

/-- `C[i][k]` of the DCT-II matrix of size `n` in a format (rule R131): `1/sqrt n` in row 0, else
`sqrt(2/n) * cos((k + 0.5) * π * i / n)`. Over the reals `1/sqrt n` is computed as `sqrt (1/n)`: DEDUCED, log
entry 12. -/
def dct2Entry (f : NumFormat) (n i k : Nat) : NUM :=
  match f with
  | .reals =>
    if i = 0 then NUM.sqrt (1 / (n : Rat))
    else NUM.times (NUM.sqrt (2 / (n : Rat))) (NUM.cosPi (((k : Rat) + 1 / 2) * (i : Rat) / (n : Rat)))
  | .other f =>
    if i = 0 then NUM.op2 f .div (NUM.ofRat 1) (NUM.op1 f .sqrt (NUM.ofRat n))
    else opCosine f n k (NUM.ofRat i)

/-- `C[i][k]` of the DCT-IV matrix of size `n` in a format (rule R132):
`sqrt(2/n) * cos((k + 0.5) * π * (i + 0.5) / n)`. -/
def dct4Entry (f : NumFormat) (n i k : Nat) : NUM :=
  match f with
  | .reals => NUM.times (NUM.sqrt (2 / (n : Rat))) (NUM.cosPi (((k : Rat) + 1 / 2) * ((i : Rat) + 1 / 2) / (n : Rat)))
  | .other f => opCosine f n k (NUM.op2 f .add (NUM.ofRat i) (NUM.ofRat (1 / 2)))

/-- The DCT-II matrix of size `n` (rule R131). -/
def dct2Matrix (f : NumFormat) (n : Nat) : Arr := Arr.ofFn n n (dct2Entry f n)

/-- The DCT-IV matrix of size `n` (rule R132). -/
def dct4Matrix (f : NumFormat) (n : Nat) : Arr := Arr.ofFn n n (dct4Entry f n)

/-- `MKDCT2 Ad, N` (rule R131). -/
def execMkdct2 (ad : RegIx) (n : Nat) (s : State) : Host.Outcome State Fault Refusal :=
  finish (.mkdct2 ad n) s do
    raiseIf (n = 0) .domain
    raiseIf (n > s.cfg.maxDim) .capacity
    return s.setBuf ad (dct2Matrix s.cfg.num n)

/-- `MKDCT4 Ad, N` (rule R132). -/
def execMkdct4 (ad : RegIx) (n : Nat) (s : State) : Host.Outcome State Fault Refusal :=
  finish (.mkdct4 ad n) s do
    raiseIf (n = 0) .domain
    raiseIf (n > s.cfg.maxDim) .capacity
    return s.setBuf ad (dct4Matrix s.cfg.num n)

end Sys2Proof.Machine
end

