-- ==== Sys2Proof/Machine/BlockDct.lean ====
section
/-!
DEFINITION. The Block DCT Engine: `DCT`, `IDCT`, `REGROUP`, `DCTBPP` (rules R150 to R158).
-/

namespace Sys2Proof.Machine

/-- `C` applied down the columns, then along the former rows, and transposed back (rule R151). -/
def separable (f : NumFormat) (x c : Arr) : Arr :=
  let t1 := colxfm f x c
  let t2 := colxfm f t1.transpose c
  t2.transpose

/-- The forward block DCT of size `n` (rule R151). -/
def dct (f : NumFormat) (x : Arr) (n : Nat) : Arr := separable f x (dct2Matrix f n)

/-- The inverse block DCT of size `n`, with `D = C^T` (rule R153). -/
def idct (f : NumFormat) (y : Arr) (n : Nat) : Arr := separable f y (dct2Matrix f n).transpose

/-- `N` does not divide both dimensions (rules R151, R153, R158, R252). -/
abbrev notBlocked (x : Arr) (n1 n2 : Nat) : Prop := x.rows % n1 ≠ 0 ∨ x.cols % n2 ≠ 0

/-- `DCT Ad, As, N` (rule R151). -/
def execDct (ad sa : RegIx) (n : Nat) (s : State) : Host.Outcome State Fault Refusal :=
  finish (.dct ad sa n) s do
    let x ← s.srcBuf sa
    raiseIf (n = 0) .domain
    raiseIf (notBlocked x n n) .dim
    return s.setBuf ad (dct s.cfg.num x n)

/-- `IDCT Ad, As, N` (rule R153). -/
def execIdct (ad sa : RegIx) (n : Nat) (s : State) : Host.Outcome State Fault Refusal :=
  finish (.idct ad sa n) s do
    let y ← s.srcBuf sa
    raiseIf (n = 0) .domain
    raiseIf (notBlocked y n n) .dim
    return s.setBuf ad (idct s.cfg.num y n)

/-- `Y[ir*P + br][ic*Q + bc] = X[br*N1 + ir][bc*N2 + ic]` with `P = R/N1` and `Q = W/N2` (rule R156), read at the
destination cell: `ir = r / P`, `br = r mod P`, `ic = c / Q`, `bc = c mod Q`. -/
def regroup (x : Arr) (n1 n2 : Nat) : Arr :=
  let p := x.rows / n1
  let q := x.cols / n2
  Arr.ofFn x.rows x.cols fun r c => x.get (r % p * n1 + r / p) (c % q * n2 + c / q)

/-- `REGROUP Ad, As, N1, N2` (rule R156). -/
def execRegroup (ad sa : RegIx) (n1 n2 : Nat) (s : State) : Host.Outcome State Fault Refusal :=
  finish (.regroup ad sa n1 n2) s do
    let x ← s.srcBuf sa
    raiseIf (n1 = 0 ∨ n2 = 0) .domain
    raiseIf (notBlocked x n1 n2) .dim
    return s.setBuf ad (regroup x n1 n2)

/-- `Σ bpp(sub-image) * (P * Q)` over the `n * n` sub-images in row-major order, sub-image `t` in row `t / n` and
column `t mod n` of the partition (rule R158). -/
def dctBitCost (f : NumFormat) (bin : BinRule) (x : Arr) (n : Nat) : NUM :=
  let p := x.rows / n
  let q := x.cols / n
  f.total (n * n) fun t =>
    f.times ((x.sub (t / n * p) (t % n * q) p q).bpp f bin) (NUM.ofRat ((p * q : Nat) : Rat))

/-- `DCTBPP Sd, As, N` (rule R158). -/
def execDctbpp (sd sa : RegIx) (n : Nat) (s : State) : Host.Outcome State Fault Refusal :=
  finish (.dctbpp sd sa n) s do
    let x ← s.srcBuf sa
    raiseIf (n = 0) .domain
    raiseIf (notBlocked x n n) .dim
    return s.setScal sd (dctBitCost s.cfg.num s.cfg.bin x n)

end Sys2Proof.Machine
end

