-- ==== Sys2Proof/Machine/Quantiser.lean ====
section
/-!
DEFINITION. The Quantiser and the Bit-cost Estimator as commands: `QUANTISE` and `BPP` (rules R210 to R219). Their
functions on arrays are in `Machine/Arr.lean`.
-/

namespace Sys2Proof.Machine

/-- `QUANTISE Ad, As, Ss` (rule R211). -/
def execQuantise (ad sa ss : RegIx) (s : State) : Host.Outcome State Fault Refusal :=
  finish (.quantise ad sa ss) s do
    let x ← s.srcBuf sa
    let step ← s.srcScal ss
    return s.setBuf ad (x.quantise s.cfg.num step)

/-- `BPP Sd, As` (rule R215). -/
def execBpp (sd sa : RegIx) (s : State) : Host.Outcome State Fault Refusal :=
  finish (.bpp sd sa) s do
    let x ← s.srcBuf sa
    return s.setScal sd (x.bpp s.cfg.num s.cfg.bin)

end Sys2Proof.Machine
end

