-- ==== Sys2Proof/Machine/FilterBank.lean ====
section
/-!
DEFINITION. The 1-D Filter Bank Primitives: `ROWDEC`, `ROWDEC2`, `ROWINT`, `ROWINT2` (rules R225 to R234).
-/

namespace Sys2Proof.Machine

/-- `refl_c(j)`: whole-sample symmetric extension of a row of `c` samples (rule R226). -/
def refl (c : Nat) (j : Int) : Nat :=
  if c = 1 then 0
  else
    let p := 2 * (c - 1)
    let m := (j % (p : Int)).toNat
    if m < c then m else p - m

/-- `Σ_{i=0}^{m-1} h[i] * u[refl_c(t + m2 - i)]` with `m2 = (m-1)/2`: the filter output centred on sample `t` of
a row `u` of `c` samples (rules R228 to R232). -/
def filterAt (f : NumFormat) (h : List NUM) (c : Nat) (u : Nat → NUM) (t : Nat) : NUM :=
  f.sum h.length fun i =>
    f.times (h.getD i NUM.zero) (u (refl c ((t : Int) + ((h.length - 1) / 2 : Nat) - (i : Int))))

/-- `rowdec(X, h)`: the even-phase samples (rule R229). -/
def rowdec (f : NumFormat) (x : Arr) (h : List NUM) : Arr :=
  Arr.ofFn x.rows (x.cols / 2) fun r t => filterAt f h x.cols (x.get r) (2 * t)

/-- `rowdec2(X, h)`: the odd-phase samples (rule R230). -/
def rowdec2 (f : NumFormat) (x : Arr) (h : List NUM) : Arr :=
  Arr.ofFn x.rows (x.cols / 2) fun r t => filterAt f h x.cols (x.get r) (2 * t + 1)

/-- A row with its samples on the even positions and zeros between them (rule R231). -/
def spreadEven (u : Nat → NUM) (t : Nat) : NUM := if t % 2 = 0 then u (t / 2) else NUM.zero

/-- A row with its samples on the odd positions and zeros between them (rule R232). -/
def spreadOdd (u : Nat → NUM) (t : Nat) : NUM := if t % 2 = 0 then NUM.zero else u (t / 2)

/-- `rowint(X, g)` (rule R231). -/
def rowint (f : NumFormat) (x : Arr) (g : List NUM) : Arr :=
  Arr.ofFn x.rows (2 * x.cols) fun r t => filterAt f g (2 * x.cols) (spreadEven (x.get r)) t

/-- `rowint2(X, g)` (rule R232). -/
def rowint2 (f : NumFormat) (x : Arr) (g : List NUM) : Arr :=
  Arr.ofFn x.rows (2 * x.cols) fun r t => filterAt f g (2 * x.cols) (spreadOdd (x.get r)) t

/-- `ROWDEC Ad, As, Kh` (rule R229). -/
def execRowdec (ad sa k : RegIx) (s : State) : Host.Outcome State Fault Refusal :=
  finish (.rowdec ad sa k) s do
    let x ← s.srcBuf sa
    let h ← s.srcKern k
    raiseIf (evenKernel h) .kernel
    raiseIf (x.cols % 2 ≠ 0) .dim
    return s.setBuf ad (rowdec s.cfg.num x h)

/-- `ROWDEC2 Ad, As, Kh` (rule R230). -/
def execRowdec2 (ad sa k : RegIx) (s : State) : Host.Outcome State Fault Refusal :=
  finish (.rowdec2 ad sa k) s do
    let x ← s.srcBuf sa
    let h ← s.srcKern k
    raiseIf (evenKernel h) .kernel
    raiseIf (x.cols % 2 ≠ 0) .dim
    return s.setBuf ad (rowdec2 s.cfg.num x h)

/-- `ROWINT Ad, As, Kg` (rule R231). -/
def execRowint (ad sa k : RegIx) (s : State) : Host.Outcome State Fault Refusal :=
  finish (.rowint ad sa k) s do
    let x ← s.srcBuf sa
    let g ← s.srcKern k
    raiseIf (evenKernel g) .kernel
    raiseIf (2 * x.cols > s.cfg.maxDim) .capacity
    return s.setBuf ad (rowint s.cfg.num x g)

/-- `ROWINT2 Ad, As, Kg` (rule R232). -/
def execRowint2 (ad sa k : RegIx) (s : State) : Host.Outcome State Fault Refusal :=
  finish (.rowint2 ad sa k) s do
    let x ← s.srcBuf sa
    let g ← s.srcKern k
    raiseIf (evenKernel g) .kernel
    raiseIf (2 * x.cols > s.cfg.maxDim) .capacity
    return s.setBuf ad (rowint2 s.cfg.num x g)

end Sys2Proof.Machine
end

