-- ==== Sys2Proof/Machine/Dwt.lean ====
section
/-!
DEFINITION. The DWT Engine's transforms: `DWT`, `IDWT`, `NLEVDWT`, `NLEVIDWT` (rules R170 to R181).
-/

namespace Sys2Proof.Machine

/-- `dwt(X, h1, h2)`: low and high band side by side, then the same along the other axis (rule R171). -/
def dwt (f : NumFormat) (x : Arr) (h1 h2 : List NUM) : Arr :=
  let u := (rowdec f x h1).beside (rowdec2 f x h2)
  let v := u.transpose
  (rowdec f v h1).transpose.above (rowdec2 f v h2).transpose

/-- `idwt(Y, g1, g2)`: the vertical stage undone, then the horizontal one (rule R173). -/
def idwt (f : NumFormat) (y : Arr) (g1 g2 : List NUM) : Arr :=
  let top := y.sub 0 0 (y.rows / 2) y.cols
  let bot := y.sub (y.rows / 2) 0 (y.rows / 2) y.cols
  let t := (rowint f top.transpose g1).transpose.plus f (rowint2 f bot.transpose g2).transpose
  let lft := t.sub 0 0 y.rows (y.cols / 2)
  let rgt := t.sub 0 (y.cols / 2) y.rows (y.cols / 2)
  (rowint f lft g1).plus f (rowint2 f rgt g2)

/-- `DWT Ad, As, Kh1, Kh2` (rule R171). -/
def execDwt (ad sa k1 k2 : RegIx) (s : State) : Host.Outcome State Fault Refusal :=
  finish (.dwt ad sa k1 k2) s do
    let x ← s.srcBuf sa
    let h1 ← s.srcKern k1
    let h2 ← s.srcKern k2
    raiseIf (evenKernel h1 ∨ evenKernel h2) .kernel
    raiseIf (x.rows % 2 ≠ 0 ∨ x.cols % 2 ≠ 0) .dim
    return s.setBuf ad (dwt s.cfg.num x h1 h2)

/-- `IDWT Ad, As, Kg1, Kg2` (rule R173). -/
def execIdwt (ad sa k1 k2 : RegIx) (s : State) : Host.Outcome State Fault Refusal :=
  finish (.idwt ad sa k1 k2) s do
    let y ← s.srcBuf sa
    let g1 ← s.srcKern k1
    let g2 ← s.srcKern k2
    raiseIf (evenKernel g1 ∨ evenKernel g2) .kernel
    raiseIf (y.rows % 2 ≠ 0 ∨ y.cols % 2 ≠ 0) .dim
    return s.setBuf ad (idwt s.cfg.num y g1 g2)

/-- `n` more levels on the working region of `mr` rows and `mc` columns of `z` (rules R176, R177). -/
def dwtLevels (f : NumFormat) : Nat → Nat → Nat → Arr → Arr
  | 0, _, _, z => z
  | n + 1, mr, mc, z => dwtLevels f n (mr / 2) (mc / 2) (z.paste 0 0 (dwt f (z.sub 0 0 mr mc) kh1 kh2))

/-- The `n`-level forward transform with the default analysis pair (rule R176). -/
def nlevdwt (f : NumFormat) (x : Arr) (n : Nat) : Arr := dwtLevels f n x.rows x.cols x

/-- `n` more inverse levels, the working region doubled before each (rule R179). -/
def idwtLevels (f : NumFormat) : Nat → Nat → Nat → Arr → Arr
  | 0, _, _, z => z
  | n + 1, mr, mc, z =>
    idwtLevels f n (2 * mr) (2 * mc) (z.paste 0 0 (idwt f (z.sub 0 0 (2 * mr) (2 * mc)) kg1 kg2))

/-- The `n`-level inverse transform with the default synthesis pair (rule R179). -/
def nlevidwt (f : NumFormat) (y : Arr) (n : Nat) : Arr := idwtLevels f n (y.rows / 2 ^ n) (y.cols / 2 ^ n) y

/-- `NLEVDWT Ad, As, n` (rule R176). -/
def execNlevdwt (ad sa : RegIx) (n : Nat) (s : State) : Host.Outcome State Fault Refusal :=
  finish (.nlevdwt ad sa n) s do
    let x ← s.srcBuf sa
    raiseIf (notDyadic x n) .dim
    return s.setBuf ad (nlevdwt s.cfg.num x n)

/-- `NLEVIDWT Ad, As, n` (rule R179). -/
def execNlevidwt (ad sa : RegIx) (n : Nat) (s : State) : Host.Outcome State Fault Refusal :=
  finish (.nlevidwt ad sa n) s do
    let y ← s.srcBuf sa
    raiseIf (notDyadic y n) .dim
    return s.setBuf ad (nlevidwt s.cfg.num y n)

end Sys2Proof.Machine
end

