-- ==== Sys2Proof/Machine/Subband.lean ====
section
/-!
DEFINITION. The DWT Engine's subband quantisation and energy probe: `QUANTDWT`, `ENERGYZ` (rules R190 to R199).
-/

namespace Sys2Proof.Machine

/-- One band of `QUANTDWT`: the `m` by `n` region of `y` at `[r0][c0]` quantised with `step`, put into the
quantised array, and its bit cost put into the entropy table at `[o][l]` (rule R191). -/
def quantBand (f : NumFormat) (bin : BinRule) (y : Arr) (step : NUM) (o l r0 c0 m n : Nat) (acc : Arr × Arr) :
    Arr × Arr :=
  let q := (y.sub r0 c0 m n).quantise f step
  (acc.1.paste r0 c0 q, acc.2.setCell o l (f.times (q.bpp f bin) (NUM.ofRat ((m * n : Nat) : Rat))))

/-- The levels of `QUANTDWT` from level `l` on, `k` of them left, the working size `mr` by `mc`; after the last
one the final LL band with `T[0][l]` (rule R191). -/
def quantLevels (f : NumFormat) (bin : BinRule) (y t : Arr) : Nat → Nat → Nat → Nat → Arr × Arr → Arr × Arr
  | 0, l, mr, mc, acc => quantBand f bin y (t.get 0 l) 0 l 0 0 mr mc acc
  | k + 1, l, mr, mc, acc =>
    let hr := mr / 2
    let hc := mc / 2
    let lh := quantBand f bin y (t.get 0 l) 0 l 0 hc hr hc acc
    let hl := quantBand f bin y (t.get 1 l) 1 l hr 0 hr hc lh
    let hh := quantBand f bin y (t.get 2 l) 2 l hr hc hr hc hl
    quantLevels f bin y t k (l + 1) hr hc hh

/-- `quantdwt(Y, dwtstep)`: the quantised array and the entropy table (rules R191 to R193), `n = cols(T) - 1`. -/
def quantdwt (f : NumFormat) (bin : BinRule) (y t : Arr) : Arr × Arr :=
  quantLevels f bin y t (t.cols - 1) 0 y.rows y.cols (y, Arr.zeros 3 t.cols)

/-- `QUANTDWT Ad, Ae, As, At` (rule R191); equal destinations are `ILLEGAL` (rules R101, R254), which the decoder
already rejects. DEDUCED, log entry 8. -/
def execQuantdwt (ad ae sa ta : RegIx) (s : State) : Host.Outcome State Fault Refusal :=
  finish (.quantdwt ad ae sa ta) s do
    raiseIf (ad = ae) .illegal
    let y ← s.srcBuf sa
    let t ← s.srcBuf ta
    raiseIf (t.rows ≠ 3) .dim
    raiseIf (notDyadic y (t.cols - 1)) .dim
    let r := quantdwt s.cfg.num s.cfg.bin y t
    return (s.setBuf ad r.1).setBuf ae r.2

/-- The cell of the impulse, the centre of the addressed band (rule R197). -/
def impulsePosition (size n layer i : Nat) : Nat × Nat :=
  if layer < n then
    let m := size / 2 ^ (layer + 1)
    let h := m / 2
    if i = 0 then (h, m + h) else if i = 1 then (m + h, h) else (m + h, m + h)
  else
    let m := size / 2 ^ n
    let h := m / 2
    (h, h)

/-- The square array of side `size` with the impulse in one cell (rule R196). -/
def impulseArray (size : Nat) (pos : Nat × Nat) : Arr :=
  Arr.ofFn size size fun r c => if r = pos.1 ∧ c = pos.2 then NUM.ofRat impulse else NUM.zero

/-- `Σ_a Σ_b X[a][b]^2` in row-major order, cell `t` in row `t / cols` and column `t mod cols` (rule R196). -/
def sumOfSquares (f : NumFormat) (x : Arr) : NUM :=
  f.sum (x.rows * x.cols) fun t => f.times (x.get (t / x.cols) (t % x.cols)) (x.get (t / x.cols) (t % x.cols))

/-- `energy_Z(n, layer, i)` on the side `size` (rule R196). -/
def energyZ (f : NumFormat) (size n layer i : Nat) : NUM :=
  sumOfSquares f (nlevidwt f (impulseArray size (impulsePosition size n layer i)) n)

/-- `ENERGYZ Sd, n, layer, i` (rules R196, R198). -/
def execEnergyz (sd : RegIx) (n layer i : Nat) (s : State) : Host.Outcome State Fault Refusal :=
  finish (.energyz sd n layer i) s do
    raiseIf (layer > n) .domain
    raiseIf (i > 2) .domain
    raiseIf (layer = n ∧ i ≠ 0) .domain
    raiseIf (s.imgSize.toNat % 2 ^ n ≠ 0) .dim
    return s.setScal sd (energyZ s.cfg.num s.imgSize.toNat n layer i)

end Sys2Proof.Machine
end

