-- ==== Sys2Proof/Machine/System.lean ====
section
/-!
DEFINITION. The system commands `NOP` and `FREE` (rules R245 to R247).
-/

namespace Sys2Proof.Machine

/-- `NOP`: nothing but the end of a successful command (rule R246). -/
def execNop (s : State) : Host.Outcome State Fault Refusal := finish .nop s (.ok s)

/-- `FREE Ad`: `A[Ad].valid <- 0`, never an error (rule R247). -/
def execFree (ad : RegIx) (s : State) : Host.Outcome State Fault Refusal :=
  finish (.free ad) s (.ok (s.freeBuf ad))

end Sys2Proof.Machine
end

