-- ==== Sys2Proof/Machine/Dispatch.lean ====
section
/-!
DEFINITION. The dispatch of every command to its meaning, one arm per row of the opcode map (rule R97).
-/

namespace Sys2Proof.Machine

def exec (i : Instr) (s : State) : Host.Outcome State Fault Refusal :=
  match i with
  | .nop => Sys2Proof.Machine.execNop s
  | .free ad => Sys2Proof.Machine.execFree ad s
  | .mkdct2 ad n => Sys2Proof.Machine.execMkdct2 ad n s
  | .mkdct4 ad n => Sys2Proof.Machine.execMkdct4 ad n s
  | .colxfm ad sa ac => Sys2Proof.Machine.execColxfm ad sa ac s
  | .trn ad sa => Sys2Proof.Machine.execTrn ad sa s
  | .dct ad sa n => Sys2Proof.Machine.execDct ad sa n s
  | .idct ad sa n => Sys2Proof.Machine.execIdct ad sa n s
  | .regroup ad sa n1 n2 => Sys2Proof.Machine.execRegroup ad sa n1 n2 s
  | .dctbpp sd sa n => Sys2Proof.Machine.execDctbpp sd sa n s
  | .dwt ad sa k1 k2 => Sys2Proof.Machine.execDwt ad sa k1 k2 s
  | .idwt ad sa k1 k2 => Sys2Proof.Machine.execIdwt ad sa k1 k2 s
  | .nlevdwt ad sa n => Sys2Proof.Machine.execNlevdwt ad sa n s
  | .nlevidwt ad sa n => Sys2Proof.Machine.execNlevidwt ad sa n s
  | .quantdwt ad ae sa ta => Sys2Proof.Machine.execQuantdwt ad ae sa ta s
  | .energyz sd n layer i' => Sys2Proof.Machine.execEnergyz sd n layer i' s
  | .quantise ad sa ss => Sys2Proof.Machine.execQuantise ad sa ss s
  | .bpp sd sa => Sys2Proof.Machine.execBpp sd sa s
  | .rowdec ad sa k => Sys2Proof.Machine.execRowdec ad sa k s
  | .rowdec2 ad sa k => Sys2Proof.Machine.execRowdec2 ad sa k s
  | .rowint ad sa k => Sys2Proof.Machine.execRowint ad sa k s
  | .rowint2 ad sa k => Sys2Proof.Machine.execRowint2 ad sa k s

end Sys2Proof.Machine
end

