-- ==== Sys2Proof/Machine/HostPort.lean ====
section
/-!
DEFINITION. The host's accesses (rules R30 to R53, R60 to R68): register reads and writes, their byte-addressed
bus form, and the reset input (rule R280). A write to `CMD` decodes and executes a command (rule R34).
-/

namespace Sys2Proof.Machine

/-- The host registers by name (rule R30). -/
inductive HostReg where
  | id | cap | maxdim | cmd | status | sticky | errinfo | imgsize | bsel | bshape
  | bvalid | caddr | cdata | ksel | klen | kaddr | kdata | svalid | ssel | sdata
  | reserved
  deriving DecidableEq, Repr

/-- The register with a given number (rule R30); 20..31 are reserved (rule R53). -/
def hostReg (n : Fin 32) : HostReg :=
  match n.val with
  | 0 => .id
  | 1 => .cap
  | 2 => .maxdim
  | 3 => .cmd
  | 4 => .status
  | 5 => .sticky
  | 6 => .errinfo
  | 7 => .imgsize
  | 8 => .bsel
  | 9 => .bshape
  | 10 => .bvalid
  | 11 => .caddr
  | 12 => .cdata
  | 13 => .ksel
  | 14 => .klen
  | 15 => .kaddr
  | 16 => .kdata
  | 17 => .svalid
  | 18 => .ssel
  | 19 => .sdata
  | _ => .reserved

/-- The three data ports, one `NUM` wide (rule R30). -/
def HostReg.isNum : HostReg → Bool
  | .cdata => true
  | .kdata => true
  | .sdata => true
  | _ => false

/-- The word with bit `j` set for every valid entry (rules R41, R48). -/
def validMask {α : Type} (v : List (Option α)) : Nat :=
  match v with
  | [] => 0
  | o :: os => (if o.isSome then 1 else 0) + 2 * validMask os

/-- The view of `CAP` (rule R32). -/
def capWord (c : Config) : Word := BitVec.ofNat 32 (8 + 8 * 2 ^ 4 + 8 * 2 ^ 8 + c.maxTaps * 2 ^ 12)

/-- The view of `BSHAPE` (rule R40). -/
def State.bShapeWord (s : State) : Word :=
  match s.buf s.bSel with
  | none => 0#32
  | some x => BitVec.ofNat 32 (x.rows * 2 ^ 16 + x.cols)

/-- A 32-bit register's value (rules R31 to R42, R44 to R46, R48, R49); 0 for `CMD` (rule R34), for a reserved
register (rule R53) and for the data ports, which are read by `State.readNum`. -/
def State.readWord (s : State) (r : HostReg) : Word :=
  match r with
  | .id => idValue
  | .cap => capWord s.cfg
  | .maxdim => BitVec.ofNat 32 s.cfg.maxDim
  | .cmd => 0#32
  | .status => statusWord s.err
  | .sticky => s.sticky
  | .errinfo => s.errInfo
  | .imgsize => s.imgSize.zeroExtend 32
  | .bsel => BitVec.ofNat 32 s.bSel
  | .bshape => s.bShapeWord
  | .bvalid => BitVec.ofNat 32 (validMask s.bufs.toList)
  | .caddr => s.cAddr
  | .cdata => 0#32
  | .ksel => BitVec.ofNat 32 s.kSel
  | .klen => BitVec.ofNat 32 (s.kern s.kSel).length
  | .kaddr => s.kAddr
  | .kdata => 0#32
  | .svalid => BitVec.ofNat 32 (validMask s.scalars.toList)
  | .ssel => BitVec.ofNat 32 s.sSel
  | .sdata => 0#32
  | .reserved => 0#32

/-- The cell that `CDATA` addresses, if the access is proper: its buffer, row and column (rules R43, R61). -/
def State.portCell (s : State) : Option (Arr × Nat × Nat) :=
  match s.buf s.bSel with
  | none => none
  | some x =>
    if s.cAddr.toNat < x.rows * x.cols then some (x, s.cAddr.toNat / x.cols, s.cAddr.toNat % x.cols) else none

/-- The value read from a data port and the state after the read; an improper read returns the zero of `NUM` and
sets `STICKY.HOSTERR` (rules R43, R47, R50, R65, R66). -/
def State.readNum (s : State) (r : HostReg) : NUM × State :=
  match r with
  | .cdata =>
    match s.portCell with
    | some (x, i, j) => (x.get i j, { s with cAddr := s.cAddr + 1#32 })
    | none => (NUM.zero, s.hostErr)
  | .kdata =>
    if s.kAddr.toNat < (s.kern s.kSel).length then
      ((s.kern s.kSel).getD s.kAddr.toNat NUM.zero, { s with kAddr := s.kAddr + 1#32 })
    else (NUM.zero, s.hostErr)
  | .sdata =>
    match s.scal s.sSel with
    | some x => (x, s)
    | none => (NUM.zero, s.hostErr)
  | _ => (NUM.zero, s)

/-- `RegRead(n)`: the value and the state after it (rules R30, R53, R65). -/
def State.regRead (s : State) (n : Fin 32) : HostVal × State :=
  let r := hostReg n
  if r.isNum then (.num (s.readNum r).1, (s.readNum r).2)
  else if r = .reserved then (.word 0#32, s.hostErr)
  else (.word (s.readWord r), s)

/-- A write to `CMD`: the word is decoded and executed, or fails with `ILLEGAL` (rules R34, R105, R254). -/
def State.issue (s : State) (w : Word) : Host.Outcome State Fault Refusal :=
  match decode w with
  | .ok i => exec i s
  | .error _ => .next (s.takeError .illegal w)

/-- A write to `IMGSIZE` (rule R38); bits 31:16 of the written value play no part. DEDUCED, log entry 6. -/
def State.writeImgSize (s : State) (v : Word) : State :=
  let z := v.extractLsb' 0 16
  if 1 ≤ z.toNat ∧ z.toNat ≤ s.cfg.maxDim then { s with imgSize := z } else s.hostErr

/-- A write to `BSHAPE` (rule R40). -/
def State.writeBShape (s : State) (v : Word) : State :=
  let r := bits v 16 16
  let c := bits v 0 16
  if 1 ≤ r ∧ r ≤ s.cfg.maxDim ∧ 1 ≤ c ∧ c ≤ s.cfg.maxDim then
    { s.setBuf s.bSel (Arr.zeros r c) with cAddr := 0#32 }
  else s.hostErr

/-- A write to `KLEN` (rule R45). -/
def State.writeKLen (s : State) (v : Word) : State :=
  if 4 ≤ s.kSel.val ∧ v.toNat ≤ s.cfg.maxTaps then
    { s.setKern s.kSel (List.replicate v.toNat NUM.zero) with kAddr := 0#32 }
  else s.hostErr

/-- A write to a 32-bit register other than `CMD` (rules R36 to R46, R48, R49); one to a read-only or reserved
register is improper (rule R53). -/
def State.writeWord (s : State) (r : HostReg) (v : Word) : State :=
  match r with
  | .sticky => { s with sticky := clearSticky s.sticky v }
  | .imgsize => s.writeImgSize v
  | .bsel => { s with bSel := regField v 0 }
  | .bshape => s.writeBShape v
  | .caddr => { s with cAddr := v }
  | .ksel => { s with kSel := regField v 0 }
  | .klen => s.writeKLen v
  | .kaddr => { s with kAddr := v }
  | .ssel => { s with sSel := regField v 0 }
  | .id => s.hostErr
  | .cap => s.hostErr
  | .maxdim => s.hostErr
  | .status => s.hostErr
  | .errinfo => s.hostErr
  | .bvalid => s.hostErr
  | .svalid => s.hostErr
  | .reserved => s.hostErr
  | .cmd => s
  | .cdata => s
  | .kdata => s
  | .sdata => s

/-- A write to a data port (rules R43, R47, R50, R65, R66). -/
def State.writeNum (s : State) (r : HostReg) (v : NUM) : State :=
  match r with
  | .cdata =>
    match s.portCell with
    | some (x, i, j) => { s.setBuf s.bSel (x.setCell i j v) with cAddr := s.cAddr + 1#32 }
    | none => s.hostErr
  | .kdata =>
    if 4 ≤ s.kSel.val ∧ s.kAddr.toNat < (s.kern s.kSel).length then
      { s.setKern s.kSel ((s.kern s.kSel).set s.kAddr.toNat v) with kAddr := s.kAddr + 1#32 }
    else s.hostErr
  | .sdata => s.setScal s.sSel v
  | _ => s

/-- `RegWrite(n, v)` (rules R30, R34, R53, R65). A value of the wrong width is no access of this machine. -/
def State.regWrite (s : State) (n : Fin 32) (v : HostVal) : Host.Outcome State Fault Refusal :=
  let r := hostReg n
  match v with
  | .word w =>
    if r = .cmd then s.issue w
    else if r.isNum then .refused .wrongWidth
    else .next (s.writeWord r w)
  | .num x => if r.isNum then .next (s.writeNum r x) else .refused .wrongWidth

/-- The register of a bus access of `size` bytes at a byte offset: register `n` stands at offset `4 * n`, only
whole registers are accessed, and nothing is the core's beyond its 32 registers (rules R30, R60, R63). DESIGN
CHOICE of how each other access stops, log entry 7. -/
def busReg (offset size : Nat) : Except (Host.Outcome State Fault Refusal) (Fin 32) :=
  if h : offset / 4 < 32 then
    if offset % 4 ≠ 0 ∨ size ≠ 4 then .error (.refused .partialAccess)
    else if (hostReg ⟨offset / 4, h⟩).isNum then .error (.refused .numByteImage)
    else .ok ⟨offset / 4, h⟩
  else .error (.fault .outsideCore)

/-- A bus read: the register's bytes in the order of their offsets (rule R62). -/
def State.doBusRead (s : State) (offset size : Nat) : Host.Outcome State Fault Refusal :=
  match busReg offset size with
  | .error o => o
  | .ok n =>
    match s.regRead n with
    | (.word w, t) => .next { t with replies := .bytes (bytesOfWord w) :: t.replies }
    | (.num _, _) => .refused .numByteImage

/-- A bus write of bytes in the order of their offsets (rule R62). -/
def State.doBusWrite (s : State) (offset : Nat) (bs : List Byte) : Host.Outcome State Fault Refusal :=
  match busReg offset bs.length with
  | .error o => o
  | .ok n =>
    match wordOfBytes bs with
    | some w => s.regWrite n (.word w)
    | none => .refused .partialAccess

/-- The reset input: every piece of the core's state as after reset (rule R280). The parameters and the host's own
actions and replies are no state of the core and stay. DESIGN CHOICE, log entry 9. -/
def State.resetInput (s : State) : State :=
  { State.reset with cfg := s.cfg, pending := s.pending, replies := s.replies }

/-- One action of the outside world (rules R20, R30, R280). -/
def State.perform (s : State) (a : HostAction) : Host.Outcome State Fault Refusal :=
  match a with
  | .read n => .next { (s.regRead n).2 with replies := .val (s.regRead n).1 :: (s.regRead n).2.replies }
  | .write n v => s.regWrite n v
  | .busRead offset size => s.doBusRead offset size
  | .busWrite offset bs => s.doBusWrite offset bs
  | .reset => .next s.resetInput

/-- The number of register `CMD` (rule R30). -/
def cmdReg : Fin 32 := 3

/-- The write to `CMD` that issues a command word (rule R34). -/
def issueAction (w : Word) : HostAction := .write cmdReg (.word w)

/-- One step: the oldest pending host action is taken and performed; with none pending the core is idle and
nothing changes (rules R20, R27, R70, R288). DEDUCED, log entry 14. -/
def State.advance (s : State) : Host.Outcome State Fault Refusal :=
  match s.pending with
  | [] => .next s
  | a :: rest => ({ s with pending := rest } : State).perform a

end Sys2Proof.Machine
end

