-- ==== Sys2Proof/Machine/Step.lean ====
section
/-!
DEFINITION. One step of the machine and where a command is fetched from. The machine has no instruction memory:
the host delivers each command by value, by a write to `CMD` (rule R27), so the next instruction is the command
word of the oldest pending host action (log entry 4).
-/

namespace Sys2Proof.Machine

/-- One step (rules R20, R27, R34). -/
def step (s : State) : Host.Outcome State Fault Refusal := s.advance

/-- The state whose next step runs the command with table bits `w`: the host's write of that word to `CMD` comes
before whatever it was about to do. -/
def State.withFetchWord (s : State) (nbits w : Nat) : State :=
  { s with pending := issueAction (tableWord nbits w) :: s.pending }

end Sys2Proof.Machine
end

