-- ==== Sys2Proof/Machine/Ideal.lean ====
section
/-!
DEFINITION. The ideal results of rule R8: which real number a value of `NUM` is, and the real-number formulas of
the command rules. Nothing here takes part in a step; statements about values are made with it. `ρ` gives the real
numbers behind the host's named values (`NUM.real`), so a statement for every `ρ` is one for every real input. The formulas named `ideal…` are those of the reference `NUM`,
the reals; those named `format…` are the same in the operations of another format, of which nothing is known.
-/

namespace Sys2Proof

/-- The real number of a surd. -/
noncomputable def Surd.val (t : Surd) : ℝ :=
  (t.coef : ℝ) * Real.sqrt (t.rad : ℝ) * Real.cos (Real.pi * (t.ang : ℝ))

/-- The real number of a computed value. -/
noncomputable def Alg.val (a : Alg) : ℝ := (a.rat : ℝ) + (a.irr.map Surd.val).sum

/-- `quantise(x, step)` over the reals (rule R212). -/
noncomputable def idealQuantise (x step : ℝ) : ℝ :=
  if step ≤ 0 then x else SignType.sign x * (max 0 ⌈(|x| - step / 2) / step⌉ : ℤ) * step

/-- The reference `BIN(x) = floor(x + 1/2)` over the reals (rule R216). -/
noncomputable def idealBin (x : ℝ) : ℤ := ⌊x + 1 / 2⌋

/-- `- Σ_{b : count[b] > 0} (count[b]/T) * log2 (count[b]/T)` for the bins of the `T` cells (rule R216). -/
noncomputable def idealEntropy (bins : List ℤ) : ℝ :=
  -∑ b ∈ bins.toFinset,
    ((bins.count b : ℝ) / (bins.length : ℝ)) * Real.logb 2 ((bins.count b : ℝ) / (bins.length : ℝ))

/-! ### Formats other than the reals -/

/-- An operation of the `k`-th other format on two reals (rule R8). -/
noncomputable abbrev arith2 (k : Nat) (o : NumOp) (x y : ℝ) : ℝ := Config.arithOther k o [x, y]

/-- `t 0 + t 1 + ... + t (n-1)` in the `k`-th other format, in increasing index (rules R141, R234). -/
noncomputable def formatSum (k : Nat) : Nat → (Nat → ℝ) → ℝ
  | 0, _ => 0
  | 1, t => t 0
  | n + 2, t => arith2 k .add (formatSum k (n + 1) t) (t (n + 1))

/-- `quantise(x, step)` with the subtraction, divisions and `ceil` of the `k`-th other format and its multiplication by
`step` (rules R212, R213). The sign, the absolute value, the maximum and the product `sign(x) * q`, which only sets the
sign of `q`, are exact: DESIGN CHOICE, log entry 15. -/
noncomputable def formatQuantise (k : Nat) (x step : ℝ) : ℝ :=
  if step ≤ 0 then x
  else
    let level := Config.arithOther k .ceil
      [arith2 k .div (arith2 k .sub |x| (arith2 k .div step 2)) step]
    arith2 k .mul (SignType.sign x * max 0 level) step

/-- `- Σ_b (count[b]/T) * log2 (count[b]/T)` with the operations of the `k`-th other format, the terms added in
increasing `b` (rule R216). -/
noncomputable def formatEntropy (k : Nat) (bins : List ℤ) : ℝ :=
  let hist := histogram bins
  let share := fun i => arith2 k .div (hist.getD i (0, 0)).2 bins.length
  Config.arithOther k .neg
    [formatSum k hist.length fun i => arith2 k .mul (share i) (Config.arithOther k .log2 [share i])]

/-- `quantise` of a format over the reals. -/
noncomputable def NumFormat.quantiseVal (f : NumFormat) (x step : ℝ) : ℝ :=
  match f with
  | .reals => idealQuantise x step
  | .other k => formatQuantise k x step

/-- The entropy of a list of bins in a format. -/
noncomputable def NumFormat.entropyVal (f : NumFormat) (bins : List ℤ) : ℝ :=
  match f with
  | .reals => idealEntropy bins
  | .other k => formatEntropy k bins

/-- The bin of a real number (rules R7, R216); the reference binning in another format adds with that format's
addition (rule R219). -/
noncomputable def BinRule.binVal (bin : BinRule) (f : NumFormat) (x : ℝ) : ℤ :=
  match bin, f with
  | .reference, .reals => idealBin x
  | .reference, .other k => ⌊arith2 k .add x (1 / 2)⌋
  | .other k, _ => Config.binOther k x

mutual

/-- The real number that a value of `NUM` is (rules R8, R15). -/
noncomputable def NUM.val (ρ : Nat → ℝ) : NUM → ℝ
  | .alg a => a.val
  | .real k => ρ k
  | .add x y => x.val ρ + y.val ρ
  | .mul x y => x.val ρ * y.val ρ
  | .log2 q => Real.logb 2 (q : ℝ)
  | .quant f x step => f.quantiseVal (x.val ρ) (step.val ρ)
  | .bpp f bin cells => f.entropyVal ((cells.vals ρ).map (bin.binVal f))
  | .op k o args => Config.arithOther k o (args.vals ρ)

/-- The real numbers of a list of values. -/
noncomputable def NUMList.vals (ρ : Nat → ℝ) : NUMList → List ℝ
  | .nil => []
  | .cons x xs => x.val ρ :: xs.vals ρ

end

/-- The real number in a cell. -/
noncomputable def Arr.val (ρ : Nat → ℝ) (x : Arr) (r c : Nat) : ℝ := (x.get r c).val ρ

/-- The DCT-II matrix entry of rule R131 over the reals. -/
noncomputable def idealDct2 (n i k : Nat) : ℝ :=
  if i = 0 then 1 / Real.sqrt n
  else Real.sqrt (2 / n) * Real.cos (((k : ℝ) + 0.5) * Real.pi * i / n)

/-- The DCT-IV matrix entry of rule R132 over the reals. -/
noncomputable def idealDct4 (n i k : Nat) : ℝ :=
  Real.sqrt (2 / n) * Real.cos (((k : ℝ) + 0.5) * Real.pi * ((i : ℝ) + 0.5) / n)

/-- `Σ_i h[i] * x[refl_c(t + m2 - i)]` over the reals (rules R172, R229 to R232). -/
noncomputable def idealFilter (ρ : Nat → ℝ) (h : List NUM) (c : Nat) (x : Nat → ℝ) (t : Nat) : ℝ :=
  ∑ i ∈ Finset.range h.length,
    (h.getD i NUM.zero).val ρ * x (Machine.refl c ((t : Int) + ((h.length - 1) / 2 : Nat) - (i : Int)))

/-- The decimating low-pass operator `L(x)[t]` of rule R172: the even-phase samples (rule R229). -/
noncomputable def idealLow (ρ : Nat → ℝ) (h : List NUM) (c : Nat) (x : Nat → ℝ) (t : Nat) : ℝ :=
  idealFilter ρ h c x (2 * t)

/-- The decimating high-pass operator `H(x)[t]` of rule R172: the odd-phase samples (rule R230). -/
noncomputable def idealHigh (ρ : Nat → ℝ) (h : List NUM) (c : Nat) (x : Nat → ℝ) (t : Nat) : ℝ :=
  idealFilter ρ h c x (2 * t + 1)

/-- `rowint` of one row of `c` samples: zeros between the samples, on the odd positions, then the filter on `2c`
samples (rule R231). -/
noncomputable def idealInt (ρ : Nat → ℝ) (g : List NUM) (c : Nat) (x : Nat → ℝ) (t : Nat) : ℝ :=
  idealFilter ρ g (2 * c) (fun u => if u % 2 = 0 then x (u / 2) else 0) t

/-- `rowint2` of one row of `c` samples: zeros on the even positions (rule R232). -/
noncomputable def idealInt2 (ρ : Nat → ℝ) (g : List NUM) (c : Nat) (x : Nat → ℝ) (t : Nat) : ℝ :=
  idealFilter ρ g (2 * c) (fun u => if u % 2 = 0 then 0 else x (u / 2)) t

/-- One level of the forward transform on `m` rows and `n` columns over the reals: along every row, then along every
column; the low band in the first half, the high band in the second (rules R170 to R172). -/
noncomputable def idealDwt (ρ : Nat → ℝ) (h1 h2 : List NUM) (m n : Nat) (x : Nat → Nat → ℝ) (r c : Nat) : ℝ :=
  let across := fun r' =>
    if c < n / 2 then idealLow ρ h1 n (x r') c else idealHigh ρ h2 n (x r') (c - n / 2)
  if r < m / 2 then idealLow ρ h1 m across r else idealHigh ρ h2 m across (r - m / 2)

/-- One level of the inverse transform on `m` rows and `n` columns over the reals: the vertical stage undone first,
then the horizontal one (rule R173). -/
noncomputable def idealIdwt (ρ : Nat → ℝ) (g1 g2 : List NUM) (m n : Nat) (y : Nat → Nat → ℝ) (r c : Nat) : ℝ :=
  let down := fun c' =>
    idealInt ρ g1 (m / 2) (fun r' => y r' c') r + idealInt2 ρ g2 (m / 2) (fun r' => y (m / 2 + r') c') r
  idealInt ρ g1 (n / 2) down c + idealInt2 ρ g2 (n / 2) (fun c' => down (n / 2 + c')) c

/-- The levels of rule R176 over the reals: each transforms the top-left `m` rows and `n` columns, leaves every other
cell, and halves the working size. -/
noncomputable def idealDwtLevels (ρ : Nat → ℝ) : Nat → Nat → Nat → (Nat → Nat → ℝ) → Nat → Nat → ℝ
  | 0, _, _, z => z
  | l + 1, m, n, z => idealDwtLevels ρ l (m / 2) (n / 2) fun r c =>
      if r < m ∧ c < n then idealDwt ρ Machine.kh1 Machine.kh2 m n z r c else z r c

/-- The levels of rule R179 over the reals: each doubles the working size and inverts the top-left region. -/
noncomputable def idealIdwtLevels (ρ : Nat → ℝ) : Nat → Nat → Nat → (Nat → Nat → ℝ) → Nat → Nat → ℝ
  | 0, _, _, z => z
  | l + 1, m, n, z => idealIdwtLevels ρ l (2 * m) (2 * n) fun r c =>
      if r < 2 * m ∧ c < 2 * n then idealIdwt ρ Machine.kg1 Machine.kg2 (2 * m) (2 * n) z r c else z r c

/-- The cells of the region of `m` rows and `n` columns at `[r0][c0]`, in row-major order (rules R13, R61). -/
def regionCells (x : Arr) (r0 c0 m n : Nat) : List NUM :=
  (List.range m).flatMap fun r => (List.range n).map fun c => x.get (r0 + r) (c0 + c)

/-- The bin of a cell over the reals: a function of its real number alone (rules R7, R216). -/
noncomputable def idealBinOf (ρ : Nat → ℝ) (bin : BinRule) (x : NUM) : ℤ := bin.binVal .reals (x.val ρ)

/-- `bpp` of a list of cells over the reals (rule R216). -/
noncomputable def idealBpp (ρ : Nat → ℝ) (bin : BinRule) (cells : List NUM) : ℝ :=
  idealEntropy (cells.map (idealBinOf ρ bin))

/-! ### The tolerance -/

/-- `a ≈ b` (rules R7, R8): equality over the reals, and within EPS in any other format. That EPS bounds the absolute
difference of two real numbers, cell by cell, is the model's reading: DESIGN CHOICE, log entry 16. -/
def Config.near (c : Config) (a b : ℝ) : Prop := if c.num = .reals then a = b else |a - b| ≤ (c.eps : ℝ)

/-- The source's testable properties that involve arithmetic (95_test_vectors.md section 1: P1 with rule R133, P2, P3,
P7, P8), within EPS: all that may be assumed of a format other than the reals (rule R8). P4, P5 and P9 hold in every
format and P6 must not be assumed (rule R218). The spec does not say in which arithmetic the product `C * C^T` of P1
is formed; here its products and sums are exact, of the entries' real numbers: DESIGN CHOICE, log entry 16. -/
structure Config.Tolerable (c : Config) : Prop where
  /-- P1, for both matrices (rule R133), the product over the reals (log entry 16) -/
  orthogonal : ∀ (ρ : Nat → ℝ) (n a b : Nat), 1 ≤ n → a < n → b < n →
    ∀ m ∈ [Machine.dct2Matrix c.num n, Machine.dct4Matrix c.num n],
      c.near (∑ k ∈ Finset.range n, m.val ρ a k * m.val ρ b k) (if a = b then 1 else 0)
  /-- P2 (rule R154) -/
  blockRoundTrip : ∀ (ρ : Nat → ℝ) (x : Arr) (n r k : Nat), n ≠ 0 → x.rows % n = 0 → x.cols % n = 0 →
    r < x.rows → k < x.cols → c.near ((Machine.idct c.num (Machine.dct c.num x n) n).val ρ r k) (x.val ρ r k)
  /-- P3, one level (rule R174) -/
  dwtRoundTrip : ∀ (ρ : Nat → ℝ) (x : Arr) (r k : Nat), x.rows % 2 = 0 → x.cols % 2 = 0 →
    r < x.rows → k < x.cols →
      c.near ((Machine.idwt c.num (Machine.dwt c.num x Machine.kh1 Machine.kh2) Machine.kg1 Machine.kg2).val ρ r k)
        (x.val ρ r k)
  /-- P3, every depth at size 256 (rule R180) -/
  levelsRoundTrip : ∀ (ρ : Nat → ℝ) (x : Arr) (n r k : Nat), x.rows = 256 → x.cols = 256 → 256 % 2 ^ n = 0 →
    r < 256 → k < 256 →
      c.near ((Machine.nlevidwt c.num (Machine.nlevdwt c.num x n) n).val ρ r k) (x.val ρ r k)
  /-- P7 -/
  zeroCost : ∀ ρ : Nat → ℝ,
    (∀ r k, r < 256 → k < 256 → (Machine.dct c.num (Arr.zeros 256 256) 8).val ρ r k = 0) ∧
    (Machine.dctBitCost c.num c.bin (Machine.regroup (Arr.zeros 256 256) 8 8) 8).val ρ = 0
  /-- P8 (rule R175) -/
  constantDetail : ∀ (ρ : Nat → ℝ) (x : Arr) (v : ℝ), x.rows = 256 → x.cols = 256 →
    (∀ r k, r < 256 → k < 256 → x.val ρ r k = v) →
      ∀ r k, r < 256 → k < 256 → 128 ≤ r ∨ 128 ≤ k →
        c.near ((Machine.dwt c.num x Machine.kh1 Machine.kh2).val ρ r k) 0

end Sys2Proof
end

