-- ==== Sys2Proof/Safety.lean ====
section
/-!
DEFINITION. What the machine keeps true of its state, what a command leaves unchanged, what it depends on, and what
makes it fail (rules R10, R22, R24, R25, R35 to R38, R252 to R257, R260, R261), in the terms statements use.
-/

namespace Sys2Proof.Machine

/-! ### The invariant -/

/-- The buffers hold arrays of a legal shape with all their cells (rule R22). -/
def State.bufsOk (s : State) : Bool :=
  s.bufs.toList.all fun o =>
    match o with
    | none => true
    | some x => x.wf s.cfg.maxDim

/-- The writable kernel registers hold at most MAXTAPS taps (rule R25). -/
def State.kernelsOk (s : State) : Bool := s.kernels.toList.all fun h => decide (h.length ≤ s.cfg.maxTaps)

/-- `IMGSIZE` holds a legal value, 1..MAXDIM (rule R38). -/
def State.imgSizeOk (s : State) : Bool := decide (1 ≤ s.imgSize.toNat) && decide (s.imgSize.toNat ≤ s.cfg.maxDim)

/-- Bits 0 and 31:8 of `STICKY` are 0 (rule R36). -/
def State.stickyOk (s : State) : Bool := decide (s.sticky &&& 0xFFFFFF01#32 = 0#32)

/-- The invariant of the machine. -/
def State.inv (s : State) : Bool := s.cfg.wf && s.bufsOk && s.kernelsOk && s.imgSizeOk && s.stickyOk

/-! ### Operands and frames -/

/-- The destination buffers of a command (rule R97). -/
def dstBufs : Instr → List RegIx
  | .free ad => [ad]
  | .mkdct2 ad _ => [ad]
  | .mkdct4 ad _ => [ad]
  | .colxfm ad _ _ => [ad]
  | .trn ad _ => [ad]
  | .dct ad _ _ => [ad]
  | .idct ad _ _ => [ad]
  | .regroup ad _ _ _ => [ad]
  | .dwt ad _ _ _ => [ad]
  | .idwt ad _ _ _ => [ad]
  | .nlevdwt ad _ _ => [ad]
  | .nlevidwt ad _ _ => [ad]
  | .quantdwt ad ae _ _ => [ad, ae]
  | .quantise ad _ _ => [ad]
  | .rowdec ad _ _ => [ad]
  | .rowdec2 ad _ _ => [ad]
  | .rowint ad _ _ => [ad]
  | .rowint2 ad _ _ => [ad]
  | .nop => []
  | .dctbpp _ _ _ => []
  | .energyz _ _ _ _ => []
  | .bpp _ _ => []

/-- The destination scalar registers of a command (rule R97). -/
def dstScals : Instr → List RegIx
  | .dctbpp sd _ _ => [sd]
  | .energyz sd _ _ _ => [sd]
  | .bpp sd _ => [sd]
  | _ => []

/-- The source buffers of a command (rule R97). -/
def srcBufs : Instr → List RegIx
  | .colxfm _ sa ac => [sa, ac]
  | .trn _ sa => [sa]
  | .dct _ sa _ => [sa]
  | .idct _ sa _ => [sa]
  | .regroup _ sa _ _ => [sa]
  | .dctbpp _ sa _ => [sa]
  | .dwt _ sa _ _ => [sa]
  | .idwt _ sa _ _ => [sa]
  | .nlevdwt _ sa _ => [sa]
  | .nlevidwt _ sa _ => [sa]
  | .quantdwt _ _ sa ta => [sa, ta]
  | .quantise _ sa _ => [sa]
  | .bpp _ sa => [sa]
  | .rowdec _ sa _ => [sa]
  | .rowdec2 _ sa _ => [sa]
  | .rowint _ sa _ => [sa]
  | .rowint2 _ sa _ => [sa]
  | .nop => []
  | .free _ => []
  | .mkdct2 _ _ => []
  | .mkdct4 _ _ => []
  | .energyz _ _ _ _ => []

/-- The source scalar registers of a command: `QUANTISE` only (rule R255). -/
def srcScals : Instr → List RegIx
  | .quantise _ _ ss => [ss]
  | _ => []

/-- The kernel registers a command names (rule R255). -/
def srcKerns : Instr → List RegIx
  | .dwt _ _ k1 k2 => [k1, k2]
  | .idwt _ _ k1 k2 => [k1, k2]
  | .rowdec _ _ k => [k]
  | .rowdec2 _ _ k => [k]
  | .rowint _ _ k => [k]
  | .rowint2 _ _ k => [k]
  | _ => []

/-- From `s` to `t` nothing changed but buffers in `bs`, scalar registers in `js` and `STATUS.ERR`: every other
buffer and scalar register, every kernel register, `STICKY`, `ERRINFO`, `IMGSIZE`, every selector and address
register, and everything that is not the core's. -/
structure Frame (bs js : List RegIx) (s t : State) : Prop where
  bufs : ∀ b, b ∉ bs → t.buf b = s.buf b
  scalars : ∀ j, j ∉ js → t.scal j = s.scal j
  kernels : t.kernels = s.kernels
  sticky : t.sticky = s.sticky
  errInfo : t.errInfo = s.errInfo
  imgSize : t.imgSize = s.imgSize
  bSel : t.bSel = s.bSel
  cAddr : t.cAddr = s.cAddr
  kSel : t.kSel = s.kSel
  kAddr : t.kAddr = s.kAddr
  sSel : t.sSel = s.sSel
  cfg : t.cfg = s.cfg
  pending : t.pending = s.pending
  replies : t.replies = s.replies

/-- The command ended with success (rule R263) and wrote at most the buffers in `bs` and the scalars in `js`. -/
def Done (bs js : List RegIx) (s t : State) : Prop := t.err = .ok ∧ Frame bs js s t

/-- The command with word `cmd` ended with error `e`, recorded as rule R258 says, and changed nothing else
(rule R261). -/
structure Failed (e : ErrCode) (cmd : Word) (s t : State) : Prop where
  err : t.err = e
  sticky : t.sticky = s.sticky ||| 1#32 <<< e.code
  errInfo : t.errInfo = cmd
  bufs : t.bufs = s.bufs
  scalars : t.scalars = s.scalars
  kernels : t.kernels = s.kernels
  imgSize : t.imgSize = s.imgSize
  bSel : t.bSel = s.bSel
  cAddr : t.cAddr = s.cAddr
  kSel : t.kSel = s.kSel
  kAddr : t.kAddr = s.kAddr
  sSel : t.sSel = s.sSel
  cfg : t.cfg = s.cfg
  pending : t.pending = s.pending
  replies : t.replies = s.replies

/-- A host access that changed nothing but `STICKY.HOSTERR`, which is set (rules R66, R266). -/
structure Improper (s t : State) : Prop where
  sticky : t.sticky = s.sticky ||| 0x80#32
  rest : { t with sticky := s.sticky } = s

/-- Two states agree on everything a command's result may depend on (rule R10): the buffers, scalar registers and
kernel registers it names, for `ENERGYZ` `IMGSIZE`, and the parameters of the machine. -/
def agreeOn (i : Instr) (s t : State) : Prop :=
  (∀ b ∈ srcBufs i, s.buf b = t.buf b) ∧ (∀ j ∈ srcScals i, s.scal j = t.scal j) ∧
    (∀ j ∈ srcKerns i, s.kern j = t.kern j) ∧ (i.opcode = .energyz → s.imgSize = t.imgSize) ∧ s.cfg = t.cfg

/-! ### The causes of errors -/

/-- The `EMPTY` causes (rule R255). -/
def emptyCause (i : Instr) (s : State) : Prop :=
  (∃ b ∈ srcBufs i, s.buf b = none) ∨ (∃ j ∈ srcScals i, s.scal j = none) ∨ (∃ j ∈ srcKerns i, s.kern j = [])

/-- The `KERNEL` causes (rule R257). -/
def kernelCause (i : Instr) (s : State) : Prop :=
  ∃ j ∈ srcKerns i, s.kern j ≠ [] ∧ (s.kern j).length % 2 = 0

/-- The `DOMAIN` causes, the table of rule R253. -/
def domainCause : Instr → Prop
  | .mkdct2 _ n => n = 0
  | .mkdct4 _ n => n = 0
  | .dct _ _ n => n = 0
  | .idct _ _ n => n = 0
  | .regroup _ _ n1 n2 => n1 = 0 ∨ n2 = 0
  | .dctbpp _ _ n => n = 0
  | .energyz _ n layer i => layer > n ∨ i > 2 ∨ (layer = n ∧ i ≠ 0)
  | _ => False

/-- The `DIM` causes, the table of rule R252. -/
def dimCause (i : Instr) (s : State) : Prop :=
  match i with
  | .colxfm _ sa ac =>
    ∃ x c, s.buf sa = some x ∧ s.buf ac = some c ∧ (c.cols ≠ c.rows ∨ x.rows % c.rows ≠ 0)
  | .dct _ sa n => ∃ x, s.buf sa = some x ∧ (x.rows % n ≠ 0 ∨ x.cols % n ≠ 0)
  | .idct _ sa n => ∃ x, s.buf sa = some x ∧ (x.rows % n ≠ 0 ∨ x.cols % n ≠ 0)
  | .regroup _ sa n1 n2 => ∃ x, s.buf sa = some x ∧ (x.rows % n1 ≠ 0 ∨ x.cols % n2 ≠ 0)
  | .dctbpp _ sa n => ∃ x, s.buf sa = some x ∧ (x.rows % n ≠ 0 ∨ x.cols % n ≠ 0)
  | .dwt _ sa _ _ => ∃ x, s.buf sa = some x ∧ (x.rows % 2 = 1 ∨ x.cols % 2 = 1)
  | .idwt _ sa _ _ => ∃ x, s.buf sa = some x ∧ (x.rows % 2 = 1 ∨ x.cols % 2 = 1)
  | .nlevdwt _ sa n => ∃ x, s.buf sa = some x ∧ (x.rows % 2 ^ n ≠ 0 ∨ x.cols % 2 ^ n ≠ 0)
  | .nlevidwt _ sa n => ∃ x, s.buf sa = some x ∧ (x.rows % 2 ^ n ≠ 0 ∨ x.cols % 2 ^ n ≠ 0)
  | .quantdwt _ _ sa ta =>
    ∃ y t, s.buf sa = some y ∧ s.buf ta = some t ∧
      (t.rows ≠ 3 ∨ y.rows % 2 ^ (t.cols - 1) ≠ 0 ∨ y.cols % 2 ^ (t.cols - 1) ≠ 0)
  | .energyz _ n _ _ => s.imgSize.toNat % 2 ^ n ≠ 0
  | .rowdec _ sa _ => ∃ x, s.buf sa = some x ∧ x.cols % 2 = 1
  | .rowdec2 _ sa _ => ∃ x, s.buf sa = some x ∧ x.cols % 2 = 1
  | _ => False

/-- The `CAPACITY` causes (rule R256). -/
def capacityCause (i : Instr) (s : State) : Prop :=
  match i with
  | .mkdct2 _ n => n > s.cfg.maxDim
  | .mkdct4 _ n => n > s.cfg.maxDim
  | .rowint _ sa _ => ∃ x, s.buf sa = some x ∧ 2 * x.cols > s.cfg.maxDim
  | .rowint2 _ sa _ => ∃ x, s.buf sa = some x ∧ 2 * x.cols > s.cfg.maxDim
  | _ => False

/-- The error a legal command ends with in a state, the first cause in the order of rule R260 (`ILLEGAL`, decided
by the decoder, stands before all of them). -/
def FirstError (i : Instr) (s : State) (e : ErrCode) : Prop :=
  (emptyCause i s ∧ e = .empty) ∨
  (¬emptyCause i s ∧ kernelCause i s ∧ e = .kernel) ∨
  (¬emptyCause i s ∧ ¬kernelCause i s ∧ domainCause i ∧ e = .domain) ∨
  (¬emptyCause i s ∧ ¬kernelCause i s ∧ ¬domainCause i ∧ dimCause i s ∧ e = .dim) ∨
  (¬emptyCause i s ∧ ¬kernelCause i s ∧ ¬domainCause i ∧ ¬dimCause i s ∧ capacityCause i s ∧ e = .capacity)

/-- No cause of an error holds: the command succeeds (rule R263). -/
def NoError (i : Instr) (s : State) : Prop :=
  ¬emptyCause i s ∧ ¬kernelCause i s ∧ ¬domainCause i ∧ ¬dimCause i s ∧ ¬capacityCause i s

/-- The words that carry a command: a word under this mask that shows this pattern decodes to the command its fields
build (rule R97). -/
def EncodedAs (mask pattern : Word) (build : Word → Instr) : Prop :=
  ∀ w : Word, w &&& mask = pattern → decode w = .ok (build w)

/-- A command with a cause of an error ends with the first one, its word `w` in `ERRINFO` and nothing else changed
(rules R258, R260, R261). -/
def FailsFirst (i : Instr) (s : State) : Prop :=
  ∀ w e, decode w = .ok i → FirstError i s e → ∃ t, exec i s = .next t ∧ Failed e w s t

end Sys2Proof.Machine
end

