-- ==== Sys2Proof/Certificates/Slice0/Obligations.lean ====
section
/-!
DEFINITION. The statements for the provers. `ρ` gives the real numbers behind the host's named values, so a claim
for every `ρ` is one for every real input (log 2); every statement holds for every value of the open parameters in
`s.cfg` (log 3). The real number of a result is stated where the number format is the reference one,
`s.cfg.num = .reals`; what is not about that number holds for every format (rules R8, R9).
-/

section

open Sys2Proof Sys2Proof.Machine

/-! ### The machine -/

/-- R52, R281: every piece of state after reset, the constants included. -/
def Obligations.ResetLeavesTheListedValues : Prop :=
  (∀ b : RegIx, State.reset.buf b = none) ∧ (∀ j : RegIx, State.reset.scal j = none) ∧
  (∀ j : RegIx, 4 ≤ j.val → State.reset.kern j = []) ∧
  (∀ ρ : Nat → ℝ,
    (State.reset.kern 0).map (NUM.val ρ) = [-1/8, 2/8, 6/8, 2/8, -1/8] ∧
    (State.reset.kern 1).map (NUM.val ρ) = [-1/4, 2/4, -1/4] ∧
    (State.reset.kern 2).map (NUM.val ρ) = [1/2, 2/2, 1/2] ∧
    (State.reset.kern 3).map (NUM.val ρ) = [-1/4, -2/4, 6/4, -2/4, -1/4]) ∧
  State.reset.regRead 4 = (.word 0#32, State.reset) ∧ State.reset.regRead 5 = (.word 0#32, State.reset) ∧
  State.reset.regRead 6 = (.word 0#32, State.reset) ∧ State.reset.regRead 7 = (.word 256#32, State.reset) ∧
  State.reset.regRead 8 = (.word 0#32, State.reset) ∧ State.reset.regRead 11 = (.word 0#32, State.reset) ∧
  State.reset.regRead 13 = (.word 0#32, State.reset) ∧ State.reset.regRead 15 = (.word 0#32, State.reset) ∧
  State.reset.regRead 18 = (.word 0#32, State.reset) ∧
  State.reset.regRead 0 = (.word 0x49504331#32, State.reset) ∧
  State.reset.regRead 1 =
    (.word (BitVec.ofNat 32 (8 + 8 * 2 ^ 4 + 8 * 2 ^ 8 + State.reset.cfg.maxTaps * 2 ^ 12)), State.reset) ∧
  State.reset.regRead 2 = (.word (BitVec.ofNat 32 State.reset.cfg.maxDim), State.reset)

/-- R20, R27, R34, R105: a step whose pending action is a write of a command word to `CMD`, by number or over the
bus, runs exactly the command the word decodes to, or takes `ILLEGAL`; a read of `CMD` is 0 and changes nothing;
with nothing pending a step changes nothing. The pending list is the model's own (log 4). -/
def Obligations.StepRunsTheIssuedCommand : Prop :=
  (∀ (s : State) (w : Word) (rest : List HostAction),
    (s.pending = .write 3 (.word w) :: rest ∨
      s.pending = .busWrite 12
        [w.extractLsb' 0 8, w.extractLsb' 8 8, w.extractLsb' 16 8, w.extractLsb' 24 8] :: rest) →
    (∀ i, decode w = .ok i → step s = exec i { s with pending := rest }) ∧
    (∀ r, decode w = .error r → ∃ t, step s = .next t ∧ Failed .illegal w { s with pending := rest } t)) ∧
  (∀ (s : State) (w : Word) (i : Instr), decode w = .ok i → step (s.withFetchWord 32 w.toNat) = exec i s) ∧
  (∀ s : State, s.regRead 3 = (.word 0#32, s)) ∧
  (∀ s : State, s.pending = [] → step s = .next s)

/-- R10: a command's outcome depends only on the operands it names, for `ENERGYZ` on `IMGSIZE`, and on the parameters
of the machine. -/
def Obligations.CommandsArePureFunctions : Prop :=
  ∀ (i : Instr) (s s' t t' : State), agreeOn i s s' → exec i s = .next t → exec i s' = .next t' →
    t.err = t'.err ∧
    (t.err = .ok →
      (∀ b ∈ dstBufs i, t.buf b = t'.buf b) ∧ (∀ j ∈ dstScals i, t.scal j = t'.scal j))

/-- R261, R263, R288: every command answers a next state; it either succeeded and changed at most its destinations
and `STATUS.ERR`, or failed and changed only the three registers that record an error. The word recorded is
`encode i` (log 5). -/
def Obligations.CommandsSucceedOrFailPrecisely : Prop :=
  ∀ (i : Instr) (s : State), ∃ t, exec i s = .next t ∧
    (Done (dstBufs i) (dstScals i) s t ∨ ∃ e : ErrCode, e ≠ .ok ∧ Failed e (encode i) s t)

/-- R252, R253, R255, R256, R257, R258, R260, R261, R263: a word that is no legal command ends with `ILLEGAL`; a
legal command without a cause of an error succeeds, and one with a cause ends with the first in the order `EMPTY`,
`KERNEL`, `DOMAIN`, `DIM`, `CAPACITY`. -/
def Obligations.FirstCauseDecidesTheError : Prop :=
  (∀ (w : Word) (r : Rejection) (s : State), decode w = .error r →
    ∃ t, s.regWrite 3 (.word w) = .next t ∧ Failed .illegal w s t) ∧
  ∀ (w : Word) (i : Instr) (s : State), decode w = .ok i → s.regWrite 3 (.word w) = exec i s ∧
    (NoError i s → ∃ t, exec i s = .next t ∧ Done (dstBufs i) (dstScals i) s t) ∧
    (∀ e, FirstError i s e → ∃ t, exec i s = .next t ∧ Failed e w s t)

/-- R22, R25, R36, R38: the invariant holds after reset (with the parameters of log 3). -/
def Obligations.ResetMeetsTheInvariant : Prop := State.reset.inv = true

/-- R22, R25, R36, R38: every step keeps the invariant: buffers of a legal shape with all their cells, kernels of at
most MAXTAPS taps, a legal `IMGSIZE`, and the bits of `STICKY` that are always 0. -/
def Obligations.EveryStepKeepsTheInvariant : Prop :=
  ∀ s t : State, s.inv = true → step s = .next t → t.inv = true

/-- R20, R7, R30: a step takes the oldest host action and no other; a pending read is `RegRead`, with its value at
the head of the replies, and a pending write is `RegWrite`; no step changes the parameters. The model's own fields
(log 3, log 4). -/
def Obligations.StepsTakeOneHostAction : Prop :=
  (∀ (s : State) (n : Fin 32) (rest : List HostAction), s.pending = .read n :: rest →
    step s = .next { (({ s with pending := rest } : State).regRead n).2 with
      replies := .val (({ s with pending := rest } : State).regRead n).1 :: s.replies }) ∧
  (∀ (s : State) (n : Fin 32) (v : HostVal) (rest : List HostAction), s.pending = .write n v :: rest →
    step s = ({ s with pending := rest } : State).regWrite n v) ∧
  (∀ (s : State) (a : HostAction) (rest : List HostAction), s.pending = a :: rest →
    step s = ({ s with pending := rest } : State).perform a) ∧
  ∀ (s t : State) (a : HostAction) (rest : List HostAction), s.pending = a :: rest → step s = .next t →
    t.pending = rest ∧ t.cfg = s.cfg ∧ (t.replies = s.replies ∨ ∃ r, t.replies = r :: s.replies)

/-- R288: nothing stops the machine: every command, every command word, every read of a register, every write of a
value of the register's width, and reset answer a next state. -/
def Obligations.NothingHaltsTheMachine : Prop :=
  ∀ s : State,
    (∀ i : Instr, ∃ t, exec i s = .next t) ∧
    (∀ w : Word, ∃ t, s.regWrite 3 (.word w) = .next t) ∧
    (∀ n : Fin 32, ∃ t, s.perform (.read n) = .next t) ∧
    (∀ (n : Fin 32) (w : Word), n ≠ 12 → n ≠ 16 → n ≠ 19 → ∃ t, s.perform (.write n (.word w)) = .next t) ∧
    (∀ (n : Fin 32) (x : NUM), n = 12 ∨ n = 16 ∨ n = 19 → ∃ t, s.perform (.write n (.num x)) = .next t) ∧
    (∃ t, s.perform .reset = .next t)

/-- R280: the reset input gives every piece of the core's state the value after reset; the model's own fields stay
(log 3, log 4). -/
def Obligations.ResetInputRestoresTheResetValues : Prop :=
  ∀ s : State, ∃ t, s.perform .reset = .next t ∧
    t.bufs = State.reset.bufs ∧ t.scalars = State.reset.scalars ∧ t.kernels = State.reset.kernels ∧
    t.err = .ok ∧ t.sticky = 0#32 ∧ t.errInfo = 0#32 ∧ t.imgSize = 256#16 ∧ t.bSel = 0 ∧ t.cAddr = 0#32 ∧
    t.kSel = 0 ∧ t.kAddr = 0#32 ∧ t.sSel = 0 ∧ t.cfg = s.cfg ∧ t.pending = s.pending ∧ t.replies = s.replies

/-! ### Decoding -/

/-- R97, R98, R105: a word is a command exactly when it matches that command's row of the opcode map, with the
operands in the row's bits; `QUANTDWT` with equal destinations is none (R101). -/
def Obligations.DecoderIsTheOpcodeMap : Prop :=
  ∀ (w : Word) (i : Instr), decode w = .ok i ↔
    ((∃ row ∈ ([
        (0xFFFFFFFF#32, 0x00000000#32, .nop),
        (0xFC7FFFFF#32, 0x04000000#32, .free (regField w 23)),
        (0xFC7003FF#32, 0x08000000#32, .mkdct2 (regField w 23) (bits w 10 10)),
        (0xFC7003FF#32, 0x0C000000#32, .mkdct4 (regField w 23) (bits w 10 10)),
        (0xFC01FFFF#32, 0x10000000#32, .colxfm (regField w 23) (regField w 20) (regField w 17)),
        (0xFC0FFFFF#32, 0x14000000#32, .trn (regField w 23) (regField w 20)),
        (0xFC0003FF#32, 0x20000000#32, .dct (regField w 23) (regField w 20) (bits w 10 10)),
        (0xFC0003FF#32, 0x24000000#32, .idct (regField w 23) (regField w 20) (bits w 10 10))]
      ++ [
        (0xFC000000#32, 0x28000000#32, .regroup (regField w 23) (regField w 20) (bits w 10 10) (bits w 0 10)),
        (0xFC0003FF#32, 0x2C000000#32, .dctbpp (regField w 23) (regField w 20) (bits w 10 10)),
        (0xFC0FC0FF#32, 0x40000000#32, .dwt (regField w 23) (regField w 20) (regField w 11) (regField w 8)),
        (0xFC0FC0FF#32, 0x44000000#32, .idwt (regField w 23) (regField w 20) (regField w 11) (regField w 8)),
        (0xFC0003FF#32, 0x48000000#32, .nlevdwt (regField w 23) (regField w 20) (bits w 10 10)),
        (0xFC0003FF#32, 0x4C000000#32, .nlevidwt (regField w 23) (regField w 20) (bits w 10 10)),
        (0xFC003FFF#32, 0x50000000#32, .quantdwt (regField w 23) (regField w 14) (regField w 20) (regField w 17))]
      ++ [
        (0xFC000000#32, 0x54000000#32, .energyz (regField w 23) (bits w 0 10) (bits w 10 10) (bits w 20 3)),
        (0xFC01FFFF#32, 0x60000000#32, .quantise (regField w 23) (regField w 20) (regField w 17)),
        (0xFC0FFFFF#32, 0x64000000#32, .bpp (regField w 23) (regField w 20)),
        (0xFC0FC7FF#32, 0x70000000#32, .rowdec (regField w 23) (regField w 20) (regField w 11)),
        (0xFC0FC7FF#32, 0x74000000#32, .rowdec2 (regField w 23) (regField w 20) (regField w 11)),
        (0xFC0FC7FF#32, 0x78000000#32, .rowint (regField w 23) (regField w 20) (regField w 11)),
        (0xFC0FC7FF#32, 0x7C000000#32, .rowint2 (regField w 23) (regField w 20) (regField w 11))]
      : List (Word × Word × Instr)), w &&& row.1 = row.2.1 ∧ i = row.2.2) ∧
    ¬(bits w 26 6 = 0x14 ∧ bits w 23 3 = bits w 14 3))

/-- R99, R100, R101, R254: a word with a reserved opcode, a nonzero must-be-zero bit of its opcode's row, or
`QUANTDWT` with `f1 = f4` ends with `ILLEGAL` and changes nothing but what records the error. -/
def Obligations.IllegalWordsFail : Prop :=
  ∀ (s : State) (w : Word),
    (bits w 26 6 ∈ [0x06, 0x07, 0x0C, 0x0D, 0x0E, 0x0F, 0x16, 0x17, 0x1A, 0x1B] ∨ 0x20 ≤ bits w 26 6 ∨
      (∃ row ∈ ([
          (0x00, 0x03FFFFFF#32), (0x01, 0x007FFFFF#32), (0x02, 0x007003FF#32), (0x03, 0x007003FF#32),
          (0x04, 0x0001FFFF#32), (0x05, 0x000FFFFF#32), (0x08, 0x000003FF#32), (0x09, 0x000003FF#32),
          (0x0B, 0x000003FF#32), (0x10, 0x000FC0FF#32), (0x11, 0x000FC0FF#32), (0x12, 0x000003FF#32)]
        ++ [
          (0x13, 0x000003FF#32), (0x14, 0x00003FFF#32), (0x18, 0x0001FFFF#32), (0x19, 0x000FFFFF#32),
          (0x1C, 0x000FC7FF#32), (0x1D, 0x000FC7FF#32), (0x1E, 0x000FC7FF#32), (0x1F, 0x000FC7FF#32)]
        : List (Nat × Word)), bits w 26 6 = row.1 ∧ w &&& row.2 ≠ 0#32) ∨
      (bits w 26 6 = 0x14 ∧ bits w 23 3 = bits w 14 3)) →
    ∃ t, s.regWrite 3 (.word w) = .next t ∧ Failed .illegal w s t

/-- R90 to R97, R100, R103: decoding the word of any encodable command gives that command back, every operand at
every value of its field. -/
def Obligations.DecodeOfEncodeIsTheCommand : Prop :=
  ∀ i : Instr, i.wellFormed = true → decode (encode i) = .ok i

/-- R97, R98, R100: a word that decodes is the word of its command, which is encodable: no bit of a legal word is
dropped. -/
def Obligations.LegalWordsAreTheirCommandsWords : Prop :=
  ∀ (w : Word) (i : Instr), decode w = .ok i → encode i = w ∧ i.wellFormed = true

/-- R105 and the example words of the command rules: words written out from the spec's encodings. -/
def Obligations.SampleWordsDecode : Prop :=
  decode 0x20802000#32 = .ok (.dct 1 0 8) ∧ decode 0x09000800#32 = .ok (.mkdct2 2 2) ∧
  decode 0x10840000#32 = .ok (.colxfm 1 0 2) ∧ decode 0x45101300#32 = .ok (.idwt 2 1 2 3) ∧
  decode 0x511AC000#32 = .ok (.quantdwt 2 3 1 5) ∧ decode 0x54000802#32 = .ok (.energyz 0 2 2 0) ∧
  decode 0x64A00000#32 = .ok (.bpp 1 2) ∧ decode 0x7E201800#32 = .ok (.rowint2 4 2 3) ∧
  decode 0x05800000#32 = .ok (.free 3)

/-! ### The host port -/

/-- R31, R32, R33: the constant registers. -/
def Obligations.ConstantRegistersIdentifyTheCore : Prop :=
  ∀ s : State, s.cfg.wf = true → ∃ c m : Word,
    s.regRead 0 = (.word 0x49504331#32, s) ∧
    s.regRead 1 = (.word c, s) ∧ bits c 0 4 = 8 ∧ bits c 4 4 = 8 ∧ bits c 8 4 = 8 ∧
      bits c 12 8 = s.cfg.maxTaps ∧ bits c 20 12 = 0 ∧
    s.regRead 2 = (.word m, s) ∧ bits m 0 16 = s.cfg.maxDim ∧ bits m 16 16 = 0

/-- R35, R37, R251: `STATUS` shows the code of the most recent command's error in bits 3:0 and 0 in every other bit,
and `ERRINFO` the recorded word. -/
def Obligations.StatusAndErrInfoShowTheError : Prop :=
  ∀ s : State, s.regRead 6 = (.word s.errInfo, s) ∧ ∃ v : Word, s.regRead 4 = (.word v, s) ∧ bits v 4 28 = 0 ∧
    (s.err = .ok → bits v 0 4 = 0) ∧ (s.err = .dim → bits v 0 4 = 1) ∧ (s.err = .domain → bits v 0 4 = 2) ∧
    (s.err = .illegal → bits v 0 4 = 3) ∧ (s.err = .empty → bits v 0 4 = 4) ∧ (s.err = .capacity → bits v 0 4 = 5) ∧
    (s.err = .kernel → bits v 0 4 = 6)

/-- R36, R280: a bit of `STICKY` written as 1 is cleared and one written as 0 stays, nothing else changes; no other
host action and so no command clears a bit, but the reset input, which clears them all. -/
def Obligations.StickyBitsClearOnlyByWritingOneOrReset : Prop :=
  (∀ s : State, s.regRead 5 = (.word s.sticky, s) ∧
    (∀ v : Word, ∃ t, s.regWrite 5 (.word v) = .next t ∧ { t with sticky := s.sticky } = s ∧
      ∀ b : Nat, b < 32 → t.sticky.getLsbD b = (s.sticky.getLsbD b && !v.getLsbD b)) ∧
    (∃ t, s.perform .reset = .next t ∧ t.sticky = 0#32)) ∧
  ∀ (s t : State) (a : HostAction), a ≠ .reset → s.perform a = .next t → ∀ b : Nat, s.sticky.getLsbD b = true →
    t.sticky.getLsbD b = true ∨
      ∃ v : Word, v.getLsbD b = true ∧ (a = .write 5 (.word v) ∨
        a = .busWrite 20 [v.extractLsb' 0 8, v.extractLsb' 8 8, v.extractLsb' 16 8, v.extractLsb' 24 8])

/-- R38: a legal size is stored, anything else is improper; the upper half reads 0 and is ignored (log 6). -/
def Obligations.ImgSizeKeepsLegalValues : Prop :=
  ∀ s : State,
    (∃ u : Word, s.regRead 7 = (.word u, s) ∧ bits u 0 16 = s.imgSize.toNat ∧ bits u 16 16 = 0) ∧
    (∀ v : Word, 1 ≤ bits v 0 16 → bits v 0 16 ≤ s.cfg.maxDim →
      ∃ t, s.regWrite 7 (.word v) = .next t ∧ t.imgSize.toNat = bits v 0 16 ∧ { t with imgSize := s.imgSize } = s) ∧
    (∀ v : Word, bits v 0 16 = 0 ∨ s.cfg.maxDim < bits v 0 16 →
      ∃ t, s.regWrite 7 (.word v) = .next t ∧ Improper s t)

/-- R39, R42, R44, R46, R49: the selectors store bits 2:0 of the written value, the address registers all of it, each
changes nothing else, and each reads back. -/
def Obligations.SelectorAndAddressRegistersStore : Prop :=
  ∀ s : State,
    (s.regRead 8 = (.word (BitVec.ofNat 32 s.bSel.val), s) ∧ s.regRead 13 = (.word (BitVec.ofNat 32 s.kSel.val), s) ∧
      s.regRead 18 = (.word (BitVec.ofNat 32 s.sSel.val), s) ∧ s.regRead 11 = (.word s.cAddr, s) ∧
      s.regRead 15 = (.word s.kAddr, s)) ∧
    (∀ v : Word,
      (∃ t, s.regWrite 8 (.word v) = .next t ∧ t.bSel.val = v.toNat % 8 ∧ { t with bSel := s.bSel } = s) ∧
      (∃ t, s.regWrite 13 (.word v) = .next t ∧ t.kSel.val = v.toNat % 8 ∧ { t with kSel := s.kSel } = s) ∧
      (∃ t, s.regWrite 18 (.word v) = .next t ∧ t.sSel.val = v.toNat % 8 ∧ { t with sSel := s.sSel } = s) ∧
      s.regWrite 11 (.word v) = .next { s with cAddr := v } ∧ s.regWrite 15 (.word v) = .next { s with kAddr := v })

/-- R40: `BSHAPE` reads the selected buffer's shape, or 0; a write of a legal shape makes the buffer valid with all
cells zero and clears `CADDR`; any other write is improper. -/
def Obligations.BShapeCreatesAZeroBuffer : Prop :=
  ∀ s : State, s.inv = true →
    (s.buf s.bSel = none → s.regRead 9 = (.word 0#32, s)) ∧
    (∀ x, s.buf s.bSel = some x →
      ∃ v : Word, s.regRead 9 = (.word v, s) ∧ bits v 16 16 = x.rows ∧ bits v 0 16 = x.cols) ∧
    (∀ v : Word, (1 ≤ bits v 16 16 ∧ bits v 16 16 ≤ s.cfg.maxDim) ∧ (1 ≤ bits v 0 16 ∧ bits v 0 16 ≤ s.cfg.maxDim) →
      ∃ t z, s.regWrite 9 (.word v) = .next t ∧ t.buf s.bSel = some z ∧ z.shaped = true ∧
        z.rows = bits v 16 16 ∧ z.cols = bits v 0 16 ∧
        (∀ r c, r < z.rows → c < z.cols → z.get r c = NUM.zero) ∧
        t.cAddr = 0#32 ∧ t.err = s.err ∧ Frame [s.bSel] [] s { t with cAddr := s.cAddr }) ∧
    (∀ v : Word, ¬((1 ≤ bits v 16 16 ∧ bits v 16 16 ≤ s.cfg.maxDim) ∧ (1 ≤ bits v 0 16 ∧ bits v 0 16 ≤ s.cfg.maxDim)) →
      ∃ t, s.regWrite 9 (.word v) = .next t ∧ Improper s t)

/-- R41, R48: bit `b` of `BVALID` and of `SVALID` is the valid bit of buffer or scalar `b`; the other bits are 0; both
read 0 after reset. -/
def Obligations.ValidRegistersShowTheValidBits : Prop :=
  (∀ s : State, ∃ v w : Word, s.regRead 10 = (.word v, s) ∧ s.regRead 17 = (.word w, s) ∧
    (∀ b : RegIx, v.getLsbD b.val = (s.buf b).isSome) ∧ bits v 8 24 = 0 ∧
    (∀ j : RegIx, w.getLsbD j.val = (s.scal j).isSome) ∧ bits w 8 24 = 0) ∧
  State.reset.regRead 10 = (.word 0#32, State.reset) ∧ State.reset.regRead 17 = (.word 0#32, State.reset)

/-- R43, R61: `CDATA` reads and writes cell `CADDR` of the selected buffer in row-major order and steps `CADDR`;
beyond the buffer, or with no buffer, the access is improper. -/
def Obligations.CDataMovesOneCell : Prop :=
  ∀ s : State, s.inv = true →
    (∀ (x : Arr) (r c : Nat), s.buf s.bSel = some x → r < x.rows → c < x.cols → s.cAddr.toNat = r * x.cols + c →
      (∃ t, s.regRead 12 = (.num (x.get r c), t) ∧ t.cAddr.toNat = s.cAddr.toNat + 1 ∧
        { t with cAddr := s.cAddr } = s) ∧
      (∀ v : NUM, ∃ t y, s.regWrite 12 (.num v) = .next t ∧ t.buf s.bSel = some y ∧ y.rows = x.rows ∧
        y.cols = x.cols ∧ y.get r c = v ∧
        (∀ r' c', r' < x.rows → c' < x.cols → (r' ≠ r ∨ c' ≠ c) → y.get r' c' = x.get r' c') ∧
        t.cAddr.toNat = s.cAddr.toNat + 1 ∧ t.err = s.err ∧ Frame [s.bSel] [] s { t with cAddr := s.cAddr })) ∧
    (s.buf s.bSel = none ∨ (∃ x, s.buf s.bSel = some x ∧ x.rows * x.cols ≤ s.cAddr.toNat) →
      (∃ t, s.regRead 12 = (.num NUM.zero, t) ∧ Improper s t) ∧
      (∀ v : NUM, ∃ t, s.regWrite 12 (.num v) = .next t ∧ Improper s t))

/-- R45: `KLEN` reads the selected kernel's length; a write sets the length of a writable kernel, zeroes its taps and
`KADDR`; for a read-only kernel or a length above MAXTAPS it is improper. -/
def Obligations.KLenSetsAKernelsLength : Prop :=
  ∀ s : State, s.inv = true →
    (∃ u : Word, s.regRead 14 = (.word u, s) ∧ bits u 0 8 = (s.kern s.kSel).length ∧ bits u 8 24 = 0) ∧
    (∀ v : Word, 4 ≤ s.kSel.val → v.toNat ≤ s.cfg.maxTaps →
      ∃ t, s.regWrite 14 (.word v) = .next t ∧ t.kern s.kSel = List.replicate v.toNat NUM.zero ∧
        (∀ j, j ≠ s.kSel → t.kern j = s.kern j) ∧ t.kAddr = 0#32 ∧
        { t with kernels := s.kernels, kAddr := s.kAddr } = s) ∧
    (∀ v : Word, s.kSel.val < 4 ∨ s.cfg.maxTaps < v.toNat →
      ∃ t, s.regWrite 14 (.word v) = .next t ∧ Improper s t)

/-- R47: `KDATA` reads tap `KADDR` of any kernel and writes it in a writable one, and steps `KADDR`; any other access
is improper. -/
def Obligations.KDataMovesOneTap : Prop :=
  ∀ s : State, s.inv = true →
    (∀ a : NUM, (s.kern s.kSel)[s.kAddr.toNat]? = some a →
      (∃ t, s.regRead 16 = (.num a, t) ∧ t.kAddr.toNat = s.kAddr.toNat + 1 ∧ { t with kAddr := s.kAddr } = s) ∧
      (4 ≤ s.kSel.val → ∀ v : NUM, ∃ t, s.regWrite 16 (.num v) = .next t ∧
        t.kern s.kSel = (s.kern s.kSel).set s.kAddr.toNat v ∧ (∀ j, j ≠ s.kSel → t.kern j = s.kern j) ∧
        t.kAddr.toNat = s.kAddr.toNat + 1 ∧ { t with kernels := s.kernels, kAddr := s.kAddr } = s)) ∧
    ((s.kern s.kSel).length ≤ s.kAddr.toNat → ∃ t, s.regRead 16 = (.num NUM.zero, t) ∧ Improper s t) ∧
    ((s.kern s.kSel).length ≤ s.kAddr.toNat ∨ s.kSel.val < 4 →
      ∀ v : NUM, ∃ t, s.regWrite 16 (.num v) = .next t ∧ Improper s t)

/-- R50: `SDATA` writes the selected scalar register and makes it valid; a read returns it, or zero with `HOSTERR`
if it is not valid. -/
def Obligations.SDataMovesOneScalar : Prop :=
  ∀ s : State,
    (∀ v : NUM, ∃ t, s.regWrite 19 (.num v) = .next t ∧ t.scal s.sSel = some v ∧ t.err = s.err ∧
      Frame [] [s.sSel] s t) ∧
    (∀ x, s.scal s.sSel = some x → s.regRead 19 = (.num x, s)) ∧
    (s.scal s.sSel = none → ∃ t, s.regRead 19 = (.num NUM.zero, t) ∧ Improper s t)

/-- R53: a reserved register reads 0 and ignores writes, a read-only register ignores writes, and each of these sets
`HOSTERR`. -/
def Obligations.ReservedAndReadOnlyRegistersFlag : Prop :=
  ∀ s : State,
    (∀ n : Fin 32, 20 ≤ n.val → (∃ t, s.regRead n = (.word 0#32, t) ∧ Improper s t) ∧
      ∀ v : Word, ∃ t, s.regWrite n (.word v) = .next t ∧ Improper s t) ∧
    (∀ n ∈ ([0, 1, 2, 4, 6, 10, 17] : List (Fin 32)), ∀ v : Word,
      ∃ t, s.regWrite n (.word v) = .next t ∧ Improper s t)

/-- R30, R62, R63: over the bus register `n` stands at offset `4 * n`, its first byte is bits 7:0, and an access that
is not to a whole register is refused (the form of the refusal is the model's, log 7). -/
def Obligations.BusAccessesAreLittleEndianRegisters : Prop :=
  ∀ s : State,
    (∀ n : Fin 32, n ≠ 12 → n ≠ 16 → n ≠ 19 →
      (∃ (v : Word) (t : State) (bs : List Byte), s.regRead n = (.word v, t) ∧
        bs = [v.extractLsb' 0 8, v.extractLsb' 8 8, v.extractLsb' 16 8, v.extractLsb' 24 8] ∧
        s.perform (.busRead (4 * n.val) 4) = .next { t with replies := .bytes bs :: t.replies }) ∧
      (∀ v : Word,
        s.perform (.busWrite (4 * n.val)
          [v.extractLsb' 0 8, v.extractLsb' 8 8, v.extractLsb' 16 8, v.extractLsb' 24 8]) =
          s.regWrite n (.word v))) ∧
    (∀ offset size : Nat, offset < 128 → offset % 4 ≠ 0 ∨ size ≠ 4 →
      s.perform (.busRead offset size) = .refused .partialAccess ∧
      ∀ bs : List Byte, bs.length = size → s.perform (.busWrite offset bs) = .refused .partialAccess)

/-! ### System commands -/

/-- R246: `NOP` has the one word 0 and does nothing but clear `STATUS.ERR`. -/
def Obligations.NopOnlyClearsTheError : Prop :=
  EncodedAs 0xFFFFFFFF#32 0x00000000#32 (fun _ => .nop) ∧
  ∀ s : State, exec .nop s = .next { s with err := .ok }

/-- R247: `FREE` makes its buffer not valid, changes nothing else, and succeeds in every state. -/
def Obligations.FreeReleasesABuffer : Prop :=
  EncodedAs 0xFC7FFFFF#32 0x04000000#32 (fun w => .free (regField w 23)) ∧
  ∀ (s : State) (ad : RegIx), ∃ t, exec (.free ad) s = .next t ∧ Done [ad] [] s t ∧ t.buf ad = none

/-! ### Matrix builder -/

/-- R131: `MKDCT2` builds the DCT-II matrix of size N; N = 0 is `DOMAIN` and N > MAXDIM is `CAPACITY`. -/
def Obligations.MkDct2BuildsTheMatrix : Prop :=
  EncodedAs 0xFC7003FF#32 0x08000000#32 (fun w => .mkdct2 (regField w 23) (bits w 10 10)) ∧
  ∀ (s : State) (ad : RegIx) (n : Nat), FailsFirst (.mkdct2 ad n) s ∧
    (1 ≤ n → n ≤ s.cfg.maxDim → ∃ t c, exec (.mkdct2 ad n) s = .next t ∧ Done [ad] [] s t ∧
      t.buf ad = some c ∧ c.rows = n ∧ c.cols = n ∧
      (s.cfg.num = .reals → ∀ (ρ : Nat → ℝ) (k : Nat), k < n → c.val ρ 0 k = 1 / Real.sqrt n ∧
        ∀ i, 1 ≤ i → i < n →
          c.val ρ i k = Real.sqrt (2 / n) * Real.cos (((k : ℝ) + 0.5) * Real.pi * i / n)))

/-- R132: `MKDCT4` builds the DCT-IV matrix of size N; N = 0 is `DOMAIN` and N > MAXDIM is `CAPACITY`. -/
def Obligations.MkDct4BuildsTheMatrix : Prop :=
  EncodedAs 0xFC7003FF#32 0x0C000000#32 (fun w => .mkdct4 (regField w 23) (bits w 10 10)) ∧
  ∀ (s : State) (ad : RegIx) (n : Nat), FailsFirst (.mkdct4 ad n) s ∧
    (1 ≤ n → n ≤ s.cfg.maxDim → ∃ t c, exec (.mkdct4 ad n) s = .next t ∧ Done [ad] [] s t ∧
      t.buf ad = some c ∧ c.rows = n ∧ c.cols = n ∧
      (s.cfg.num = .reals → ∀ (ρ : Nat → ℝ) (i k : Nat), i < n → k < n →
        c.val ρ i k = Real.sqrt (2 / n) * Real.cos (((k : ℝ) + 0.5) * Real.pi * ((i : ℝ) + 0.5) / n)))

/-- R133: the matrices of both builders are orthogonal, `C * C^T = I`: exactly over the reals, and within EPS in a
format that meets the source's properties. The clause about other formats is the model's choice, logs 15 and 16 (DESIGN
CHOICE): the product is formed over the reals and EPS bounds the absolute difference. -/
def Obligations.BuiltMatricesAreOrthogonal : Prop :=
  ∀ (s : State) (ad : RegIx) (n : Nat), 1 ≤ n → n ≤ s.cfg.maxDim →
    ∀ i ∈ [Instr.mkdct2 ad n, Instr.mkdct4 ad n], ∃ t c, exec i s = .next t ∧ t.buf ad = some c ∧
      c.rows = n ∧ c.cols = n ∧
      (s.cfg.num = .reals ∨ s.cfg.Tolerable → ∀ (ρ : Nat → ℝ) (a b : Nat), a < n → b < n →
        s.cfg.near (∑ k ∈ Finset.range n, c.val ρ a k * c.val ρ b k) (if a = b then 1 else 0))

/-! ### Column transform applier -/

/-- R141: `COLXFM` applies the square matrix in `Ac` to each block of rows of `As`. -/
def Obligations.ColxfmAppliesTheMatrixToRowBlocks : Prop :=
  EncodedAs 0xFC01FFFF#32 0x10000000#32 (fun w => .colxfm (regField w 23) (regField w 20) (regField w 17)) ∧
  ∀ (s : State) (ad sa ac : RegIx), FailsFirst (.colxfm ad sa ac) s ∧
    ∀ x c : Arr, s.buf sa = some x → s.buf ac = some c → c.cols = c.rows → x.rows % c.rows = 0 →
      ∃ t y, exec (.colxfm ad sa ac) s = .next t ∧ Done [ad] [] s t ∧ t.buf ad = some y ∧
        y.rows = x.rows ∧ y.cols = x.cols ∧
        (s.cfg.num = .reals → ∀ (ρ : Nat → ℝ) (b i j : Nat), b < x.rows / c.rows → i < c.rows → j < x.cols →
          y.val ρ (b * c.rows + i) j =
            ∑ k ∈ Finset.range c.rows, c.val ρ i k * x.val ρ (b * c.rows + k) j)

/-- R143: `TRN` transposes exactly, and twice restores the array. -/
def Obligations.TrnTransposesExactly : Prop :=
  EncodedAs 0xFC0FFFFF#32 0x14000000#32 (fun w => .trn (regField w 23) (regField w 20)) ∧
  ∀ (s : State) (ad sa : RegIx), FailsFirst (.trn ad sa) s ∧
    ∀ x : Arr, s.buf sa = some x →
      ∃ t y, exec (.trn ad sa) s = .next t ∧ Done [ad] [] s t ∧ t.buf ad = some y ∧
        y.rows = x.cols ∧ y.cols = x.rows ∧
        (∀ r c, r < x.rows → c < x.cols → y.get c r = x.get r c) ∧
        (x.shaped = true → ∀ ae : RegIx, ∃ u, exec (.trn ae ad) t = .next u ∧ u.buf ae = some x)

/-! ### Block DCT engine -/

/-- R151, R152: `DCT` replaces every N by N block `B` by `C * B * C^T`, with the DC coefficient the block's sum over N. -/
def Obligations.DctTransformsEveryBlock : Prop :=
  EncodedAs 0xFC0003FF#32 0x20000000#32 (fun w => .dct (regField w 23) (regField w 20) (bits w 10 10)) ∧
  ∀ (s : State) (ad sa : RegIx) (n : Nat), FailsFirst (.dct ad sa n) s ∧
    ∀ x : Arr, s.buf sa = some x → n ≠ 0 → x.rows % n = 0 → x.cols % n = 0 →
      ∃ t y, exec (.dct ad sa n) s = .next t ∧ Done [ad] [] s t ∧ t.buf ad = some y ∧
        y.rows = x.rows ∧ y.cols = x.cols ∧
        (s.cfg.num = .reals → ∀ (ρ : Nat → ℝ) (p q : Nat), p < x.rows / n → q < x.cols / n →
          (∀ i j, i < n → j < n →
            y.val ρ (p * n + i) (q * n + j) = ∑ k ∈ Finset.range n, ∑ l ∈ Finset.range n,
              idealDct2 n i k * x.val ρ (p * n + k) (q * n + l) * idealDct2 n j l) ∧
          y.val ρ (p * n) (q * n) =
            (∑ k ∈ Finset.range n, ∑ l ∈ Finset.range n, x.val ρ (p * n + k) (q * n + l)) / n)

/-- R153: `IDCT` replaces every N by N block `B` by `C^T * B * C`. -/
def Obligations.IdctTransformsEveryBlock : Prop :=
  EncodedAs 0xFC0003FF#32 0x24000000#32 (fun w => .idct (regField w 23) (regField w 20) (bits w 10 10)) ∧
  ∀ (s : State) (ad sa : RegIx) (n : Nat), FailsFirst (.idct ad sa n) s ∧
    ∀ y : Arr, s.buf sa = some y → n ≠ 0 → y.rows % n = 0 → y.cols % n = 0 →
      ∃ t x, exec (.idct ad sa n) s = .next t ∧ Done [ad] [] s t ∧ t.buf ad = some x ∧
        x.rows = y.rows ∧ x.cols = y.cols ∧
        (s.cfg.num = .reals → ∀ (ρ : Nat → ℝ) (p q k l : Nat), p < y.rows / n → q < y.cols / n → k < n → l < n →
          x.val ρ (p * n + k) (q * n + l) = ∑ i ∈ Finset.range n, ∑ j ∈ Finset.range n,
            idealDct2 n i k * y.val ρ (p * n + i) (q * n + j) * idealDct2 n j l)

/-- R154: `IDCT` undoes `DCT` and `DCT` undoes `IDCT` exactly over the reals; in a format that meets the source's
properties `IDCT` undoes `DCT` within EPS. The clause about other formats is the model's choice, logs 15 and 16 (DESIGN
CHOICE): EPS bounds the absolute difference, cell by cell. -/
def Obligations.DctAndIdctUndoEachOther : Prop :=
  ∀ (s : State) (ad ae sa : RegIx) (n : Nat) (x : Arr), s.buf sa = some x → n ≠ 0 → x.rows % n = 0 →
    x.cols % n = 0 →
    ∀ io ∈ [(Instr.dct ad sa n, Instr.idct ae ad n), (Instr.idct ad sa n, Instr.dct ae ad n)],
      ∃ t u z, exec io.1 s = .next t ∧ exec io.2 t = .next u ∧ u.err = .ok ∧ u.buf ae = some z ∧
        z.rows = x.rows ∧ z.cols = x.cols ∧
        (s.cfg.num = .reals ∨ (s.cfg.Tolerable ∧ io.1 = .dct ad sa n) →
          ∀ (ρ : Nat → ℝ) (r c : Nat), r < x.rows → c < x.cols → s.cfg.near (z.val ρ r c) (x.val ρ r c))

/-- R156: `REGROUP` moves cell `[br*N1 + ir][bc*N2 + ic]` exactly to `[ir*P + br][ic*Q + bc]`. -/
def Obligations.RegroupPermutesCells : Prop :=
  EncodedAs 0xFC000000#32 0x28000000#32
    (fun w => .regroup (regField w 23) (regField w 20) (bits w 10 10) (bits w 0 10)) ∧
  ∀ (s : State) (ad sa : RegIx) (n1 n2 : Nat), FailsFirst (.regroup ad sa n1 n2) s ∧
    ∀ x : Arr, s.buf sa = some x → n1 ≠ 0 → n2 ≠ 0 → x.rows % n1 = 0 → x.cols % n2 = 0 →
      ∃ t y, exec (.regroup ad sa n1 n2) s = .next t ∧ Done [ad] [] s t ∧ t.buf ad = some y ∧
        y.rows = x.rows ∧ y.cols = x.cols ∧
        ∀ br ir bc ic, br < x.rows / n1 → ir < n1 → bc < x.cols / n2 → ic < n2 →
          y.get (ir * (x.rows / n1) + br) (ic * (x.cols / n2) + bc) = x.get (br * n1 + ir) (bc * n2 + ic)

/-- R157: regrouping with the size spec (R/N1, W/N2) restores the original array exactly. -/
def Obligations.DeRegroupRestoresTheArray : Prop :=
  ∀ (s : State) (ad ae sa : RegIx) (n1 n2 : Nat) (x : Arr), s.buf sa = some x → x.shaped = true → 1 ≤ x.rows →
    1 ≤ x.cols → n1 ≠ 0 → n2 ≠ 0 → x.rows % n1 = 0 → x.cols % n2 = 0 →
    ∃ t u, exec (.regroup ad sa n1 n2) s = .next t ∧
      exec (.regroup ae ad (x.rows / n1) (x.cols / n2)) t = .next u ∧ u.err = .ok ∧ u.buf ae = some x

/-- R158: `DCTBPP` sums, over the N by N sub-images, bits per pixel times pixel count. -/
def Obligations.DctbppSumsTheSubimageCosts : Prop :=
  EncodedAs 0xFC0003FF#32 0x2C000000#32 (fun w => .dctbpp (regField w 23) (regField w 20) (bits w 10 10)) ∧
  ∀ (s : State) (sd sa : RegIx) (n : Nat), FailsFirst (.dctbpp sd sa n) s ∧
    ∀ x : Arr, s.buf sa = some x → n ≠ 0 → x.rows % n = 0 → x.cols % n = 0 →
      ∃ t v, exec (.dctbpp sd sa n) s = .next t ∧ Done [] [sd] s t ∧ t.scal sd = some v ∧
        (s.cfg.num = .reals → ∀ ρ : Nat → ℝ, v.val ρ = ∑ a ∈ Finset.range n, ∑ b ∈ Finset.range n,
          idealBpp ρ s.cfg.bin
            (regionCells x (a * (x.rows / n)) (b * (x.cols / n)) (x.rows / n) (x.cols / n)) *
            ((x.rows / n : Nat) * (x.cols / n : Nat)))

/-! ### Filter bank -/

/-- R226: the reflection lands in the row, leaves the row's own indices, mirrors about the first and the last sample
without repeating them, and has period `2 * (c - 1)`. -/
def Obligations.ReflectionExtendsARow : Prop :=
  ∀ (c : Nat) (j : Int), 1 ≤ c →
    refl c j < c ∧ (∀ k : Nat, k < c → refl c k = k) ∧ refl c (-j) = refl c j ∧
    refl c ((c : Int) - 1 + j) = refl c ((c : Int) - 1 - j) ∧ refl c (j + 2 * ((c : Int) - 1)) = refl c j

/-- R229, R230: `ROWDEC` and `ROWDEC2` keep the filter outputs centred on the even and on the odd samples. -/
def Obligations.RowDecimationFiltersEachRow : Prop :=
  EncodedAs 0xFC0FC7FF#32 0x70000000#32 (fun w => .rowdec (regField w 23) (regField w 20) (regField w 11)) ∧
  EncodedAs 0xFC0FC7FF#32 0x74000000#32 (fun w => .rowdec2 (regField w 23) (regField w 20) (regField w 11)) ∧
  ∀ (s : State) (ad sa k : RegIx) (io : Instr × Nat),
    io ∈ [(Instr.rowdec ad sa k, 0), (Instr.rowdec2 ad sa k, 1)] → FailsFirst io.1 s ∧
    ∀ x : Arr, s.buf sa = some x → (s.kern k).length % 2 = 1 → x.cols % 2 = 0 →
      ∃ t y, exec io.1 s = .next t ∧ Done [ad] [] s t ∧ t.buf ad = some y ∧
        y.rows = x.rows ∧ y.cols = x.cols / 2 ∧
        (s.cfg.num = .reals → ∀ (ρ : Nat → ℝ) (r u : Nat), r < x.rows → u < x.cols / 2 →
          y.val ρ r u = ∑ a ∈ Finset.range (s.kern k).length, ((s.kern k).getD a NUM.zero).val ρ *
            x.val ρ r (refl x.cols ((2 * u + io.2 + ((s.kern k).length - 1) / 2 : Nat) - (a : Int))))

/-- R231, R232: `ROWINT` and `ROWINT2` put the samples on the even and on the odd positions, zeros on the others, and
filter the doubled row. -/
def Obligations.RowInterpolationFiltersTheSpreadRow : Prop :=
  EncodedAs 0xFC0FC7FF#32 0x78000000#32 (fun w => .rowint (regField w 23) (regField w 20) (regField w 11)) ∧
  EncodedAs 0xFC0FC7FF#32 0x7C000000#32 (fun w => .rowint2 (regField w 23) (regField w 20) (regField w 11)) ∧
  ∀ (s : State) (ad sa k : RegIx) (io : Instr × Nat),
    io ∈ [(Instr.rowint ad sa k, 0), (Instr.rowint2 ad sa k, 1)] → FailsFirst io.1 s ∧
    ∀ x : Arr, s.buf sa = some x → (s.kern k).length % 2 = 1 → 2 * x.cols ≤ s.cfg.maxDim →
      ∃ t y, exec io.1 s = .next t ∧ Done [ad] [] s t ∧ t.buf ad = some y ∧
        y.rows = x.rows ∧ y.cols = 2 * x.cols ∧
        (s.cfg.num = .reals → ∀ (ρ : Nat → ℝ) (r : Nat) (u : Nat → ℝ), r < x.rows →
          (∀ j, j < x.cols → u (2 * j + io.2) = x.val ρ r j ∧ u (2 * j + (1 - io.2)) = 0) →
          ∀ v, v < 2 * x.cols →
            y.val ρ r v = ∑ a ∈ Finset.range (s.kern k).length, ((s.kern k).getD a NUM.zero).val ρ *
              u (refl (2 * x.cols) ((v + ((s.kern k).length - 1) / 2 : Nat) - (a : Int))))

/-- R233: with the default kernels the two interpolated branches of a row add up to the row. -/
def Obligations.DefaultKernelsReconstructEveryRow : Prop :=
  ∀ (s : State) (sa b1 b2 : RegIx) (x : Arr), s.inv = true → s.buf sa = some x → x.cols % 2 = 0 → b1 ≠ sa →
    b2 ≠ b1 →
    ∃ t1 t2 t3 t4 y1 y2, exec (.rowdec b1 sa 0) s = .next t1 ∧ exec (.rowdec2 b2 sa 1) t1 = .next t2 ∧
      exec (.rowint b1 b1 2) t2 = .next t3 ∧ exec (.rowint2 b2 b2 3) t3 = .next t4 ∧ t4.err = .ok ∧
      t4.buf b1 = some y1 ∧ t4.buf b2 = some y2 ∧ y1.rows = x.rows ∧ y1.cols = x.cols ∧ y2.rows = x.rows ∧
      y2.cols = x.cols ∧
      (s.cfg.num = .reals → ∀ (ρ : Nat → ℝ) (r c : Nat), r < x.rows → c < x.cols → y1.val ρ r c + y2.val ρ r c = x.val ρ r c)

/-! ### DWT engine -/

/-- R171, R172: `DWT` fills the four quadrants with the low and high decimations of rows and then of columns. -/
def Obligations.DwtFillsTheFourQuadrants : Prop :=
  EncodedAs 0xFC0FC0FF#32 0x40000000#32
    (fun w => .dwt (regField w 23) (regField w 20) (regField w 11) (regField w 8)) ∧
  ∀ (s : State) (ad sa k1 k2 : RegIx), FailsFirst (.dwt ad sa k1 k2) s ∧
    ∀ x : Arr, s.buf sa = some x → (s.kern k1).length % 2 = 1 → (s.kern k2).length % 2 = 1 → x.rows % 2 = 0 →
      x.cols % 2 = 0 →
      ∃ t y, exec (.dwt ad sa k1 k2) s = .next t ∧ Done [ad] [] s t ∧ t.buf ad = some y ∧
        y.rows = x.rows ∧ y.cols = x.cols ∧
        (s.cfg.num = .reals → ∀ (ρ : Nat → ℝ) (r c : Nat), r < x.rows / 2 → c < x.cols / 2 →
          y.val ρ r c = idealLow ρ (s.kern k1) x.rows (fun a => idealLow ρ (s.kern k1) x.cols (x.val ρ a) c) r ∧
          y.val ρ r (x.cols / 2 + c) =
            idealLow ρ (s.kern k1) x.rows (fun a => idealHigh ρ (s.kern k2) x.cols (x.val ρ a) c) r ∧
          y.val ρ (x.rows / 2 + r) c =
            idealHigh ρ (s.kern k2) x.rows (fun a => idealLow ρ (s.kern k1) x.cols (x.val ρ a) c) r ∧
          y.val ρ (x.rows / 2 + r) (x.cols / 2 + c) =
            idealHigh ρ (s.kern k2) x.rows (fun a => idealHigh ρ (s.kern k2) x.cols (x.val ρ a) c) r)

/-- R173: `IDWT` interpolates and adds the top and bottom halves, then the left and right halves. -/
def Obligations.IdwtJoinsTheFourQuadrants : Prop :=
  EncodedAs 0xFC0FC0FF#32 0x44000000#32
    (fun w => .idwt (regField w 23) (regField w 20) (regField w 11) (regField w 8)) ∧
  ∀ (s : State) (ad sa k1 k2 : RegIx), FailsFirst (.idwt ad sa k1 k2) s ∧
    ∀ y : Arr, s.buf sa = some y → (s.kern k1).length % 2 = 1 → (s.kern k2).length % 2 = 1 → y.rows % 2 = 0 →
      y.cols % 2 = 0 →
      ∃ t x, exec (.idwt ad sa k1 k2) s = .next t ∧ Done [ad] [] s t ∧ t.buf ad = some x ∧
        x.rows = y.rows ∧ x.cols = y.cols ∧
        (s.cfg.num = .reals → ∀ (ρ : Nat → ℝ) (r c : Nat) (down : Nat → ℝ), r < y.rows → c < y.cols →
          (∀ b, b < y.cols → down b =
            idealInt ρ (s.kern k1) (y.rows / 2) (fun a => y.val ρ a b) r +
              idealInt2 ρ (s.kern k2) (y.rows / 2) (fun a => y.val ρ (y.rows / 2 + a) b) r) →
          x.val ρ r c = idealInt ρ (s.kern k1) (y.cols / 2) down c +
            idealInt2 ρ (s.kern k2) (y.cols / 2) (fun b => down (y.cols / 2 + b)) c)

/-- R174: with the default kernels `IDWT` undoes `DWT`: exactly over the reals, and within EPS in a format that meets
the source's properties. The clause about other formats is the model's choice, logs 15 and 16 (DESIGN CHOICE): EPS
bounds the absolute difference, cell by cell. -/
def Obligations.IdwtUndoesDwt : Prop :=
  ∀ (s : State) (ad ae sa : RegIx) (x : Arr), s.buf sa = some x → x.rows % 2 = 0 → x.cols % 2 = 0 →
    ∃ t u z, exec (.dwt ad sa 0 1) s = .next t ∧ exec (.idwt ae ad 2 3) t = .next u ∧ u.err = .ok ∧
      u.buf ae = some z ∧ z.rows = x.rows ∧ z.cols = x.cols ∧
      (s.cfg.num = .reals ∨ s.cfg.Tolerable →
        ∀ (ρ : Nat → ℝ) (r c : Nat), r < x.rows → c < x.cols → s.cfg.near (z.val ρ r c) (x.val ρ r c))

/-- R175: the transform of a constant array is the constant in LL and 0 in LH, HL and HH: exactly over the reals, and
for LH, HL and HH of 256 by 256 arrays within EPS in a format that meets the source's properties. The clause about other
formats is the model's choice, logs 15 and 16 (DESIGN CHOICE): EPS bounds the absolute difference, cell by cell. -/
def Obligations.DwtOfAConstantArrayIsLowLow : Prop :=
  ∀ (s : State) (ad sa : RegIx) (x : Arr) (ρ : Nat → ℝ) (v : ℝ), s.buf sa = some x → x.rows % 2 = 0 →
    x.cols % 2 = 0 → (∀ r c, r < x.rows → c < x.cols → x.val ρ r c = v) →
    ∃ t y, exec (.dwt ad sa 0 1) s = .next t ∧ t.buf ad = some y ∧ y.rows = x.rows ∧ y.cols = x.cols ∧
      (s.cfg.num = .reals →
        ∀ r c, r < x.rows → c < x.cols → y.val ρ r c = if r < x.rows / 2 ∧ c < x.cols / 2 then v else 0) ∧
      (s.cfg.num = .reals ∨ s.cfg.Tolerable → x.rows = 256 → x.cols = 256 →
        ∀ r c, r < 256 → c < 256 → 128 ≤ r ∨ 128 ≤ c → s.cfg.near (y.val ρ r c) 0)

/-- R176: `NLEVDWT` applies one level of `DWT` with `K0`, `K1` to the top-left region, `n` times, halving the region
each time; depth 0 is an exact copy. -/
def Obligations.NlevdwtRunsTheLevels : Prop :=
  EncodedAs 0xFC0003FF#32 0x48000000#32 (fun w => .nlevdwt (regField w 23) (regField w 20) (bits w 10 10)) ∧
  ∀ (s : State) (ad sa : RegIx) (n : Nat), FailsFirst (.nlevdwt ad sa n) s ∧
    ∀ x : Arr, s.buf sa = some x → x.rows % 2 ^ n = 0 → x.cols % 2 ^ n = 0 →
      ∃ t y, exec (.nlevdwt ad sa n) s = .next t ∧ Done [ad] [] s t ∧ t.buf ad = some y ∧
        y.rows = x.rows ∧ y.cols = x.cols ∧ (n = 0 → y = x) ∧
        (s.cfg.num = .reals → ∀ (ρ : Nat → ℝ) (r c : Nat), r < x.rows → c < x.cols →
          y.val ρ r c = idealDwtLevels ρ n x.rows x.cols (x.val ρ) r c)

/-- R179: `NLEVIDWT` starts from the region of size original/2^n and, `n` times, doubles it and applies one level of
`IDWT` with `K2`, `K3`; depth 0 is an exact copy. -/
def Obligations.NlevidwtRunsTheLevels : Prop :=
  EncodedAs 0xFC0003FF#32 0x4C000000#32 (fun w => .nlevidwt (regField w 23) (regField w 20) (bits w 10 10)) ∧
  ∀ (s : State) (ad sa : RegIx) (n : Nat), FailsFirst (.nlevidwt ad sa n) s ∧
    ∀ y : Arr, s.buf sa = some y → y.rows % 2 ^ n = 0 → y.cols % 2 ^ n = 0 →
      ∃ t x, exec (.nlevidwt ad sa n) s = .next t ∧ Done [ad] [] s t ∧ t.buf ad = some x ∧
        x.rows = y.rows ∧ x.cols = y.cols ∧ (n = 0 → x = y) ∧
        (s.cfg.num = .reals → ∀ (ρ : Nat → ℝ) (r c : Nat), r < y.rows → c < y.cols →
          x.val ρ r c = idealIdwtLevels ρ n (y.rows / 2 ^ n) (y.cols / 2 ^ n) (y.val ρ) r c)

/-- R180: `NLEVIDWT` undoes `NLEVDWT` of the same depth: exactly over the reals, on every array whose dimensions 2^n
divides, and on 256 by 256 arrays within EPS in a format that meets the source's properties. The clause about other
formats is the model's choice, logs 15 and 16 (DESIGN CHOICE): EPS bounds the absolute difference, cell by cell. -/
def Obligations.NlevidwtUndoesNlevdwt : Prop :=
  ∀ (s : State) (ad ae sa : RegIx) (n : Nat) (x : Arr), s.buf sa = some x → x.rows % 2 ^ n = 0 →
    x.cols % 2 ^ n = 0 →
    ∃ t u z, exec (.nlevdwt ad sa n) s = .next t ∧ exec (.nlevidwt ae ad n) t = .next u ∧ u.err = .ok ∧
      u.buf ae = some z ∧ z.rows = x.rows ∧ z.cols = x.cols ∧
      (s.cfg.num = .reals ∨ (s.cfg.Tolerable ∧ x.rows = 256 ∧ x.cols = 256) →
        ∀ (ρ : Nat → ℝ) (r c : Nat), r < x.rows → c < x.cols → s.cfg.near (z.val ρ r c) (x.val ρ r c))

/-- R191 to R194: `QUANTDWT` quantises every band with its own step and records every band's bit cost; entries [1][n]
and [2][n] of the entropy table are exact zeros. -/
def Obligations.QuantdwtQuantisesEveryBand : Prop :=
  (∀ w : Word, w &&& 0xFC003FFF#32 = 0x50000000#32 → regField w 23 ≠ regField w 14 →
    decode w = .ok (.quantdwt (regField w 23) (regField w 14) (regField w 20) (regField w 17))) ∧
  ∀ (s : State) (ad ae sa ta : RegIx), FailsFirst (.quantdwt ad ae sa ta) s ∧
    ∀ x g : Arr, ad ≠ ae → s.buf sa = some x → s.buf ta = some g → g.rows = 3 → 1 ≤ g.cols →
      x.rows % 2 ^ (g.cols - 1) = 0 → x.cols % 2 ^ (g.cols - 1) = 0 →
      ∃ t q e, exec (.quantdwt ad ae sa ta) s = .next t ∧ Done [ad, ae] [] s t ∧ t.buf ad = some q ∧
        t.buf ae = some e ∧ q.rows = x.rows ∧ q.cols = x.cols ∧ e.rows = 3 ∧ e.cols = g.cols ∧
        (s.cfg.num = .reals → ∀ (ρ : Nat → ℝ) (l m k : Nat), l < g.cols - 1 → m = x.rows / 2 ^ (l + 1) → k = x.cols / 2 ^ (l + 1) →
          (∀ r c, r < m → c < k →
            q.val ρ r (k + c) = idealQuantise (x.val ρ r (k + c)) (g.val ρ 0 l) ∧
            q.val ρ (m + r) c = idealQuantise (x.val ρ (m + r) c) (g.val ρ 1 l) ∧
            q.val ρ (m + r) (k + c) = idealQuantise (x.val ρ (m + r) (k + c)) (g.val ρ 2 l)) ∧
          e.val ρ 0 l = idealBpp ρ s.cfg.bin (regionCells q 0 k m k) * (m * k) ∧
          e.val ρ 1 l = idealBpp ρ s.cfg.bin (regionCells q m 0 m k) * (m * k) ∧
          e.val ρ 2 l = idealBpp ρ s.cfg.bin (regionCells q m k m k) * (m * k)) ∧
        (s.cfg.num = .reals → ∀ (ρ : Nat → ℝ) (n m k : Nat), n = g.cols - 1 → m = x.rows / 2 ^ n → k = x.cols / 2 ^ n →
          (∀ r c, r < m → c < k → q.val ρ r c = idealQuantise (x.val ρ r c) (g.val ρ 0 n)) ∧
          e.val ρ 0 n = idealBpp ρ s.cfg.bin (regionCells q 0 0 m k) * (m * k)) ∧
        e.get 1 (g.cols - 1) = NUM.zero ∧ e.get 2 (g.cols - 1) = NUM.zero

/-- R196, R197: `ENERGYZ` is the energy of the reconstruction of an impulse of 100 at the centre of the addressed
band of a square array of side `IMGSIZE`. -/
def Obligations.EnergyzMeasuresTheImpulseResponse : Prop :=
  EncodedAs 0xFC000000#32 0x54000000#32
    (fun w => .energyz (regField w 23) (bits w 0 10) (bits w 10 10) (bits w 20 3)) ∧
  ∀ (s : State) (sd : RegIx) (n layer i : Nat), FailsFirst (.energyz sd n layer i) s ∧
    ∀ size pr pc : Nat, size = s.imgSize.toNat → size % 2 ^ n = 0 →
      ((layer < n ∧ i = 0 ∧ pr = size / 2 ^ (layer + 1) / 2 ∧
          pc = size / 2 ^ (layer + 1) + size / 2 ^ (layer + 1) / 2) ∨
        (layer < n ∧ i = 1 ∧ pr = size / 2 ^ (layer + 1) + size / 2 ^ (layer + 1) / 2 ∧
          pc = size / 2 ^ (layer + 1) / 2) ∨
        (layer < n ∧ i = 2 ∧ pr = size / 2 ^ (layer + 1) + size / 2 ^ (layer + 1) / 2 ∧
          pc = size / 2 ^ (layer + 1) + size / 2 ^ (layer + 1) / 2) ∨
        (layer = n ∧ i = 0 ∧ pr = size / 2 ^ n / 2 ∧ pc = size / 2 ^ n / 2)) →
      ∃ t v, exec (.energyz sd n layer i) s = .next t ∧ Done [] [sd] s t ∧ t.scal sd = some v ∧
        (s.cfg.num = .reals → ∀ ρ : Nat → ℝ, v.val ρ = ∑ a ∈ Finset.range size, ∑ b ∈ Finset.range size,
          idealIdwtLevels ρ n (size / 2 ^ n) (size / 2 ^ n)
            (fun r c => if r = pr ∧ c = pc then 100 else 0) a b ^ 2)

/-! ### Quantiser and estimator -/

/-- R211, R212: `QUANTISE` quantises every cell with the step in `Ss`; a rational step of at most 0 copies the cells
exactly. -/
def Obligations.QuantiseRoundsEveryCell : Prop :=
  EncodedAs 0xFC01FFFF#32 0x60000000#32 (fun w => .quantise (regField w 23) (regField w 20) (regField w 17)) ∧
  ∀ (s : State) (ad sa ss : RegIx), FailsFirst (.quantise ad sa ss) s ∧
    ∀ (x : Arr) (g : NUM), s.buf sa = some x → s.scal ss = some g →
      ∃ t y, exec (.quantise ad sa ss) s = .next t ∧ Done [ad] [] s t ∧ t.buf ad = some y ∧
        y.rows = x.rows ∧ y.cols = x.cols ∧
        (∀ ρ : Nat → ℝ, ∀ r c, r < x.rows → c < x.cols →
          (g.val ρ ≤ 0 → y.val ρ r c = x.val ρ r c) ∧
          (s.cfg.num = .reals → 0 < g.val ρ → y.val ρ r c =
            SignType.sign (x.val ρ r c) *
              (max 0 ⌈(|x.val ρ r c| - g.val ρ / 2) / g.val ρ⌉ : ℤ) * g.val ρ)) ∧
        (∀ a : Rat, g = NUM.ofRat a → a ≤ 0 → ∀ r c, r < x.rows → c < x.cols → y.get r c = x.get r c)

/-- R213: for a positive step `quantise` is odd, idempotent, within half a step, monotone and onto multiples of the
step; zero is a fixed point for every step. -/
def Obligations.QuantiseProperties : Prop :=
  ∀ (ρ : Nat → ℝ) (g x y : NUM),
    (0 < g.val ρ →
      (y.val ρ = -x.val ρ → (y.quantise .reals g).val ρ = -(x.quantise .reals g).val ρ) ∧
      ((x.quantise .reals g).quantise .reals g).val ρ = (x.quantise .reals g).val ρ ∧
      |(x.quantise .reals g).val ρ - x.val ρ| ≤ g.val ρ / 2 ∧
      (x.val ρ ≤ y.val ρ → (x.quantise .reals g).val ρ ≤ (y.quantise .reals g).val ρ) ∧
      (∃ k : ℤ, (x.quantise .reals g).val ρ = k * g.val ρ)) ∧
    (x.val ρ = 0 → (x.quantise .reals g).val ρ = 0)

/-- R215, R216: `BPP` is the entropy, in bits, of the frequencies of the cells' bins. -/
def Obligations.BppIsTheHistogramEntropy : Prop :=
  EncodedAs 0xFC0FFFFF#32 0x64000000#32 (fun w => .bpp (regField w 23) (regField w 20)) ∧
  ∀ (s : State) (sd sa : RegIx), FailsFirst (.bpp sd sa) s ∧
    ∀ x : Arr, s.buf sa = some x → x.shaped = true →
      ∃ t v, exec (.bpp sd sa) s = .next t ∧ Done [] [sd] s t ∧ t.scal sd = some v ∧
        (s.cfg.num = .reals → ∀ (ρ : Nat → ℝ) (bins : List ℤ),
          bins = (regionCells x 0 0 x.rows x.cols).map (idealBinOf ρ s.cfg.bin) →
          v.val ρ = -∑ b ∈ bins.toFinset, ((bins.count b : ℝ) / (x.rows * x.cols : Nat)) *
            Real.logb 2 ((bins.count b : ℝ) / (x.rows * x.cols : Nat)))

/-- R217: for every binning, bits per pixel lie between 0 and log2 of the number of cells; 0 exactly when all cells
share a bin, as equal cells do; the maximum exactly when every cell has its own; and only the multiset of the bins
matters. With the reference binning, adding an integer to every cell changes nothing and different multiples of a step
of at least 1 have different bins. -/
def Obligations.BppBoundsAndExtremes : Prop :=
  ∀ (ρ : Nat → ℝ) (bin : BinRule) (x : Arr), x.shaped = true → 1 ≤ x.rows → 1 ≤ x.cols →
    0 ≤ (x.bpp .reals bin).val ρ ∧ (x.bpp .reals bin).val ρ ≤ Real.logb 2 (x.rows * x.cols : Nat) ∧
    ((x.bpp .reals bin).val ρ = 0 ↔ ∀ a ∈ x.toList, ∀ b ∈ x.toList, idealBinOf ρ bin a = idealBinOf ρ bin b) ∧
    ((∀ a ∈ x.toList, ∀ b ∈ x.toList, a.val ρ = b.val ρ) → (x.bpp .reals bin).val ρ = 0) ∧
    ((x.bpp .reals bin).val ρ = Real.logb 2 (x.rows * x.cols : Nat) ↔ (x.toList.map (idealBinOf ρ bin)).Nodup) ∧
    (∀ y : Arr, (y.toList.map (idealBinOf ρ bin)).Perm (x.toList.map (idealBinOf ρ bin)) →
      (y.bpp .reals bin).val ρ = (x.bpp .reals bin).val ρ) ∧
    (bin = .reference →
      (∀ (y : Arr) (m : ℤ), y.toList.map (NUM.val ρ) = x.toList.map (fun a => a.val ρ + (m : ℝ)) →
        (y.bpp .reals bin).val ρ = (x.bpp .reals bin).val ρ) ∧
      ∀ g : ℝ, 1 ≤ g → (∀ a ∈ x.toList, ∃ k : ℤ, a.val ρ = k * g) →
        ∀ a ∈ x.toList, ∀ b ∈ x.toList, idealBinOf ρ bin a = idealBinOf ρ bin b → a.val ρ = b.val ρ)

/-! ### Number formats -/

/-- R8, R133, R154, R174, R175, R180: over the reals the source's properties, as `Config.Tolerable` reads them (log 16),
hold exactly. -/
def Obligations.RealsMeetTheSourceProperties : Prop := ∀ c : Config, c.num = .reals → c.Tolerable

/-- R8, R131, R141, R212, R213, R216, R219, R229, R234: in a format other than the reals the results of `MKDCT2`,
`COLXFM`, `ROWDEC`, `QUANTISE` and `BPP` are values of that format's own operations at the operands. The whole
composition is the model's choice, log 15 (DESIGN CHOICE): the matrix entry from left to right, no two operations fused,
a sum beginning with its first term, the sign, the absolute value, the maximum and the product `sign(x) * q` exact. The
rules give the formulas and the increasing index of the sums. -/
def Obligations.OtherFormatsUseTheirOwnOperations : Prop :=
  ∀ (s : State) (f : Nat), s.cfg.num = .other f →
    (∀ (ad : RegIx) (n : Nat), 1 ≤ n → n ≤ s.cfg.maxDim →
      ∃ t c, exec (.mkdct2 ad n) s = .next t ∧ Done [ad] [] s t ∧ t.buf ad = some c ∧ c.rows = n ∧ c.cols = n ∧
        ∀ (ρ : Nat → ℝ) (k : Nat), k < n →
          c.val ρ 0 k = arith2 f .div 1 (Config.arithOther f .sqrt [(n : ℝ)]) ∧
          ∀ i, 1 ≤ i → i < n → c.val ρ i k =
            arith2 f .mul (Config.arithOther f .sqrt [arith2 f .div 2 n])
              (Config.arithOther f .cos [arith2 f .div
                (arith2 f .mul (arith2 f .mul (arith2 f .add k (1 / 2)) (Config.arithOther f .pi [])) i) n])) ∧
    (∀ (ad sa ac : RegIx) (x c : Arr), s.buf sa = some x → s.buf ac = some c → c.cols = c.rows →
      x.rows % c.rows = 0 →
      ∃ t y, exec (.colxfm ad sa ac) s = .next t ∧ Done [ad] [] s t ∧ t.buf ad = some y ∧
        ∀ (ρ : Nat → ℝ) (b i j : Nat), b < x.rows / c.rows → i < c.rows → j < x.cols →
          y.val ρ (b * c.rows + i) j =
            formatSum f c.rows fun k => arith2 f .mul (c.val ρ i k) (x.val ρ (b * c.rows + k) j)) ∧
    (∀ (ad sa k : RegIx) (x : Arr), s.buf sa = some x → (s.kern k).length % 2 = 1 → x.cols % 2 = 0 →
      ∃ t y, exec (.rowdec ad sa k) s = .next t ∧ Done [ad] [] s t ∧ t.buf ad = some y ∧
        ∀ (ρ : Nat → ℝ) (r u : Nat), r < x.rows → u < x.cols / 2 →
          y.val ρ r u = formatSum f (s.kern k).length fun a =>
            arith2 f .mul (((s.kern k).getD a NUM.zero).val ρ)
              (x.val ρ r (refl x.cols ((2 * u + ((s.kern k).length - 1) / 2 : Nat) - (a : Int))))) ∧
    (∀ (ad sa ss : RegIx) (x : Arr) (g : NUM), s.buf sa = some x → s.scal ss = some g →
      ∃ t y, exec (.quantise ad sa ss) s = .next t ∧ Done [ad] [] s t ∧ t.buf ad = some y ∧
        ∀ (ρ : Nat → ℝ) (r c : Nat), r < x.rows → c < x.cols →
          y.val ρ r c = formatQuantise f (x.val ρ r c) (g.val ρ)) ∧
    (∀ (sd sa : RegIx) (x : Arr), s.buf sa = some x →
      ∃ t v, exec (.bpp sd sa) s = .next t ∧ Done [] [sd] s t ∧ t.scal sd = some v ∧
        ∀ ρ : Nat → ℝ, v.val ρ =
          formatEntropy f (x.toList.map fun a => s.cfg.bin.binVal (.other f) (a.val ρ)))

end
end

