-- ==== Sys2Proof/Laws/Arr.lean ====
section
/-!
SUPPORT. Cells and shapes of the arrays that the operations of `Machine/Arr.lean` and the command functions build
(rules R13, R22).
-/

namespace Sys2Proof

@[simp] theorem Arr.rows_ofFn (m n : Nat) (f : Nat → Nat → NUM) : (Arr.ofFn m n f).rows = m := rfl
@[simp] theorem Arr.cols_ofFn (m n : Nat) (f : Nat → Nat → NUM) : (Arr.ofFn m n f).cols = n := rfl

theorem Arr.get_ofFn {m n r c : Nat} (f : Nat → Nat → NUM) (hr : r < m) (hc : c < n) :
    (Arr.ofFn m n f).get r c = f r c := by
  simp [Arr.get, Arr.ofFn, List.getD_eq_getElem?_getD, hr, hc]

@[simp] theorem Arr.shaped_ofFn (m n : Nat) (f : Nat → Nat → NUM) : (Arr.ofFn m n f).shaped = true := by
  simp [Arr.shaped, Arr.ofFn]

/-- A shaped array is built from its own cells, so equal cells and shapes make equal arrays. -/
theorem Arr.ofFn_get (x : Arr) (h : x.shaped = true) : Arr.ofFn x.rows x.cols x.get = x := by
  obtain ⟨m, n, cells⟩ := x
  simp only [Arr.shaped, Bool.and_eq_true, decide_eq_true_eq, List.all_eq_true] at h
  obtain ⟨hlen, hall⟩ := h
  simp only [Arr.ofFn, Arr.mk.injEq, true_and]
  apply List.ext_getElem (by simp [hlen])
  intro r h1 h2
  simp only [List.getElem_map, List.getElem_range]
  have hrow := hall _ (List.getElem_mem h2)
  apply List.ext_getElem (by simp [hrow])
  intro c h3 h4
  simp [Arr.get, List.getD_eq_getElem?_getD, h2, h4]

theorem Arr.ext_get {x y : Arr} (hx : x.shaped = true) (hy : y.shaped = true) (hr : x.rows = y.rows)
    (hc : x.cols = y.cols) (h : ∀ r c, r < x.rows → c < x.cols → x.get r c = y.get r c) : x = y := by
  rw [← Arr.ofFn_get x hx, ← Arr.ofFn_get y hy, ← hr, ← hc]
  simp only [Arr.ofFn, Arr.mk.injEq, true_and]
  apply List.map_congr_left
  intro r hr'
  apply List.map_congr_left
  intro c hc'
  exact h r c (List.mem_range.mp hr') (List.mem_range.mp hc')

@[simp] theorem Arr.rows_transpose (x : Arr) : x.transpose.rows = x.cols := rfl
@[simp] theorem Arr.cols_transpose (x : Arr) : x.transpose.cols = x.rows := rfl
@[simp] theorem Arr.rows_sub (x : Arr) (r0 c0 m n : Nat) : (x.sub r0 c0 m n).rows = m := rfl
@[simp] theorem Arr.cols_sub (x : Arr) (r0 c0 m n : Nat) : (x.sub r0 c0 m n).cols = n := rfl
@[simp] theorem Arr.rows_paste (x : Arr) (r0 c0 : Nat) (p : Arr) : (x.paste r0 c0 p).rows = x.rows := rfl
@[simp] theorem Arr.cols_paste (x : Arr) (r0 c0 : Nat) (p : Arr) : (x.paste r0 c0 p).cols = x.cols := rfl
@[simp] theorem Arr.rows_setCell (x : Arr) (r c : Nat) (v : NUM) : (x.setCell r c v).rows = x.rows := rfl
@[simp] theorem Arr.cols_setCell (x : Arr) (r c : Nat) (v : NUM) : (x.setCell r c v).cols = x.cols := rfl
@[simp] theorem Arr.rows_beside (p q : Arr) : (p.beside q).rows = p.rows := rfl
@[simp] theorem Arr.cols_beside (p q : Arr) : (p.beside q).cols = p.cols + q.cols := rfl
@[simp] theorem Arr.rows_above (p q : Arr) : (p.above q).rows = p.rows + q.rows := rfl
@[simp] theorem Arr.cols_above (p q : Arr) : (p.above q).cols = p.cols := rfl
@[simp] theorem Arr.rows_plus (f : NumFormat) (p q : Arr) : (p.plus f q).rows = p.rows := rfl
@[simp] theorem Arr.cols_plus (f : NumFormat) (p q : Arr) : (p.plus f q).cols = p.cols := rfl
@[simp] theorem Arr.rows_map (f : NUM → NUM) (x : Arr) : (x.map f).rows = x.rows := rfl
@[simp] theorem Arr.cols_map (f : NUM → NUM) (x : Arr) : (x.map f).cols = x.cols := rfl
@[simp] theorem Arr.rows_quantise (f : NumFormat) (x : Arr) (s : NUM) : (x.quantise f s).rows = x.rows := rfl
@[simp] theorem Arr.cols_quantise (f : NumFormat) (x : Arr) (s : NUM) : (x.quantise f s).cols = x.cols := rfl

theorem Arr.get_transpose {x : Arr} {r c : Nat} (hr : r < x.rows) (hc : c < x.cols) :
    x.transpose.get c r = x.get r c := Arr.get_ofFn _ hc hr

theorem Arr.get_sub {x : Arr} {r0 c0 m n r c : Nat} (hr : r < m) (hc : c < n) :
    (x.sub r0 c0 m n).get r c = x.get (r0 + r) (c0 + c) := Arr.get_ofFn _ hr hc

theorem Arr.get_map {f : NUM → NUM} {x : Arr} {r c : Nat} (hr : r < x.rows) (hc : c < x.cols) :
    (x.map f).get r c = f (x.get r c) := Arr.get_ofFn _ hr hc

/-- A write to one cell (rule R43): that cell holds the value and every other keeps its own. -/
theorem Arr.get_setCell {x : Arr} {r c : Nat} (v : NUM) (hx : x.shaped = true) (hr : r < x.rows) (hc : c < x.cols)
    (r' c' : Nat) : (x.setCell r c v).get r' c' = if r' = r ∧ c' = c then v else x.get r' c' := by
  simp only [Arr.shaped, Bool.and_eq_true, decide_eq_true_eq, List.all_eq_true] at hx
  obtain ⟨hlen, hall⟩ := hx
  have hr2 : r < x.cells.length := by omega
  have hrow := hall _ (List.getElem_mem hr2)
  have hc2 : c < x.cells[r].length := by omega
  simp only [Arr.get, Arr.setCell, List.getD_eq_getElem?_getD, List.getElem?_set]
  by_cases h1 : r' = r
  · subst h1
    simp only [hr2, if_true, true_and, Option.getD_some, List.getElem?_eq_getElem, List.getElem?_set]
    by_cases h2 : c' = c
    · subst h2; simp [hc2]
    · simp [h2, Ne.symm h2]
  · simp [h1, Ne.symm h1]

theorem Arr.shaped_setCell {x : Arr} (r c : Nat) (v : NUM) (hx : x.shaped = true) :
    (x.setCell r c v).shaped = true := by
  simp only [Arr.shaped, Bool.and_eq_true, decide_eq_true_eq, List.all_eq_true] at hx ⊢
  obtain ⟨hlen, hall⟩ := hx
  refine ⟨by simpa [Arr.setCell] using hlen, ?_⟩
  intro row hm
  simp only [Arr.setCell] at hm
  rcases List.mem_or_eq_of_mem_set hm with h | h
  · exact hall row h
  · by_cases hr : r < x.cells.length
    · rw [h, List.length_set, List.getD_eq_getElem?_getD, List.getElem?_eq_getElem hr]
      exact hall _ (List.getElem_mem hr)
    · rw [List.set_eq_of_length_le (not_lt.mp hr)] at hm
      exact hall row hm

namespace Machine

@[simp] theorem rows_colxfm (f : NumFormat) (x c : Arr) : (colxfm f x c).rows = x.rows := rfl
@[simp] theorem cols_colxfm (f : NumFormat) (x c : Arr) : (colxfm f x c).cols = x.cols := rfl
@[simp] theorem rows_separable (f : NumFormat) (x c : Arr) : (separable f x c).rows = x.rows := rfl
@[simp] theorem cols_separable (f : NumFormat) (x c : Arr) : (separable f x c).cols = x.cols := rfl
@[simp] theorem rows_dwt (f : NumFormat) (x : Arr) (h1 h2 : List NUM) : (dwt f x h1 h2).rows = x.rows / 2 + x.rows / 2 := rfl
@[simp] theorem cols_dwt (f : NumFormat) (x : Arr) (h1 h2 : List NUM) : (dwt f x h1 h2).cols = x.cols / 2 + x.cols / 2 := rfl
@[simp] theorem rows_idwt (f : NumFormat) (x : Arr) (g1 g2 : List NUM) : (idwt f x g1 g2).rows = x.rows := rfl
@[simp] theorem cols_idwt (f : NumFormat) (x : Arr) (g1 g2 : List NUM) : (idwt f x g1 g2).cols = 2 * (x.cols / 2) := rfl
@[simp] theorem rows_regroup (x : Arr) (n1 n2 : Nat) : (regroup x n1 n2).rows = x.rows := rfl
@[simp] theorem cols_regroup (x : Arr) (n1 n2 : Nat) : (regroup x n1 n2).cols = x.cols := rfl
@[simp] theorem rows_rowdec (f : NumFormat) (x : Arr) (h : List NUM) : (rowdec f x h).rows = x.rows := rfl
@[simp] theorem cols_rowdec (f : NumFormat) (x : Arr) (h : List NUM) : (rowdec f x h).cols = x.cols / 2 := rfl
@[simp] theorem rows_rowdec2 (f : NumFormat) (x : Arr) (h : List NUM) : (rowdec2 f x h).rows = x.rows := rfl
@[simp] theorem cols_rowdec2 (f : NumFormat) (x : Arr) (h : List NUM) : (rowdec2 f x h).cols = x.cols / 2 := rfl
@[simp] theorem rows_rowint (f : NumFormat) (x : Arr) (g : List NUM) : (rowint f x g).rows = x.rows := rfl
@[simp] theorem cols_rowint (f : NumFormat) (x : Arr) (g : List NUM) : (rowint f x g).cols = 2 * x.cols := rfl
@[simp] theorem rows_rowint2 (f : NumFormat) (x : Arr) (g : List NUM) : (rowint2 f x g).rows = x.rows := rfl
@[simp] theorem cols_rowint2 (f : NumFormat) (x : Arr) (g : List NUM) : (rowint2 f x g).cols = 2 * x.cols := rfl

@[simp] theorem rows_dwtLevels (f : NumFormat) (n mr mc : Nat) (z : Arr) : (dwtLevels f n mr mc z).rows = z.rows := by
  induction n generalizing mr mc z with
  | zero => rfl
  | succ n ih => rw [dwtLevels, ih, Arr.rows_paste]

@[simp] theorem cols_dwtLevels (f : NumFormat) (n mr mc : Nat) (z : Arr) : (dwtLevels f n mr mc z).cols = z.cols := by
  induction n generalizing mr mc z with
  | zero => rfl
  | succ n ih => rw [dwtLevels, ih, Arr.cols_paste]

@[simp] theorem rows_idwtLevels (f : NumFormat) (n mr mc : Nat) (z : Arr) : (idwtLevels f n mr mc z).rows = z.rows := by
  induction n generalizing mr mc z with
  | zero => rfl
  | succ n ih => rw [idwtLevels, ih, Arr.rows_paste]

@[simp] theorem cols_idwtLevels (f : NumFormat) (n mr mc : Nat) (z : Arr) : (idwtLevels f n mr mc z).cols = z.cols := by
  induction n generalizing mr mc z with
  | zero => rfl
  | succ n ih => rw [idwtLevels, ih, Arr.cols_paste]

/-- The levels keep the shape of a buffer's contents (rule R22). -/
theorem shaped_dwtLevels (f : NumFormat) (n mr mc : Nat) (z : Arr) (h : z.shaped = true) : (dwtLevels f n mr mc z).shaped = true := by
  induction n generalizing mr mc z with
  | zero => exact h
  | succ n ih => exact ih _ _ _ (Arr.shaped_ofFn _ _ _)

theorem shaped_idwtLevels (f : NumFormat) (n mr mc : Nat) (z : Arr) (h : z.shaped = true) : (idwtLevels f n mr mc z).shaped = true := by
  induction n generalizing mr mc z with
  | zero => exact h
  | succ n ih => exact ih _ _ _ (Arr.shaped_ofFn _ _ _)

/-- `refl_c` answers a sample of the row (rule R226). -/
theorem refl_lt {c : Nat} (h : 1 ≤ c) (j : Int) : refl c j < c := by
  unfold refl
  split
  · omega
  · have h1 := Int.emod_nonneg j (b := ((2 * (c - 1) : Nat) : Int)) (by omega)
    have h2 := Int.emod_lt_of_pos j (b := ((2 * (c - 1) : Nat) : Int)) (by omega)
    simp only
    split <;> omega

end Machine

end Sys2Proof
end

