-- ==== Sys2Proof/Laws/Decode.lean ====
section
/-!
SUPPORT. The fields of a word that the encoder writes (rules R91 to R95), one lemma per format and field, and the
opcode map read both ways (rule R97).
-/

namespace Sys2Proof

@[simp] theorem opcodeOf_code (op : Opcode) : opcodeOf op.code = some op := by cases op <;> rfl

theorem code_of_opcodeOf {n : Nat} {op : Opcode} (h : opcodeOf n = some op) : op.code = n := by
  unfold opcodeOf at h
  split at h <;> first | (cases h; rfl) | cases h

theorem Opcode.code_lt (op : Opcode) : op.code < 64 := by cases op <;> decide

/-- A register index that went through its 3-bit field. -/
theorem toFin_ofNat_three (r : RegIx) : ((BitVec.ofNat 3 r.val).toFin : RegIx) = r := by
  revert r; decide

theorem toNat_ofNat_ten {n : Nat} (h : n < 1024) : (BitVec.ofNat 10 n).toNat = n := by
  rw [BitVec.toNat_ofNat]; exact Nat.mod_eq_of_lt h

theorem toNat_ofNat_three {n : Nat} (h : n < 8) : (BitVec.ofNat 3 n).toNat = n := by
  rw [BitVec.toNat_ofNat]; exact Nat.mod_eq_of_lt h

variable (op : Opcode) (f1 f2 f3 f4 k1 k2 n1 n2 i layer n : Nat)

theorem formatN_op : (formatN op f1 f2 n1 n2).extractLsb' 26 6 = BitVec.ofNat 6 op.code := by
  apply BitVec.eq_of_getLsbD_eq
  intro j hj
  interval_cases j <;> simp only [formatN, BitVec.getLsbD_extractLsb', BitVec.getLsbD_cast, BitVec.getLsbD_append] <;> simp

theorem formatN_f1 : (formatN op f1 f2 n1 n2).extractLsb' 23 3 = BitVec.ofNat 3 f1 := by
  apply BitVec.eq_of_getLsbD_eq
  intro j hj
  interval_cases j <;> simp only [formatN, BitVec.getLsbD_extractLsb', BitVec.getLsbD_cast, BitVec.getLsbD_append] <;> simp

theorem formatN_f2 : (formatN op f1 f2 n1 n2).extractLsb' 20 3 = BitVec.ofNat 3 f2 := by
  apply BitVec.eq_of_getLsbD_eq
  intro j hj
  interval_cases j <;> simp only [formatN, BitVec.getLsbD_extractLsb', BitVec.getLsbD_cast, BitVec.getLsbD_append] <;> simp

theorem formatN_n1 : (formatN op f1 f2 n1 n2).extractLsb' 10 10 = BitVec.ofNat 10 n1 := by
  apply BitVec.eq_of_getLsbD_eq
  intro j hj
  interval_cases j <;> simp only [formatN, BitVec.getLsbD_extractLsb', BitVec.getLsbD_cast, BitVec.getLsbD_append] <;> simp

theorem formatN_n2 : (formatN op f1 f2 n1 n2).extractLsb' 0 10 = BitVec.ofNat 10 n2 := by
  apply BitVec.eq_of_getLsbD_eq
  intro j hj
  interval_cases j <;> simp only [formatN, BitVec.getLsbD_extractLsb', BitVec.getLsbD_cast, BitVec.getLsbD_append] <;> simp

theorem formatR_op : (formatR op f1 f2 f3 f4 k1 k2).extractLsb' 26 6 = BitVec.ofNat 6 op.code := by
  apply BitVec.eq_of_getLsbD_eq
  intro j hj
  interval_cases j <;> simp only [formatR, BitVec.getLsbD_extractLsb', BitVec.getLsbD_cast, BitVec.getLsbD_append] <;> simp

theorem formatR_f1 : (formatR op f1 f2 f3 f4 k1 k2).extractLsb' 23 3 = BitVec.ofNat 3 f1 := by
  apply BitVec.eq_of_getLsbD_eq
  intro j hj
  interval_cases j <;> simp only [formatR, BitVec.getLsbD_extractLsb', BitVec.getLsbD_cast, BitVec.getLsbD_append] <;> simp

theorem formatR_f2 : (formatR op f1 f2 f3 f4 k1 k2).extractLsb' 20 3 = BitVec.ofNat 3 f2 := by
  apply BitVec.eq_of_getLsbD_eq
  intro j hj
  interval_cases j <;> simp only [formatR, BitVec.getLsbD_extractLsb', BitVec.getLsbD_cast, BitVec.getLsbD_append] <;> simp

theorem formatR_f3 : (formatR op f1 f2 f3 f4 k1 k2).extractLsb' 17 3 = BitVec.ofNat 3 f3 := by
  apply BitVec.eq_of_getLsbD_eq
  intro j hj
  interval_cases j <;> simp only [formatR, BitVec.getLsbD_extractLsb', BitVec.getLsbD_cast, BitVec.getLsbD_append] <;> simp

theorem formatR_f4 : (formatR op f1 f2 f3 f4 k1 k2).extractLsb' 14 3 = BitVec.ofNat 3 f4 := by
  apply BitVec.eq_of_getLsbD_eq
  intro j hj
  interval_cases j <;> simp only [formatR, BitVec.getLsbD_extractLsb', BitVec.getLsbD_cast, BitVec.getLsbD_append] <;> simp

theorem formatR_k1 : (formatR op f1 f2 f3 f4 k1 k2).extractLsb' 11 3 = BitVec.ofNat 3 k1 := by
  apply BitVec.eq_of_getLsbD_eq
  intro j hj
  interval_cases j <;> simp only [formatR, BitVec.getLsbD_extractLsb', BitVec.getLsbD_cast, BitVec.getLsbD_append] <;> simp

theorem formatR_k2 : (formatR op f1 f2 f3 f4 k1 k2).extractLsb' 8 3 = BitVec.ofNat 3 k2 := by
  apply BitVec.eq_of_getLsbD_eq
  intro j hj
  interval_cases j <;> simp only [formatR, BitVec.getLsbD_extractLsb', BitVec.getLsbD_cast, BitVec.getLsbD_append] <;> simp

theorem formatR_zero : (formatR op f1 f2 f3 f4 k1 k2).extractLsb' 0 8 = BitVec.ofNat 8 0 := by
  apply BitVec.eq_of_getLsbD_eq
  intro j hj
  interval_cases j <;> simp only [formatR, BitVec.getLsbD_extractLsb', BitVec.getLsbD_cast, BitVec.getLsbD_append] <;> simp

theorem formatE_op : (formatE op f1 i layer n).extractLsb' 26 6 = BitVec.ofNat 6 op.code := by
  apply BitVec.eq_of_getLsbD_eq
  intro j hj
  interval_cases j <;> simp only [formatE, BitVec.getLsbD_extractLsb', BitVec.getLsbD_cast, BitVec.getLsbD_append] <;> simp

theorem formatE_f1 : (formatE op f1 i layer n).extractLsb' 23 3 = BitVec.ofNat 3 f1 := by
  apply BitVec.eq_of_getLsbD_eq
  intro j hj
  interval_cases j <;> simp only [formatE, BitVec.getLsbD_extractLsb', BitVec.getLsbD_cast, BitVec.getLsbD_append] <;> simp

theorem formatE_i : (formatE op f1 i layer n).extractLsb' 20 3 = BitVec.ofNat 3 i := by
  apply BitVec.eq_of_getLsbD_eq
  intro j hj
  interval_cases j <;> simp only [formatE, BitVec.getLsbD_extractLsb', BitVec.getLsbD_cast, BitVec.getLsbD_append] <;> simp

theorem formatE_layer : (formatE op f1 i layer n).extractLsb' 10 10 = BitVec.ofNat 10 layer := by
  apply BitVec.eq_of_getLsbD_eq
  intro j hj
  interval_cases j <;> simp only [formatE, BitVec.getLsbD_extractLsb', BitVec.getLsbD_cast, BitVec.getLsbD_append] <;> simp

theorem formatE_n : (formatE op f1 i layer n).extractLsb' 0 10 = BitVec.ofNat 10 n := by
  apply BitVec.eq_of_getLsbD_eq
  intro j hj
  interval_cases j <;> simp only [formatE, BitVec.getLsbD_extractLsb', BitVec.getLsbD_cast, BitVec.getLsbD_append] <;> simp

theorem formatZ_op : (formatZ op).extractLsb' 26 6 = BitVec.ofNat 6 op.code := by cases op <;> decide

end Sys2Proof
end

