-- ==== Sys2Proof/Laws/Num.lean ====
section
/-!
SUPPORT. The arithmetic of `NUM` computes the ideal results of rule R8: the real number of a sum is the sum of the
real numbers, and so on for every primitive of rule R15.
-/

namespace Sys2Proof

/-! ### Rational combinations of surds -/

@[simp] theorem Alg.val_ofRat (q : Rat) : (Alg.ofRat q).val = (q : ℝ) := by simp [Alg.ofRat, Alg.val]

theorem Surd.val_of_coef_zero (t : Surd) (h : t.coef = 0) : t.val = 0 := by simp [Surd.val, h]

theorem Alg.sum_insertSurd (t : Surd) (us : List Surd) :
    ((Alg.insertSurd t us).map Surd.val).sum = t.val + (us.map Surd.val).sum := by
  induction us with
  | nil =>
    by_cases h : t.coef = 0
    · simp [Alg.insertSurd, h, Surd.val]
    · simp [Alg.insertSurd, h]
  | cons u us ih =>
    unfold Alg.insertSurd
    split
    · rename_i hk
      have hsum : t.val + u.val = ((t.coef + u.coef : Rat) : ℝ) * Real.sqrt (u.rad : ℝ) *
          Real.cos (Real.pi * (u.ang : ℝ)) := by
        simp only [Surd.val, hk.1, hk.2]; push_cast; ring
      split
      · rename_i h0
        rw [h0] at hsum
        simp only [List.map_cons, List.sum_cons, ← add_assoc, hsum]
        simp
      · simp only [List.map_cons, List.sum_cons, ← add_assoc, hsum]
        rfl
    · split
      · split
        · rename_i h0
          simp [Surd.val_of_coef_zero t h0]
        · simp
      · simp only [List.map_cons, List.sum_cons, ih]; ring

@[simp] theorem Alg.val_add (a b : Alg) : (a.add b).val = a.val + b.val := by
  have h : ∀ ts us : List Surd, ((ts.foldr Alg.insertSurd us).map Surd.val).sum =
      (ts.map Surd.val).sum + (us.map Surd.val).sum := by
    intro ts us
    induction ts with
    | nil => simp
    | cons t ts ih => simp only [List.foldr_cons, Alg.sum_insertSurd, ih, List.map_cons, List.sum_cons]; ring
  simp only [Alg.add, Alg.val, h]; push_cast; ring

theorem Alg.sum_scale (q : Rat) (us : List Surd) :
    ((us.map fun t => (⟨q * t.coef, t.rad, t.ang⟩ : Surd)).map Surd.val).sum = (q : ℝ) * (us.map Surd.val).sum := by
  induction us with
  | nil => simp
  | cons u us ih => simp only [List.map_cons, List.sum_cons, ih, Surd.val]; push_cast; ring

@[simp] theorem Alg.val_scale (q : Rat) (a : Alg) : (a.scale q).val = (q : ℝ) * a.val := by
  unfold Alg.scale
  split
  · rename_i h; simp [h]
  · simp only [Alg.val, Alg.sum_scale]; push_cast; ring

@[simp] theorem Alg.val_radical (c : Rat) (n : Nat) :
    (Alg.radical c n).val = (c : ℝ) * Real.sqrt (n : ℝ) := by
  unfold Alg.radical
  split
  · rename_i h; rcases h with h | h <;> simp [h]
  · split
    · rename_i h; simp [h]
    · simp [Alg.val, Surd.val]

/-- A common factor leaves the root: `sqrt m * sqrt n = g * sqrt ((m/g) * (n/g))`. -/
theorem sqrt_mul_sqrt_gcd (m n : Nat) :
    Real.sqrt (m : ℝ) * Real.sqrt (n : ℝ) =
      (Nat.gcd m n : ℝ) * Real.sqrt (((m / Nat.gcd m n) * (n / Nat.gcd m n) : Nat) : ℝ) := by
  obtain ⟨a, ha⟩ := Nat.gcd_dvd_left m n
  obtain ⟨b, hb⟩ := Nat.gcd_dvd_right m n
  rcases Nat.eq_zero_or_pos (Nat.gcd m n) with h0 | hpos
  · have : m = 0 := by rw [ha, h0, zero_mul]
    simp [this]
  · have h1 : m / Nat.gcd m n = a := Nat.div_eq_of_eq_mul_right hpos ha
    have h2 : n / Nat.gcd m n = b := Nat.div_eq_of_eq_mul_right hpos hb
    rw [h1, h2, ← Real.sqrt_mul (Nat.cast_nonneg m)]
    have hm : (m : ℝ) = (Nat.gcd m n : ℝ) * (a : ℝ) := by exact_mod_cast ha
    have hn : (n : ℝ) = (Nat.gcd m n : ℝ) * (b : ℝ) := by exact_mod_cast hb
    have h3 : (m : ℝ) * (n : ℝ) = (Nat.gcd m n : ℝ) ^ 2 * ((a * b : Nat) : ℝ) := by
      push_cast
      linear_combination (n : ℝ) * hm + (Nat.gcd m n : ℝ) * (a : ℝ) * hn
    rw [h3, Real.sqrt_mul (sq_nonneg _), Real.sqrt_sq (Nat.cast_nonneg _)]

@[simp] theorem Alg.val_radical2 (c : Rat) (m n : Nat) :
    (Alg.radical2 c m n).val = (c : ℝ) * Real.sqrt (m : ℝ) * Real.sqrt (n : ℝ) := by
  rw [Alg.radical2, Alg.val_radical, mul_assoc (c : ℝ), sqrt_mul_sqrt_gcd]
  push_cast; ring

theorem Alg.val_quadrant (c : Rat) (n : Nat) (b : Rat) :
    (Alg.quadrant c n b).val = (c : ℝ) * Real.sqrt (n : ℝ) * Real.cos (Real.pi * (b : ℝ)) := by
  unfold Alg.quadrant
  split
  · rename_i h; simp [h]
  split
  · rename_i h
    have : Real.pi * ((1 / 2 : Rat) : ℝ) = Real.pi / 2 := by push_cast; ring
    rw [h, this]; simp
  split
  · rename_i h
    have : Real.pi * ((1 / 3 : Rat) : ℝ) = Real.pi / 3 := by push_cast; ring
    rw [h, this, Real.cos_pi_div_three, Alg.val_radical]; push_cast; ring
  split
  · rename_i h
    have : Real.pi * ((1 / 4 : Rat) : ℝ) = Real.pi / 4 := by push_cast; ring
    rw [h, this, Real.cos_pi_div_four, Alg.val_radical2]; push_cast; ring
  split
  · rename_i h
    have : Real.pi * ((1 / 6 : Rat) : ℝ) = Real.pi / 6 := by push_cast; ring
    rw [h, this, Real.cos_pi_div_six, Alg.val_radical2]; push_cast; ring
  split
  · rename_i h; rcases h with h | h <;> simp [h]
  · simp [Alg.val, Surd.val]

theorem Alg.cos_foldAngle (r : Rat) :
    Real.cos (Real.pi * (Alg.foldAngle r : ℝ)) = Real.cos (Real.pi * (r : ℝ)) := by
  have key : ∀ k : ℤ, Real.cos (Real.pi * ((r - 2 * (k : Rat) : Rat) : ℝ)) = Real.cos (Real.pi * (r : ℝ)) := by
    intro k
    have : Real.pi * ((r - 2 * (k : Rat) : Rat) : ℝ) = Real.pi * (r : ℝ) - (k : ℝ) * (2 * Real.pi) := by
      push_cast; ring
    rw [this, Real.cos_sub_int_mul_two_pi]
  unfold Alg.foldAngle
  simp only
  split
  · rw [← key (r / 2).floor]
    have : Real.pi * ((2 - (r - 2 * ((r / 2).floor : Rat)) : Rat) : ℝ) =
        2 * Real.pi - Real.pi * ((r - 2 * ((r / 2).floor : Rat) : Rat) : ℝ) := by push_cast; ring
    rw [this, Real.cos_two_pi_sub]
  · exact key _

@[simp] theorem Alg.val_cosine (c : Rat) (n : Nat) (r : Rat) :
    (Alg.cosine c n r).val = (c : ℝ) * Real.sqrt (n : ℝ) * Real.cos (Real.pi * (r : ℝ)) := by
  rw [← Alg.cos_foldAngle r]
  unfold Alg.cosine
  simp only
  split
  · rw [Alg.val_quadrant]
    have : Real.pi * ((1 - Alg.foldAngle r : Rat) : ℝ) = Real.pi - Real.pi * (Alg.foldAngle r : ℝ) := by
      push_cast; ring
    rw [this, Real.cos_pi_sub]; push_cast; ring
  · rw [Alg.val_quadrant]

theorem Surd.val_mul (t u : Surd) : (t.mul u).val = t.val * u.val := by
  have hs := sqrt_mul_sqrt_gcd t.rad u.rad
  unfold Surd.mul
  simp only
  split
  · rename_i h
    rw [Alg.val_cosine]
    simp only [Surd.val, h]
    push_cast
    simp only [mul_zero, Real.cos_zero, mul_one]
    push_cast at hs
    linear_combination (-(t.coef : ℝ) * (u.coef : ℝ) * Real.cos (Real.pi * (u.ang : ℝ))) * hs
  split
  · rename_i h
    rw [Alg.val_cosine]
    simp only [Surd.val, h]
    push_cast
    simp only [mul_zero, Real.cos_zero, mul_one]
    push_cast at hs
    linear_combination (-(t.coef : ℝ) * (u.coef : ℝ) * Real.cos (Real.pi * (t.ang : ℝ))) * hs
  · have e1 : Real.pi * ((t.ang + u.ang : Rat) : ℝ) = Real.pi * (t.ang : ℝ) + Real.pi * (u.ang : ℝ) := by
      push_cast; ring
    have e2 : Real.pi * ((t.ang - u.ang : Rat) : ℝ) = Real.pi * (t.ang : ℝ) - Real.pi * (u.ang : ℝ) := by
      push_cast; ring
    rw [Alg.val_add, Alg.val_cosine, Alg.val_cosine, e1, e2, Real.cos_add, Real.cos_sub]
    simp only [Surd.val]
    push_cast at hs ⊢
    linear_combination (-(t.coef : ℝ) * (u.coef : ℝ) * Real.cos (Real.pi * (t.ang : ℝ)) *
      Real.cos (Real.pi * (u.ang : ℝ))) * hs

theorem Surd.val_mulList (t : Surd) (us : List Surd) :
    (t.mulList us).val = t.val * (us.map Surd.val).sum := by
  induction us with
  | nil => simp [Surd.mulList]
  | cons u us ih => simp only [Surd.mulList, Alg.val_add, Surd.val_mul, ih, List.map_cons, List.sum_cons]; ring

theorem Alg.val_mulIrr (ts us : List Surd) :
    (Alg.mulIrr ts us).val = (ts.map Surd.val).sum * (us.map Surd.val).sum := by
  induction ts with
  | nil => simp [Alg.mulIrr]
  | cons t ts ih =>
    simp only [Alg.mulIrr, Alg.val_add, Surd.val_mulList, ih, List.map_cons, List.sum_cons]; ring

@[simp] theorem Alg.val_mul (a b : Alg) : (a.mul b).val = a.val * b.val := by
  unfold Alg.mul
  split
  · rename_i h; rw [Alg.val_scale]; simp [Alg.val, h]
  split
  · rename_i h; rw [Alg.val_scale, mul_comm]; simp [Alg.val, h]
  · simp only [Alg.val_add, Alg.val_scale, Alg.val_mulIrr]
    simp only [Alg.val]; push_cast; ring

theorem Alg.squareFactorUpTo_sq_dvd (k m : Nat) :
    Alg.squareFactorUpTo k m * Alg.squareFactorUpTo k m ∣ m ∧ 0 < Alg.squareFactorUpTo k m := by
  induction k with
  | zero => simp [Alg.squareFactorUpTo]
  | succ k ih =>
    unfold Alg.squareFactorUpTo
    split
    · rename_i h; exact ⟨Nat.dvd_of_mod_eq_zero h, Nat.succ_pos k⟩
    · exact ih

@[simp] theorem Alg.val_sqrt (q : Rat) : (Alg.sqrt q).val = Real.sqrt (q : ℝ) := by
  have hden : (0 : ℝ) < (q.den : ℝ) := by exact_mod_cast q.pos
  unfold Alg.sqrt
  simp only [Alg.val_radical, Alg.squareFactor]
  generalize hm : q.num.toNat * q.den = m
  obtain ⟨⟨d, hd⟩, hpos⟩ := Alg.squareFactorUpTo_sq_dvd (2 ^ (m.log2 / 2 + 1)) m
  generalize Alg.squareFactorUpTo (2 ^ (m.log2 / 2 + 1)) m = j at hd hpos
  have hq : m / (j * j) = d := Nat.div_eq_of_eq_mul_right (Nat.mul_pos hpos hpos) hd
  rw [hq]
  have hj : Real.sqrt (m : ℝ) = (j : ℝ) * Real.sqrt (d : ℝ) := by
    rw [hd]; push_cast
    rw [Real.sqrt_mul (by positivity), ← pow_two, Real.sqrt_sq (Nat.cast_nonneg j)]
  have hmain : Real.sqrt (q : ℝ) = Real.sqrt (m : ℝ) / (q.den : ℝ) := by
    rcases le_or_gt q.num 0 with h | h
    · have hq0 : (q : ℝ) ≤ 0 := by exact_mod_cast Rat.num_nonpos.mp h
      have hm0 : m = 0 := by rw [← hm, Int.toNat_of_nonpos h, zero_mul]
      rw [Real.sqrt_eq_zero_of_nonpos hq0, hm0]; simp
    · have hnum : ((q.num.toNat : ℕ) : ℝ) = (q.num : ℝ) := by
        have : ((q.num.toNat : ℕ) : ℤ) = q.num := Int.toNat_of_nonneg h.le
        exact_mod_cast this
      have hqd : (q : ℝ) = (q.num : ℝ) / (q.den : ℝ) := by exact_mod_cast (Rat.num_div_den q).symm
      have hmr : (m : ℝ) = (q : ℝ) * (q.den : ℝ) ^ 2 := by
        rw [← hm]; push_cast; rw [hnum, hqd]; field_simp
      rw [hmr, Real.sqrt_mul (by rw [hqd]; positivity), Real.sqrt_sq hden.le]
      field_simp
  rw [hmain, hj]; push_cast; ring

/-! ### Values of `NUM` -/

@[simp] theorem NUM.val_alg (ρ : Nat → ℝ) (a : Alg) : (NUM.alg a).val ρ = a.val := by simp [NUM.val]
@[simp] theorem NUM.val_real (ρ : Nat → ℝ) (k : Nat) : (NUM.real k).val ρ = ρ k := by simp [NUM.val]
@[simp] theorem NUM.val_add (ρ : Nat → ℝ) (x y : NUM) : (NUM.add x y).val ρ = x.val ρ + y.val ρ := by simp [NUM.val]
@[simp] theorem NUM.val_mul (ρ : Nat → ℝ) (x y : NUM) : (NUM.mul x y).val ρ = x.val ρ * y.val ρ := by simp [NUM.val]
@[simp] theorem NUM.val_log2 (ρ : Nat → ℝ) (q : Rat) : (NUM.log2 q).val ρ = Real.logb 2 (q : ℝ) := by simp [NUM.val]
@[simp] theorem NUM.val_quant (ρ : Nat → ℝ) (f : NumFormat) (x s : NUM) :
    (NUM.quant f x s).val ρ = f.quantiseVal (x.val ρ) (s.val ρ) := by simp [NUM.val]
@[simp] theorem NUM.val_bpp (ρ : Nat → ℝ) (f : NumFormat) (bin : BinRule) (cs : NUMList) :
    (NUM.bpp f bin cs).val ρ = f.entropyVal ((cs.vals ρ).map (bin.binVal f)) := by simp [NUM.val]
@[simp] theorem NUM.val_op (ρ : Nat → ℝ) (k : Nat) (o : NumOp) (xs : NUMList) :
    (NUM.op k o xs).val ρ = Config.arithOther k o (xs.vals ρ) := by simp [NUM.val]

@[simp] theorem NUMList.vals_ofList (ρ : Nat → ℝ) (xs : List NUM) :
    (NUMList.ofList xs).vals ρ = xs.map (NUM.val ρ) := by
  induction xs with
  | nil => simp [NUMList.ofList, NUMList.vals]
  | cons x xs ih => simp [NUMList.ofList, NUMList.vals, ih]

@[simp] theorem NUM.val_ofRat (ρ : Nat → ℝ) (q : Rat) : (NUM.ofRat q).val ρ = (q : ℝ) := by simp [NUM.ofRat]

@[simp] theorem NUM.val_zero (ρ : Nat → ℝ) : NUM.zero.val ρ = 0 := by simp [NUM.zero]

@[simp] theorem NUM.val_plus (ρ : Nat → ℝ) (x y : NUM) : (x.plus y).val ρ = x.val ρ + y.val ρ := by
  unfold NUM.plus
  split
  · simp
  split
  · rename_i h; simp [h]
  split
  · rename_i h; simp [h]
  · simp

@[simp] theorem NUM.val_times (ρ : Nat → ℝ) (x y : NUM) : (x.times y).val ρ = x.val ρ * y.val ρ := by
  unfold NUM.times
  split
  · simp
  split
  · rename_i h; rcases h with h | h <;> simp [h]
  split
  · rename_i h; simp [h]
  split
  · rename_i h; simp [h]
  · simp

@[simp] theorem NUM.val_sum (ρ : Nat → ℝ) (n : Nat) (f : Nat → NUM) :
    (NUM.sum n f).val ρ = ∑ i ∈ Finset.range n, (f i).val ρ := by
  induction n with
  | zero => simp [NUM.sum]
  | succ n ih => simp [NUM.sum, ih, Finset.sum_range_succ]

@[simp] theorem NUM.val_sqrt (ρ : Nat → ℝ) (q : Rat) : (NUM.sqrt q).val ρ = Real.sqrt (q : ℝ) := by simp [NUM.sqrt]

@[simp] theorem NUM.val_cosPi (ρ : Nat → ℝ) (r : Rat) :
    (NUM.cosPi r).val ρ = Real.cos (Real.pi * (r : ℝ)) := by simp [NUM.cosPi]

@[simp] theorem NUM.val_logTwo (ρ : Nat → ℝ) (q : Rat) : (NUM.logTwo q).val ρ = Real.logb 2 (q : ℝ) := by
  unfold NUM.logTwo
  split
  · rename_i h
    have hq : (q : ℝ) = ((2 : ℝ) ^ q.den.log2)⁻¹ := by
      have h1 : (q : ℝ) = (q.num : ℝ) / (q.den : ℝ) := by exact_mod_cast (Rat.num_div_den q).symm
      have h2 : (q.den : ℝ) = (2 : ℝ) ^ q.den.log2 := by exact_mod_cast h.2
      rw [h1, h.1, ← h2]; simp
    rw [NUM.val_ofRat, hq, Real.logb_inv, Real.logb_pow, Real.logb_self_eq_one (by norm_num)]
    push_cast; ring
  split
  · rename_i h
    have hq : (q : ℝ) = (2 : ℝ) ^ q.num.toNat.log2 := by
      have h1 : (q : ℝ) = (q.num : ℝ) / (q.den : ℝ) := by exact_mod_cast (Rat.num_div_den q).symm
      have h2 : (q.num : ℝ) = (2 : ℝ) ^ q.num.toNat.log2 := by exact_mod_cast h.2
      rw [h1, h.1, ← h2]; simp
    rw [NUM.val_ofRat, hq, Real.logb_pow, Real.logb_self_eq_one (by norm_num)]
    push_cast; ring
  · simp

/-! ### The arithmetic of any format -/

@[simp] theorem NumFormat.plus_reals (x y : NUM) : NumFormat.reals.plus x y = x.plus y := rfl
@[simp] theorem NumFormat.times_reals (x y : NUM) : NumFormat.reals.times x y = x.times y := rfl
@[simp] theorem NumFormat.sum_reals (n : Nat) (t : Nat → NUM) : NumFormat.reals.sum n t = NUM.sum n t := rfl
@[simp] theorem NumFormat.total_reals (n : Nat) (t : Nat → NUM) : NumFormat.reals.total n t = NUM.sum n t := rfl

@[simp] theorem NUM.val_op1 (ρ : Nat → ℝ) (k : Nat) (o : NumOp) (x : NUM) :
    (NUM.op1 k o x).val ρ = Config.arithOther k o [x.val ρ] := by simp [NUM.op1]
@[simp] theorem NUM.val_op2 (ρ : Nat → ℝ) (k : Nat) (o : NumOp) (x y : NUM) :
    (NUM.op2 k o x y).val ρ = arith2 k o (x.val ρ) (y.val ρ) := by simp [NUM.op2]

@[simp] theorem NumFormat.val_plus_other (ρ : Nat → ℝ) (k : Nat) (x y : NUM) :
    ((NumFormat.other k).plus x y).val ρ = arith2 k .add (x.val ρ) (y.val ρ) := NUM.val_op2 ρ k .add x y
@[simp] theorem NumFormat.val_times_other (ρ : Nat → ℝ) (k : Nat) (x y : NUM) :
    ((NumFormat.other k).times x y).val ρ = arith2 k .mul (x.val ρ) (y.val ρ) := NUM.val_op2 ρ k .mul x y

/-- A sum in another format is that format's sum of the terms' real numbers, in increasing index (rule R141). -/
@[simp] theorem NumFormat.val_sum_other (ρ : Nat → ℝ) (k n : Nat) (t : Nat → NUM) :
    ((NumFormat.other k).sum n t).val ρ = formatSum k n fun i => (t i).val ρ := by
  change (NUM.opSum k n t).val ρ = _
  induction n with
  | zero => simp [NUM.opSum, formatSum]
  | succ n ih =>
    cases n with
    | zero => rfl
    | succ n => rw [NUM.opSum, NUM.val_op2, ih]; rfl

@[simp] theorem NumFormat.quantiseVal_reals (x s : ℝ) : NumFormat.reals.quantiseVal x s = idealQuantise x s := rfl
@[simp] theorem NumFormat.quantiseVal_other (k : Nat) (x s : ℝ) :
    (NumFormat.other k).quantiseVal x s = formatQuantise k x s := rfl
@[simp] theorem NumFormat.entropyVal_reals (b : List ℤ) : NumFormat.reals.entropyVal b = idealEntropy b := rfl
@[simp] theorem NumFormat.entropyVal_other (k : Nat) (b : List ℤ) :
    (NumFormat.other k).entropyVal b = formatEntropy k b := rfl

/-- A step of at most 0 is the identity in every format (rules R9, R212). -/
theorem NumFormat.quantiseVal_nonpos (f : NumFormat) (x : ℝ) {s : ℝ} (h : s ≤ 0) : f.quantiseVal x s = x := by
  cases f <;> simp [idealQuantise, formatQuantise, h]

end Sys2Proof
end

