-- ==== Sys2Proof/Laws/Enclose.lean ====
section
/-!
SUPPORT. The rational bounds of `Machine/Enclose.lean` hold, so quantising and binning give the ideal results of
rules R212 and R216 whether or not the bounds decide them.
-/

namespace Sys2Proof

/-- The real number lies in the interval. -/
def Interval.Has (i : Interval) (x : ℝ) : Prop := (i.lo : ℝ) ≤ x ∧ x ≤ (i.hi : ℝ)

theorem Interval.has_self (q : Rat) : Interval.Has ⟨q, q⟩ (q : ℝ) := ⟨le_rfl, le_rfl⟩

theorem Interval.has_add {i j : Interval} {x y : ℝ} (hx : i.Has x) (hy : j.Has y) : (i.add j).Has (x + y) := by
  constructor <;> simp only [Interval.add] <;> push_cast
  · exact add_le_add hx.1 hy.1
  · exact add_le_add hx.2 hy.2

/-- A product with one factor in an interval lies between the products with its ends. -/
theorem mul_between {a b x y : ℝ} (h : a ≤ x ∧ x ≤ b) : min (a * y) (b * y) ≤ x * y ∧ x * y ≤ max (a * y) (b * y) := by
  rcases le_total 0 y with hy | hy
  · exact ⟨min_le_of_left_le (mul_le_mul_of_nonneg_right h.1 hy), le_max_of_le_right (mul_le_mul_of_nonneg_right h.2 hy)⟩
  · exact ⟨min_le_of_right_le (mul_le_mul_of_nonpos_right h.2 hy), le_max_of_le_left (mul_le_mul_of_nonpos_right h.1 hy)⟩

theorem Interval.has_mul {i j : Interval} {x y : ℝ} (hx : i.Has x) (hy : j.Has y) : (i.mul j).Has (x * y) := by
  have h1 := mul_between (y := y) hx
  have h2 := mul_between (y := (i.lo : ℝ)) hy
  have h3 := mul_between (y := (i.hi : ℝ)) hy
  simp only [mul_comm _ (i.lo : ℝ), mul_comm _ (i.hi : ℝ)] at h2 h3
  constructor <;> simp only [Interval.mul] <;> push_cast
  · exact (min_le_min h2.1 h3.1).trans h1.1
  · exact h1.2.trans (max_le_max h2.2 h3.2)

/-! ### Square roots and cosines -/

theorem sqrtDigits_spec (n : Nat) : ∀ k acc : Nat, acc * acc ≤ n → n < (acc + 2 ^ k) * (acc + 2 ^ k) →
    sqrtDigits n k acc * sqrtDigits n k acc ≤ n ∧ n < (sqrtDigits n k acc + 1) * (sqrtDigits n k acc + 1) := by
  intro k
  induction k with
  | zero => intro acc h1 h2; exact ⟨h1, by simpa [sqrtDigits] using h2⟩
  | succ k ih =>
    intro acc h1 h2
    unfold sqrtDigits
    simp only
    split
    · rename_i h
      exact ih _ h (by rw [pow_succ] at h2; convert h2 using 2 <;> ring)
    · rename_i h
      exact ih _ h1 (by omega)

theorem sqrtBounds_has (n : Nat) : (sqrtBounds n).Has (Real.sqrt (n : ℝ)) := by
  have hlt : n * 2 ^ 128 < (0 + 2 ^ ((n * 2 ^ 128).log2 / 2 + 1)) * (0 + 2 ^ ((n * 2 ^ 128).log2 / 2 + 1)) := by
    rw [zero_add, ← pow_add]
    exact Nat.lt_log2_self.trans_le (Nat.pow_le_pow_right (by norm_num) (by omega))
  obtain ⟨h1, h2⟩ := sqrtDigits_spec (n * 2 ^ 128) ((n * 2 ^ 128).log2 / 2 + 1) 0 (by simp) hlt
  unfold sqrtBounds
  simp only
  generalize sqrtDigits (n * 2 ^ 128) ((n * 2 ^ 128).log2 / 2 + 1) 0 = j at h1 h2
  have h1' : (j : ℝ) * (j : ℝ) ≤ (n : ℝ) * 2 ^ 128 := by exact_mod_cast h1
  have h2' : (n : ℝ) * 2 ^ 128 < ((j : ℝ) + 1) * ((j : ℝ) + 1) := by exact_mod_cast h2
  have hs : Real.sqrt (n : ℝ) * Real.sqrt (n : ℝ) = (n : ℝ) := Real.mul_self_sqrt (Nat.cast_nonneg n)
  have h0 := Real.sqrt_nonneg (n : ℝ)
  have hj : (0 : ℝ) ≤ (j : ℝ) := Nat.cast_nonneg j
  constructor <;> push_cast
  · rw [div_le_iff₀ (by positivity)]
    by_contra h
    have hlt := mul_self_lt_mul_self (by positivity) (not_le.mp h)
    nlinarith
  · rw [le_div_iff₀ (by positivity)]
    nlinarith

/-- The cosine's power series cut off after `n` terms, as the real part of the exponential's. -/
theorem re_exp_partial_sum (h : ℝ) (n : ℕ) :
    (∑ m ∈ Finset.range (2 * n), ((h : ℂ) * Complex.I) ^ m / (m.factorial : ℂ)).re =
      ∑ j ∈ Finset.range n, (-1) ^ j * h ^ (2 * j) / ((2 * j).factorial : ℝ) := by
  induction n with
  | zero => simp
  | succ n ih =>
    have he : ((h : ℂ) * Complex.I) ^ (2 * n) = (((-1) ^ n * h ^ (2 * n) : ℝ) : ℂ) := by
      rw [mul_pow, pow_mul Complex.I, Complex.I_sq]; push_cast; ring
    rw [Nat.mul_succ, Finset.sum_range_succ, Finset.sum_range_succ, Finset.sum_range_succ, ← ih,
      Complex.add_re, Complex.add_re, pow_succ, he]
    have e1 : ((((-1) ^ n * h ^ (2 * n) : ℝ) : ℂ) / ((2 * n).factorial : ℂ)).re =
        (-1) ^ n * h ^ (2 * n) / ((2 * n).factorial : ℝ) := by
      rw [← Complex.ofReal_natCast, ← Complex.ofReal_div, Complex.ofReal_re]
    have e2 : ((((-1) ^ n * h ^ (2 * n) : ℝ) : ℂ) * ((h : ℂ) * Complex.I) / ((2 * n + 1).factorial : ℂ)).re = 0 := by
      have : (((-1) ^ n * h ^ (2 * n) : ℝ) : ℂ) * ((h : ℂ) * Complex.I) / ((2 * n + 1).factorial : ℂ) =
          (((-1) ^ n * h ^ (2 * n) * h / ((2 * n + 1).factorial : ℝ) : ℝ) : ℂ) * Complex.I := by
        push_cast; ring
      rw [this, Complex.re_ofReal_mul, Complex.I_re, mul_zero]
    rw [e1, e2, add_zero]

theorem cosSeries_eq (h : Rat) :
    ((cosSeries (h * h) 12 0 : Rat) : ℝ) =
      ∑ j ∈ Finset.range 12, (-1) ^ j * (h : ℝ) ^ (2 * j) / ((2 * j).factorial : ℝ) := by
  simp only [cosSeries, Finset.sum_range_succ, Finset.sum_range_zero]
  norm_num [Nat.factorial]
  ring

theorem abs_cos_sub_cosSeries_le (h : Rat) (hh : |(h : ℝ)| ≤ 1) :
    |Real.cos (h : ℝ) - ((cosSeries (h * h) 12 0 : Rat) : ℝ)| ≤ 1 / 10 ^ 20 := by
  have hn : ‖((h : ℝ) : ℂ) * Complex.I‖ = |(h : ℝ)| := by
    rw [norm_mul, Complex.norm_I, mul_one, Complex.norm_real, Real.norm_eq_abs]
  have hb := Complex.exp_bound (x := ((h : ℝ) : ℂ) * Complex.I) (by rw [hn]; exact hh) (n := 24) (by norm_num)
  have hre : Real.cos (h : ℝ) = (Complex.exp (((h : ℝ) : ℂ) * Complex.I)).re := by
    rw [Complex.exp_ofReal_mul_I_re]
  rw [cosSeries_eq, hre, ← re_exp_partial_sum (h : ℝ) 12, ← Complex.sub_re]
  refine (Complex.abs_re_le_norm _).trans (hb.trans ?_)
  rw [hn]
  have h24 : |(h : ℝ)| ^ 24 ≤ 1 := pow_le_one₀ (abs_nonneg _) hh
  have hc : ((Nat.succ 24 : ℕ) : ℝ) * (((Nat.factorial 24 : ℕ) : ℝ) * ((24 : ℕ) : ℝ))⁻¹ ≤ 1 / 10 ^ 20 := by
    norm_num [Nat.factorial]
  calc |(h : ℝ)| ^ 24 * (((Nat.succ 24 : ℕ) : ℝ) * (((Nat.factorial 24 : ℕ) : ℝ) * ((24 : ℕ) : ℝ))⁻¹)
      ≤ 1 * (1 / 10 ^ 20) := mul_le_mul h24 hc (by positivity) (by norm_num)
    _ = 1 / 10 ^ 20 := one_mul _

theorem cosBounds_has (r : Rat) (h0 : 0 < r) (h1 : r ≤ 1 / 2) :
    (cosBounds r).Has (Real.cos (Real.pi * (r : ℝ))) := by
  have r0 : (0 : ℝ) < (r : ℝ) := by exact_mod_cast h0
  have r1 : (r : ℝ) ≤ 1 / 2 := by
    have : ((r : Rat) : ℝ) ≤ ((1 / 2 : Rat) : ℝ) := by exact_mod_cast h1
    simpa using this
  have hp : ((piLow : Rat) : ℝ) = 3.14159265358979323846 := by norm_num [piLow]
  have hgt := Real.pi_gt_d20
  have hlt := Real.pi_lt_d20
  have hh : (((piLow * r / 2 : Rat)) : ℝ) = 3.14159265358979323846 * (r : ℝ) / 2 := by push_cast; rw [hp]
  have habs : |((piLow * r / 2 : Rat) : ℝ)| ≤ 1 := by
    rw [hh, abs_of_nonneg (by positivity)]; linarith
  have hT := abs_cos_sub_cosSeries_le (piLow * r / 2) habs
  have hL := Real.abs_cos_sub_cos_le (Real.pi * (r : ℝ) / 2) ((piLow * r / 2 : Rat) : ℝ)
  have hd : |Real.pi * (r : ℝ) / 2 - ((piLow * r / 2 : Rat) : ℝ)| ≤ 1 / 10 ^ 20 := by
    rw [hh, abs_le]
    constructor <;> nlinarith
  have hcos : Real.cos (Real.pi * (r : ℝ)) = 2 * Real.cos (Real.pi * (r : ℝ) / 2) ^ 2 - 1 := by
    rw [← Real.cos_two_mul]; congr 1; ring
  unfold cosBounds
  simp only
  generalize cosSeries (piLow * r / 2 * (piLow * r / 2)) 12 0 = c at hT
  generalize Real.cos ((piLow * r / 2 : Rat) : ℝ) = b at hT hL
  rw [hcos]
  have ha := Real.abs_cos_le_one (Real.pi * (r : ℝ) / 2)
  generalize Real.cos (Real.pi * (r : ℝ) / 2) = a at hL ha
  have hdiff : |a - (c : ℝ)| ≤ 2 / 10 ^ 20 := by
    have := abs_sub_le a b (c : ℝ)
    have h3 := hL.trans hd
    linarith
  obtain ⟨l1, l2⟩ := abs_le.mp hdiff
  obtain ⟨a1, a2⟩ := abs_le.mp ha
  constructor <;> push_cast <;> nlinarith

theorem Surd.bounds_has (t : Surd) : t.bounds.Has t.val := by
  unfold Surd.bounds Surd.val
  refine Interval.has_mul (Interval.has_mul (Interval.has_self _) (sqrtBounds_has _)) ?_
  split
  · rename_i h; rw [h]; simp [Interval.Has]
  split
  · rename_i h; exact cosBounds_has _ h.1 h.2
  · exact ⟨by push_cast; exact Real.neg_one_le_cos _, by push_cast; exact Real.cos_le_one _⟩

theorem Alg.bounds_has (a : Alg) : a.bounds.Has a.val := by
  unfold Alg.bounds Alg.val
  induction a.irr with
  | nil => simpa using Interval.has_self a.rat
  | cons t ts ih =>
    have h := Interval.has_add t.bounds_has ih
    simp only [List.foldr_cons, List.map_cons, List.sum_cons]
    convert h using 1; ring

theorem NUM.bounds_has (ρ : Nat → ℝ) : ∀ (x : NUM) (i : Interval), x.bounds = some i → i.Has (x.val ρ)
  | .alg a, i, h => by
    simp only [NUM.bounds, Option.some.injEq] at h
    rw [← h, NUM.val_alg]; exact a.bounds_has
  | .real _, _, h => by simp [NUM.bounds] at h
  | .add x y, i, h => by
    simp only [NUM.bounds] at h
    split at h
    · rename_i ix iy hx hy
      simp only [Option.some.injEq] at h
      rw [← h, NUM.val_add]
      exact Interval.has_add (NUM.bounds_has ρ x ix hx) (NUM.bounds_has ρ y iy hy)
    · cases h
  | .mul x y, i, h => by
    simp only [NUM.bounds] at h
    split at h
    · rename_i ix iy hx hy
      simp only [Option.some.injEq] at h
      rw [← h, NUM.val_mul]
      exact Interval.has_mul (NUM.bounds_has ρ x ix hx) (NUM.bounds_has ρ y iy hy)
    · cases h
  | .log2 _, _, h => by simp [NUM.bounds] at h
  | .quant _ _ _, _, h => by simp [NUM.bounds] at h
  | .bpp _ _ _, _, h => by simp [NUM.bounds] at h
  | .op _ _ _, _, h => by simp [NUM.bounds] at h

/-! ### Quantising -/

theorem Interval.has_abs {i : Interval} {x : ℝ} (h : i.Has x) : i.abs.Has |x| := by
  obtain ⟨h1, h2⟩ := h
  unfold Interval.abs
  split
  · rename_i h0
    have : (0 : ℝ) ≤ (i.lo : ℝ) := by exact_mod_cast h0
    rw [abs_of_nonneg (this.trans h1)]; exact ⟨h1, h2⟩
  split
  · rename_i h0
    have : (i.hi : ℝ) ≤ 0 := by exact_mod_cast h0
    rw [abs_of_nonpos (h2.trans this)]
    constructor <;> push_cast <;> linarith
  · constructor <;> push_cast
    · exact abs_nonneg x
    · rcases abs_cases x with ⟨e, _⟩ | ⟨e, _⟩ <;> rw [e]
      · exact le_max_of_le_right h2
      · exact le_max_of_le_left (by linarith)

theorem Interval.abs_lo_nonneg (i : Interval) : 0 ≤ i.abs.lo := by
  unfold Interval.abs
  split
  · assumption
  split
  · rename_i h; simpa using h
  · simp

theorem ratCeil_eq (q : Rat) : ⌈q⌉ = q.ceil := by
  rw [Int.ceil_eq_iff]
  exact ⟨by linarith [Rat.ceil_lt (x := q)], Rat.le_ceil⟩

/-- The level of the quotient `a/s` lies between the levels of a smaller and a larger quotient. -/
theorem quantLevel_eq {lo hi : Rat} {t : ℝ} (h1 : (lo : ℝ) ≤ t) (h2 : t ≤ (hi : ℝ))
    (h : quantLevel lo = quantLevel hi) : (⌈t - 1 / 2⌉).toNat = quantLevel lo := by
  have e : ∀ q : Rat, (⌈(q : ℝ) - 1 / 2⌉).toNat = quantLevel q := by
    intro q
    have : ((q : ℝ) - 1 / 2) = ((q - 1 / 2 : Rat) : ℝ) := by push_cast; ring
    rw [this, Rat.ceil_cast, quantLevel, ratCeil_eq]
  have m1 : ⌈(lo : ℝ) - 1 / 2⌉ ≤ ⌈t - 1 / 2⌉ := Int.ceil_le_ceil (by linarith)
  have m2 : ⌈t - 1 / 2⌉ ≤ ⌈(hi : ℝ) - 1 / 2⌉ := Int.ceil_le_ceil (by linarith)
  have l1 := Int.toNat_le_toNat m1
  have l2 := Int.toNat_le_toNat m2
  rw [e] at l1 l2
  omega

theorem idealQuantise_of_pos {x s : ℝ} (hs : 0 < s) :
    idealQuantise x s = (SignType.sign x : ℝ) * ((⌈|x| / s - 1 / 2⌉).toNat : ℝ) * s := by
  have hlev : (|x| - s / 2) / s = |x| / s - 1 / 2 := by field_simp
  have hcast : ((max 0 ⌈|x| / s - 1 / 2⌉ : ℤ) : ℝ) = ((⌈|x| / s - 1 / 2⌉).toNat : ℝ) := by
    have : max 0 ⌈|x| / s - 1 / 2⌉ = ((⌈|x| / s - 1 / 2⌉).toNat : ℤ) := by
      rw [Int.toNat_eq_max, max_comm]
    rw [this]; push_cast; rfl
  rw [idealQuantise, if_neg (not_le.mpr hs), hlev, hcast]

/-- The computed branch of `quantise` over the reals: bounds `st` of the step, both positive (rule R212). -/
theorem NUM.val_quantiseReal (ρ : Nat → ℝ) (x step : NUM) (st : Interval) (hs : st.Has (step.val ρ))
    (hlo : ¬st.lo ≤ 0) : (x.quantiseReal step st).val ρ = idealQuantise (x.val ρ) (step.val ρ) := by
  have hlo' : (0 : ℝ) < (st.lo : ℝ) := by exact_mod_cast not_le.mp hlo
  have spos : 0 < step.val ρ := hlo'.trans_le hs.1
  have hhi' : (0 : ℝ) < (st.hi : ℝ) := spos.trans_le hs.2
  unfold NUM.quantiseReal
  split
  · exact NUM.val_quant ρ .reals x step
  rename_i i hi
  have hx := NUM.bounds_has ρ x i hi
  have ha := Interval.has_abs hx
  have ha0 : (0 : ℝ) ≤ (i.abs.lo : ℝ) := by exact_mod_cast i.abs_lo_nonneg
  simp only
  split
  · exact NUM.val_quant ρ .reals x step
  rename_i hq
  have hq' := not_not.mp hq
  have b1 : ((i.abs.lo / st.hi : Rat) : ℝ) ≤ |x.val ρ| / step.val ρ := by
    push_cast
    exact div_le_div₀ (abs_nonneg _) ha.1 spos hs.2
  have b2 : |x.val ρ| / step.val ρ ≤ ((i.abs.hi / st.lo : Rat) : ℝ) := by
    push_cast
    exact div_le_div₀ ((abs_nonneg _).trans ha.2) ha.2 hlo' hs.1
  rw [idealQuantise_of_pos spos, quantLevel_eq b1 b2 hq']
  split
  · rename_i h0; rw [h0]; simp
  rename_i h0
  have hlopos : 0 < i.abs.lo := by
    by_contra hn
    have hz : i.abs.lo = 0 := le_antisymm (not_lt.mp hn) i.abs_lo_nonneg
    apply h0
    rw [hz, zero_div, quantLevel, ← ratCeil_eq]; norm_num
  split
  · rename_i hpos
    have hxpos : 0 < x.val ρ := lt_of_lt_of_le (by exact_mod_cast hpos) hx.1
    rw [NUM.val_times, NUM.val_ofRat, sign_pos hxpos]; push_cast; simp
  · rename_i hneg
    have hxneg : x.val ρ < 0 := by
      unfold Interval.abs at hlopos
      split at hlopos
      · exact absurd hlopos hneg
      split at hlopos
      · have : (i.hi : ℝ) < 0 := by exact_mod_cast (by linarith : i.hi < 0)
        exact hx.2.trans_lt this
      · exact absurd hlopos (lt_irrefl _)
    rw [NUM.val_times, NUM.val_ofRat, sign_neg hxneg]; push_cast; simp

/-! ### Binning and the entropy -/

/-- `quantise` in any format is that format's `quantise` of the real numbers (rules R212, R213). -/
@[simp] theorem NUM.val_quantise (ρ : Nat → ℝ) (f : NumFormat) (x step : NUM) :
    (x.quantise f step).val ρ = f.quantiseVal (x.val ρ) (step.val ρ) := by
  unfold NUM.quantise
  split
  · exact NUM.val_quant ρ f x step
  rename_i st hst
  have hs := NUM.bounds_has ρ step st hst
  split
  · rename_i h
    have : (st.hi : ℝ) ≤ 0 := by exact_mod_cast h
    rw [f.quantiseVal_nonpos _ (hs.2.trans this)]
  split
  · exact NUM.val_quant ρ f x step
  rename_i hlo
  cases f with
  | reals => exact NUM.val_quantiseReal ρ x step st hs hlo
  | other k => exact NUM.val_quant ρ (.other k) x step

theorem NUM.refBin_eq (ρ : Nat → ℝ) (x : NUM) (b : Int) (h : x.refBin = some b) : idealBin (x.val ρ) = b := by
  unfold NUM.refBin at h
  split at h
  · cases h
  rename_i i hi
  have hx := NUM.bounds_has ρ x i hi
  split at h
  · rename_i he
    simp only [Option.some.injEq] at h
    have e : ∀ q : Rat, ⌊(q : ℝ) + 1 / 2⌋ = (q + 1 / 2 : Rat).floor := by
      intro q
      have : ((q : ℝ) + 1 / 2) = ((q + 1 / 2 : Rat) : ℝ) := by push_cast; ring
      rw [this, Rat.floor_cast]; rfl
    have m1 : ⌊(i.lo : ℝ) + 1 / 2⌋ ≤ ⌊x.val ρ + 1 / 2⌋ := Int.floor_le_floor (by linarith [hx.1])
    have m2 : ⌊x.val ρ + 1 / 2⌋ ≤ ⌊(i.hi : ℝ) + 1 / 2⌋ := Int.floor_le_floor (by linarith [hx.2])
    rw [e] at m1 m2
    unfold idealBin
    omega
  · cases h

theorem NUM.refBins_eq (ρ : Nat → ℝ) (xs : List NUM) (bs : List Int) (h : NUM.refBins xs = some bs) :
    xs.map (fun x => idealBin (x.val ρ)) = bs := by
  induction xs generalizing bs with
  | nil => simpa [NUM.refBins] using h
  | cons x xs ih =>
    unfold NUM.refBins at h
    split at h
    · rename_i b bs' hb hbs
      simp only [Option.some.injEq] at h
      rw [← h, List.map_cons, ih bs' hbs, NUM.refBin_eq ρ x b hb]
    · cases h

/-- The histogram of `bins`: strictly increasing bins, each with its count. -/
structure IsHistogram (bins : List Int) (hist : List (Int × Nat)) : Prop where
  sorted : (hist.map Prod.fst).Pairwise (· < ·)
  counts : ∀ p ∈ hist, p.2 = bins.count p.1
  covers : ∀ b, b ∈ hist.map Prod.fst ↔ b ∈ bins

theorem mem_countBin_fst (b c : Int) (hist : List (Int × Nat)) :
    c ∈ (countBin b hist).map Prod.fst ↔ c = b ∨ c ∈ hist.map Prod.fst := by
  induction hist with
  | nil => simp [countBin]
  | cons p ps ih =>
    obtain ⟨d, n⟩ := p
    unfold countBin
    split
    · rename_i h; simp [h]
    split
    · simp
    · simp only [List.map_cons, List.mem_cons, ih]; tauto

theorem sorted_countBin (b : Int) (hist : List (Int × Nat)) (h : (hist.map Prod.fst).Pairwise (· < ·)) :
    ((countBin b hist).map Prod.fst).Pairwise (· < ·) := by
  induction hist with
  | nil => simp [countBin]
  | cons p ps ih =>
    obtain ⟨d, n⟩ := p
    simp only [List.map_cons, List.pairwise_cons] at h
    unfold countBin
    split
    · simpa using h
    split
    · rename_i hlt
      simp only [List.map_cons, List.pairwise_cons, List.mem_cons]
      refine ⟨?_, h⟩
      rintro x (rfl | hx)
      · exact hlt
      · exact hlt.trans (h.1 x hx)
    · rename_i hne hnlt
      simp only [List.map_cons, List.pairwise_cons]
      refine ⟨?_, ih h.2⟩
      intro x hx
      rcases (mem_countBin_fst b x ps).mp hx with rfl | hx
      · omega
      · exact h.1 x hx

theorem counts_countBin (b : Int) (bins : List Int) (hist : List (Int × Nat)) (hs : (hist.map Prod.fst).Pairwise (· < ·))
    (hc : ∀ p ∈ hist, p.2 = bins.count p.1) (hb : b ∉ hist.map Prod.fst → bins.count b = 0) :
    ∀ p ∈ countBin b hist, p.2 = (b :: bins).count p.1 := by
  induction hist with
  | nil =>
    intro p hp
    simp only [countBin, List.mem_singleton] at hp
    have := hb (by simp)
    simp [hp, this]
  | cons q qs ih =>
    obtain ⟨d, n⟩ := q
    simp only [List.map_cons, List.pairwise_cons] at hs
    unfold countBin
    have tail : ∀ p ∈ qs, b ≠ p.1 → p.2 = (b :: bins).count p.1 := by
      intro p hp hne
      rw [List.count_cons_of_ne hne]; exact hc p (List.mem_cons_of_mem _ hp)
    split
    · rename_i h
      intro p hp
      rcases List.mem_cons.mp hp with rfl | hp
      · have := hc (d, n) List.mem_cons_self
        simp only at this
        simp [h, this]
      · refine tail p hp ?_
        have := hs.1 p.1 (List.mem_map_of_mem hp)
        omega
    split
    · rename_i h hlt
      have hnot : b ∉ (d :: qs.map Prod.fst) := by
        intro hm
        rcases List.mem_cons.mp hm with rfl | hm
        · exact h rfl
        · have := hs.1 b hm; omega
      intro p hp
      rcases List.mem_cons.mp hp with rfl | hp
      · have := hb (by simpa using hnot)
        simp [this]
      rcases List.mem_cons.mp hp with rfl | hp
      · rw [List.count_cons_of_ne h]; exact hc (d, n) List.mem_cons_self
      · refine tail p hp ?_
        have := hs.1 p.1 (List.mem_map_of_mem hp)
        omega
    · rename_i h hnlt
      intro p hp
      rcases List.mem_cons.mp hp with rfl | hp
      · rw [List.count_cons_of_ne h]; exact hc (d, n) List.mem_cons_self
      · refine ih hs.2 (fun p hp => hc p (List.mem_cons_of_mem _ hp)) ?_ p hp
        intro hn
        refine hb ?_
        simp only [List.map_cons, List.mem_cons, not_or]
        exact ⟨h, hn⟩

theorem isHistogram_histogram (bins : List Int) : IsHistogram bins (histogram bins) := by
  induction bins with
  | nil => exact ⟨by simp [histogram], by simp [histogram], by simp [histogram]⟩
  | cons b bins ih =>
    refine ⟨sorted_countBin b _ ih.sorted, ?_, ?_⟩
    · refine counts_countBin b bins _ ih.sorted ih.counts ?_
      intro hn
      exact List.count_eq_zero.mpr (fun h => hn ((ih.covers b).mpr h))
    · intro c
      have := mem_countBin_fst b c (histogram bins)
      rw [show histogram (b :: bins) = countBin b (histogram bins) from rfl, this, ih.covers c]
      simp

theorem val_entropySum (ρ : Nat → ℝ) (t : Nat) (hist : List (Int × Nat)) (acc : NUM) :
    (hist.foldl (fun acc bn => acc.plus (entropyTerm t bn.2)) acc).val ρ =
      acc.val ρ + (hist.map fun p => ((p.2 : ℝ) / (t : ℝ)) * Real.logb 2 ((p.2 : ℝ) / (t : ℝ))).sum := by
  induction hist generalizing acc with
  | nil => simp
  | cons p ps ih =>
    rw [List.foldl_cons, ih, NUM.val_plus, entropyTerm, NUM.val_times, NUM.val_ofRat, NUM.val_logTwo,
      List.map_cons, List.sum_cons]
    push_cast; ring

theorem val_entropyOf (ρ : Nat → ℝ) (bins : List Int) : (entropyOf bins).val ρ = idealEntropy bins := by
  have h := isHistogram_histogram bins
  have hset : bins.toFinset = ((histogram bins).map Prod.fst).toFinset := by
    ext b; simp only [List.mem_toFinset]; exact (h.covers b).symm
  have hnd : ((histogram bins).map Prod.fst).Nodup := h.sorted.imp (fun hlt => ne_of_lt hlt)
  rw [entropyOf, NUM.val_times, NUM.val_ofRat, val_entropySum, idealEntropy, hset, List.sum_toFinset _ hnd,
    NUM.val_zero, List.map_map]
  have : (histogram bins).map (fun p => ((p.2 : ℝ) / (bins.length : ℝ)) * Real.logb 2 ((p.2 : ℝ) / (bins.length : ℝ))) =
      (histogram bins).map ((fun b => ((bins.count b : ℝ) / (bins.length : ℝ)) *
        Real.logb 2 ((bins.count b : ℝ) / (bins.length : ℝ))) ∘ Prod.fst) := by
    apply List.map_congr_left
    intro p hp
    simp only [Function.comp_apply, h.counts p hp]
  rw [this]; push_cast; ring

/-- `bpp` of a list of cells, in any format and under any binning, is that format's entropy of the bins of the
cells' real numbers (rule R216). -/
theorem val_bitsPerPixel_format (ρ : Nat → ℝ) (f : NumFormat) (bin : BinRule) (cells : List NUM) :
    (bitsPerPixel f bin cells).val ρ = f.entropyVal (cells.map fun x => bin.binVal f (x.val ρ)) := by
  have e : ∀ (f : NumFormat) (bin : BinRule), (NUM.bpp f bin (NUMList.ofList cells)).val ρ =
      f.entropyVal (cells.map fun x => bin.binVal f (x.val ρ)) := by
    intro f bin; rw [NUM.val_bpp, NUMList.vals_ofList, List.map_map]; rfl
  unfold bitsPerPixel
  split
  · split
    · rename_i bins hb
      rw [val_entropyOf, ← NUM.refBins_eq ρ cells bins hb]; rfl
    · exact e _ _
  · exact e _ _

/-- `bpp` of a list of cells over the reals is the ideal one, for every binning (rule R216). -/
@[simp] theorem val_bitsPerPixel (ρ : Nat → ℝ) (bin : BinRule) (cells : List NUM) :
    (bitsPerPixel .reals bin cells).val ρ = idealBpp ρ bin cells := val_bitsPerPixel_format ρ .reals bin cells

end Sys2Proof
end

