-- ==== Sys2Proof/Laws/State.lean ====
section
/-!
SUPPORT. The fields of the state after each named update of `Machine/Ops.lean`, and the accessors of the register
files after a write: what later proofs cite so that no record update is unfolded.
-/

namespace Sys2Proof.Machine

variable (s : State)

@[simp] theorem State.setBuf_scalars (b : RegIx) (x : Arr) : (s.setBuf b x).scalars = s.scalars := rfl
@[simp] theorem State.setBuf_kernels (b : RegIx) (x : Arr) : (s.setBuf b x).kernels = s.kernels := rfl
@[simp] theorem State.setBuf_err (b : RegIx) (x : Arr) : (s.setBuf b x).err = s.err := rfl
@[simp] theorem State.setBuf_sticky (b : RegIx) (x : Arr) : (s.setBuf b x).sticky = s.sticky := rfl
@[simp] theorem State.setBuf_errInfo (b : RegIx) (x : Arr) : (s.setBuf b x).errInfo = s.errInfo := rfl
@[simp] theorem State.setBuf_imgSize (b : RegIx) (x : Arr) : (s.setBuf b x).imgSize = s.imgSize := rfl
@[simp] theorem State.setBuf_bSel (b : RegIx) (x : Arr) : (s.setBuf b x).bSel = s.bSel := rfl
@[simp] theorem State.setBuf_cAddr (b : RegIx) (x : Arr) : (s.setBuf b x).cAddr = s.cAddr := rfl
@[simp] theorem State.setBuf_kSel (b : RegIx) (x : Arr) : (s.setBuf b x).kSel = s.kSel := rfl
@[simp] theorem State.setBuf_kAddr (b : RegIx) (x : Arr) : (s.setBuf b x).kAddr = s.kAddr := rfl
@[simp] theorem State.setBuf_sSel (b : RegIx) (x : Arr) : (s.setBuf b x).sSel = s.sSel := rfl
@[simp] theorem State.setBuf_cfg (b : RegIx) (x : Arr) : (s.setBuf b x).cfg = s.cfg := rfl
@[simp] theorem State.setBuf_pending (b : RegIx) (x : Arr) : (s.setBuf b x).pending = s.pending := rfl
@[simp] theorem State.setBuf_replies (b : RegIx) (x : Arr) : (s.setBuf b x).replies = s.replies := rfl

@[simp] theorem State.freeBuf_scalars (b : RegIx) : (s.freeBuf b).scalars = s.scalars := rfl
@[simp] theorem State.freeBuf_kernels (b : RegIx) : (s.freeBuf b).kernels = s.kernels := rfl
@[simp] theorem State.freeBuf_err (b : RegIx) : (s.freeBuf b).err = s.err := rfl
@[simp] theorem State.freeBuf_sticky (b : RegIx) : (s.freeBuf b).sticky = s.sticky := rfl
@[simp] theorem State.freeBuf_errInfo (b : RegIx) : (s.freeBuf b).errInfo = s.errInfo := rfl
@[simp] theorem State.freeBuf_imgSize (b : RegIx) : (s.freeBuf b).imgSize = s.imgSize := rfl
@[simp] theorem State.freeBuf_bSel (b : RegIx) : (s.freeBuf b).bSel = s.bSel := rfl
@[simp] theorem State.freeBuf_cAddr (b : RegIx) : (s.freeBuf b).cAddr = s.cAddr := rfl
@[simp] theorem State.freeBuf_kSel (b : RegIx) : (s.freeBuf b).kSel = s.kSel := rfl
@[simp] theorem State.freeBuf_kAddr (b : RegIx) : (s.freeBuf b).kAddr = s.kAddr := rfl
@[simp] theorem State.freeBuf_sSel (b : RegIx) : (s.freeBuf b).sSel = s.sSel := rfl
@[simp] theorem State.freeBuf_cfg (b : RegIx) : (s.freeBuf b).cfg = s.cfg := rfl
@[simp] theorem State.freeBuf_pending (b : RegIx) : (s.freeBuf b).pending = s.pending := rfl
@[simp] theorem State.freeBuf_replies (b : RegIx) : (s.freeBuf b).replies = s.replies := rfl

@[simp] theorem State.setScal_bufs (j : RegIx) (v : NUM) : (s.setScal j v).bufs = s.bufs := rfl
@[simp] theorem State.setScal_kernels (j : RegIx) (v : NUM) : (s.setScal j v).kernels = s.kernels := rfl
@[simp] theorem State.setScal_err (j : RegIx) (v : NUM) : (s.setScal j v).err = s.err := rfl
@[simp] theorem State.setScal_sticky (j : RegIx) (v : NUM) : (s.setScal j v).sticky = s.sticky := rfl
@[simp] theorem State.setScal_errInfo (j : RegIx) (v : NUM) : (s.setScal j v).errInfo = s.errInfo := rfl
@[simp] theorem State.setScal_imgSize (j : RegIx) (v : NUM) : (s.setScal j v).imgSize = s.imgSize := rfl
@[simp] theorem State.setScal_bSel (j : RegIx) (v : NUM) : (s.setScal j v).bSel = s.bSel := rfl
@[simp] theorem State.setScal_cAddr (j : RegIx) (v : NUM) : (s.setScal j v).cAddr = s.cAddr := rfl
@[simp] theorem State.setScal_kSel (j : RegIx) (v : NUM) : (s.setScal j v).kSel = s.kSel := rfl
@[simp] theorem State.setScal_kAddr (j : RegIx) (v : NUM) : (s.setScal j v).kAddr = s.kAddr := rfl
@[simp] theorem State.setScal_sSel (j : RegIx) (v : NUM) : (s.setScal j v).sSel = s.sSel := rfl
@[simp] theorem State.setScal_cfg (j : RegIx) (v : NUM) : (s.setScal j v).cfg = s.cfg := rfl
@[simp] theorem State.setScal_pending (j : RegIx) (v : NUM) : (s.setScal j v).pending = s.pending := rfl
@[simp] theorem State.setScal_replies (j : RegIx) (v : NUM) : (s.setScal j v).replies = s.replies := rfl

@[simp] theorem State.setKern_bufs (j : RegIx) (h : List NUM) : (s.setKern j h).bufs = s.bufs := by unfold State.setKern; split <;> rfl
@[simp] theorem State.setKern_scalars (j : RegIx) (h : List NUM) : (s.setKern j h).scalars = s.scalars := by unfold State.setKern; split <;> rfl
@[simp] theorem State.setKern_err (j : RegIx) (h : List NUM) : (s.setKern j h).err = s.err := by unfold State.setKern; split <;> rfl
@[simp] theorem State.setKern_sticky (j : RegIx) (h : List NUM) : (s.setKern j h).sticky = s.sticky := by unfold State.setKern; split <;> rfl
@[simp] theorem State.setKern_errInfo (j : RegIx) (h : List NUM) : (s.setKern j h).errInfo = s.errInfo := by unfold State.setKern; split <;> rfl
@[simp] theorem State.setKern_imgSize (j : RegIx) (h : List NUM) : (s.setKern j h).imgSize = s.imgSize := by unfold State.setKern; split <;> rfl
@[simp] theorem State.setKern_bSel (j : RegIx) (h : List NUM) : (s.setKern j h).bSel = s.bSel := by unfold State.setKern; split <;> rfl
@[simp] theorem State.setKern_cAddr (j : RegIx) (h : List NUM) : (s.setKern j h).cAddr = s.cAddr := by unfold State.setKern; split <;> rfl
@[simp] theorem State.setKern_kSel (j : RegIx) (h : List NUM) : (s.setKern j h).kSel = s.kSel := by unfold State.setKern; split <;> rfl
@[simp] theorem State.setKern_kAddr (j : RegIx) (h : List NUM) : (s.setKern j h).kAddr = s.kAddr := by unfold State.setKern; split <;> rfl
@[simp] theorem State.setKern_sSel (j : RegIx) (h : List NUM) : (s.setKern j h).sSel = s.sSel := by unfold State.setKern; split <;> rfl
@[simp] theorem State.setKern_cfg (j : RegIx) (h : List NUM) : (s.setKern j h).cfg = s.cfg := by unfold State.setKern; split <;> rfl
@[simp] theorem State.setKern_pending (j : RegIx) (h : List NUM) : (s.setKern j h).pending = s.pending := by unfold State.setKern; split <;> rfl
@[simp] theorem State.setKern_replies (j : RegIx) (h : List NUM) : (s.setKern j h).replies = s.replies := by unfold State.setKern; split <;> rfl

@[simp] theorem State.succeed_bufs : s.succeed.bufs = s.bufs := rfl
@[simp] theorem State.succeed_scalars : s.succeed.scalars = s.scalars := rfl
@[simp] theorem State.succeed_kernels : s.succeed.kernels = s.kernels := rfl
@[simp] theorem State.succeed_sticky : s.succeed.sticky = s.sticky := rfl
@[simp] theorem State.succeed_errInfo : s.succeed.errInfo = s.errInfo := rfl
@[simp] theorem State.succeed_imgSize : s.succeed.imgSize = s.imgSize := rfl
@[simp] theorem State.succeed_bSel : s.succeed.bSel = s.bSel := rfl
@[simp] theorem State.succeed_cAddr : s.succeed.cAddr = s.cAddr := rfl
@[simp] theorem State.succeed_kSel : s.succeed.kSel = s.kSel := rfl
@[simp] theorem State.succeed_kAddr : s.succeed.kAddr = s.kAddr := rfl
@[simp] theorem State.succeed_sSel : s.succeed.sSel = s.sSel := rfl
@[simp] theorem State.succeed_cfg : s.succeed.cfg = s.cfg := rfl
@[simp] theorem State.succeed_pending : s.succeed.pending = s.pending := rfl
@[simp] theorem State.succeed_replies : s.succeed.replies = s.replies := rfl

@[simp] theorem State.takeError_bufs (e : ErrCode) (w : Word) : (s.takeError e w).bufs = s.bufs := rfl
@[simp] theorem State.takeError_scalars (e : ErrCode) (w : Word) : (s.takeError e w).scalars = s.scalars := rfl
@[simp] theorem State.takeError_kernels (e : ErrCode) (w : Word) : (s.takeError e w).kernels = s.kernels := rfl
@[simp] theorem State.takeError_imgSize (e : ErrCode) (w : Word) : (s.takeError e w).imgSize = s.imgSize := rfl
@[simp] theorem State.takeError_bSel (e : ErrCode) (w : Word) : (s.takeError e w).bSel = s.bSel := rfl
@[simp] theorem State.takeError_cAddr (e : ErrCode) (w : Word) : (s.takeError e w).cAddr = s.cAddr := rfl
@[simp] theorem State.takeError_kSel (e : ErrCode) (w : Word) : (s.takeError e w).kSel = s.kSel := rfl
@[simp] theorem State.takeError_kAddr (e : ErrCode) (w : Word) : (s.takeError e w).kAddr = s.kAddr := rfl
@[simp] theorem State.takeError_sSel (e : ErrCode) (w : Word) : (s.takeError e w).sSel = s.sSel := rfl
@[simp] theorem State.takeError_cfg (e : ErrCode) (w : Word) : (s.takeError e w).cfg = s.cfg := rfl
@[simp] theorem State.takeError_pending (e : ErrCode) (w : Word) : (s.takeError e w).pending = s.pending := rfl
@[simp] theorem State.takeError_replies (e : ErrCode) (w : Word) : (s.takeError e w).replies = s.replies := rfl

@[simp] theorem State.hostErr_bufs : s.hostErr.bufs = s.bufs := rfl
@[simp] theorem State.hostErr_scalars : s.hostErr.scalars = s.scalars := rfl
@[simp] theorem State.hostErr_kernels : s.hostErr.kernels = s.kernels := rfl
@[simp] theorem State.hostErr_err : s.hostErr.err = s.err := rfl
@[simp] theorem State.hostErr_errInfo : s.hostErr.errInfo = s.errInfo := rfl
@[simp] theorem State.hostErr_imgSize : s.hostErr.imgSize = s.imgSize := rfl
@[simp] theorem State.hostErr_bSel : s.hostErr.bSel = s.bSel := rfl
@[simp] theorem State.hostErr_cAddr : s.hostErr.cAddr = s.cAddr := rfl
@[simp] theorem State.hostErr_kSel : s.hostErr.kSel = s.kSel := rfl
@[simp] theorem State.hostErr_kAddr : s.hostErr.kAddr = s.kAddr := rfl
@[simp] theorem State.hostErr_sSel : s.hostErr.sSel = s.sSel := rfl
@[simp] theorem State.hostErr_cfg : s.hostErr.cfg = s.cfg := rfl
@[simp] theorem State.hostErr_pending : s.hostErr.pending = s.pending := rfl
@[simp] theorem State.hostErr_replies : s.hostErr.replies = s.replies := rfl

@[simp] theorem State.succeed_err : s.succeed.err = .ok := rfl
@[simp] theorem State.takeError_err (e : ErrCode) (w : Word) : (s.takeError e w).err = e := rfl
@[simp] theorem State.takeError_sticky (e : ErrCode) (w : Word) :
    (s.takeError e w).sticky = setSticky s.sticky e.code := rfl
@[simp] theorem State.takeError_errInfo (e : ErrCode) (w : Word) : (s.takeError e w).errInfo = w := rfl
@[simp] theorem State.hostErr_sticky : s.hostErr.sticky = setSticky s.sticky hostErrBit := rfl

/-! ### The register files after a write -/

theorem State.buf_congr {s t : State} (h : t.bufs = s.bufs) (b : RegIx) : t.buf b = s.buf b := by simp [State.buf, h]

theorem State.scal_congr {s t : State} (h : t.scalars = s.scalars) (j : RegIx) : t.scal j = s.scal j := by
  simp [State.scal, h]

theorem State.kern_congr {s t : State} (h : t.kernels = s.kernels) (j : RegIx) : t.kern j = s.kern j := by
  simp [State.kern, h]

theorem State.buf_setBuf (b b' : RegIx) (x : Arr) : (s.setBuf b x).buf b' = if b' = b then some x else s.buf b' := by
  simp only [State.buf, State.setBuf, Vector.get_eq_getElem, Vector.getElem_set, Fin.ext_iff, eq_comm]

theorem State.buf_freeBuf (b b' : RegIx) : (s.freeBuf b).buf b' = if b' = b then none else s.buf b' := by
  simp only [State.buf, State.freeBuf, Vector.get_eq_getElem, Vector.getElem_set, Fin.ext_iff, eq_comm]

theorem State.scal_setScal (j j' : RegIx) (v : NUM) :
    (s.setScal j v).scal j' = if j' = j then some v else s.scal j' := by
  simp only [State.scal, State.setScal, Vector.get_eq_getElem, Vector.getElem_set, Fin.ext_iff, eq_comm]

@[simp] theorem State.buf_setBuf_self (b : RegIx) (x : Arr) : (s.setBuf b x).buf b = some x := by simp [State.buf_setBuf]
@[simp] theorem State.buf_freeBuf_self (b : RegIx) : (s.freeBuf b).buf b = none := by simp [State.buf_freeBuf]
@[simp] theorem State.scal_setScal_self (j : RegIx) (v : NUM) : (s.setScal j v).scal j = some v := by
  simp [State.scal_setScal]

/-- A write to a writable kernel register; the read-only ones keep their taps (rule R25). -/
theorem State.kern_setKern (j j' : RegIx) (h : List NUM) :
    (s.setKern j h).kern j' = if j' = j ∧ 4 ≤ j.val then h else s.kern j' := by
  unfold State.setKern State.kern
  by_cases hj : j.val < 4
  · have : ¬ (j' = j ∧ 4 ≤ j.val) := by omega
    simp [hj, this]
  · by_cases hj' : j'.val < 4
    · have : ¬ (j' = j ∧ 4 ≤ j.val) := by rintro ⟨rfl, _⟩; omega
      simp [hj', this]
    · have hb := j.isLt
      have hb' := j'.isLt
      simp only [hj, hj', if_false, dif_neg, not_false_eq_true, Vector.getElem_set]
      by_cases he : j' = j
      · subst he; simp; omega
      · have : j.val - 4 ≠ j'.val - 4 := fun h => he (Fin.ext (by omega))
        simp [he, this]

/-- `K0`..`K3` hold the constants of rule R26 in every state. -/
theorem State.kern_of_lt (j : RegIx) (h : j.val < 4) : s.kern j = romKernel j := by simp [State.kern, h]

end Sys2Proof.Machine
end

