-- ==== Sys2Proof/Laws/Ops.lean ====
section
/-!
SUPPORT. One lemma for each shared operation that says everything it can do: reading a source operand, raising an
error, ending a command (rules R14, R255, R258, R261, R263).
-/

namespace Sys2Proof.Machine

@[simp] theorem raiseIf_true {c : Prop} [Decidable c] (h : c) (e : ErrCode) : raiseIf c e = .error e := by
  simp [raiseIf, h]

@[simp] theorem raiseIf_false {c : Prop} [Decidable c] (h : ¬c) (e : ErrCode) : raiseIf c e = .ok () := by
  simp [raiseIf, h]

theorem raiseIf_cases {c : Prop} [Decidable c] (e : ErrCode) :
    (c ∧ raiseIf c e = .error e) ∨ (¬c ∧ raiseIf c e = .ok ()) := by
  by_cases h : c
  · exact .inl ⟨h, raiseIf_true h e⟩
  · exact .inr ⟨h, raiseIf_false h e⟩

theorem State.srcBuf_ok {s : State} {b : RegIx} {x : Arr} (h : s.buf b = some x) : s.srcBuf b = .ok x := by
  simp [State.srcBuf, h]

theorem State.srcBuf_empty {s : State} {b : RegIx} (h : s.buf b = none) : s.srcBuf b = .error .empty := by
  simp [State.srcBuf, h]

theorem State.srcScal_ok {s : State} {j : RegIx} {x : NUM} (h : s.scal j = some x) : s.srcScal j = .ok x := by
  simp [State.srcScal, h]

theorem State.srcScal_empty {s : State} {j : RegIx} (h : s.scal j = none) : s.srcScal j = .error .empty := by
  simp [State.srcScal, h]

theorem State.srcKern_ok {s : State} {j : RegIx} (h : s.kern j ≠ []) : s.srcKern j = .ok (s.kern j) := by
  unfold State.srcKern
  split
  · rename_i he; exact absurd he h
  · rename_i he; rw [he]

theorem State.srcKern_empty {s : State} {j : RegIx} (h : s.kern j = []) : s.srcKern j = .error .empty := by
  simp [State.srcKern, h]

@[simp] theorem finish_ok (i : Instr) (s t : State) : finish i s (.ok t) = .next t.succeed := rfl

@[simp] theorem finish_error (i : Instr) (s : State) (e : ErrCode) :
    finish i s (.error e) = .next (s.takeError e (encode i)) := rfl

/-- Everything the end of a command can do: success with the writes made, or the error and nothing else. -/
theorem finish_cases (i : Instr) (s : State) (r : Except ErrCode State) :
    (∃ t, r = .ok t ∧ finish i s r = .next t.succeed) ∨
      (∃ e, r = .error e ∧ finish i s r = .next (s.takeError e (encode i))) := by
  cases r with
  | ok t => exact .inl ⟨t, rfl, rfl⟩
  | error e => exact .inr ⟨e, rfl, rfl⟩

end Sys2Proof.Machine
end

