-- ==== Sys2Proof/Laws/Invariant.lean ====
section
/-!
SUPPORT. Every operation over the state keeps the invariant of `Safety.lean`, and every array that a command function
builds from legal arrays is legal (rules R22, R25, R36, R38).
-/

namespace Sys2Proof.Machine

/-! ### The parts of the invariant -/

theorem State.inv_iff (s : State) : s.inv = true ↔ s.cfg.wf = true ∧ s.bufsOk = true ∧ s.kernelsOk = true ∧
    s.imgSizeOk = true ∧ s.stickyOk = true := by
  simp [State.inv, and_assoc]

theorem State.bufsOk_iff (s : State) : s.bufsOk = true ↔ ∀ b x, s.buf b = some x → x.wf s.cfg.maxDim = true := by
  simp only [State.bufsOk, List.all_eq_true]
  constructor
  · intro h b x hb
    have := h (some x) (by rw [← hb]; simp [State.buf, Vector.get])
    simpa using this
  · intro h o ho
    cases o with
    | none => rfl
    | some x =>
      obtain ⟨k, hk, he⟩ := List.mem_iff_getElem.mp ho
      simp only [Vector.length_toList] at hk
      exact h ⟨k, hk⟩ x (by simpa [State.buf, Vector.get] using he)

theorem State.kernelsOk_iff (s : State) : s.kernelsOk = true ↔ ∀ h ∈ s.kernels.toList, h.length ≤ s.cfg.maxTaps := by
  simp only [State.kernelsOk, List.all_eq_true, decide_eq_true_eq]

theorem Arr.wf_iff (m : Nat) (x : Arr) : x.wf m = true ↔ x.shaped = true ∧ 1 ≤ x.rows ∧ x.rows ≤ m ∧ 1 ≤ x.cols ∧
    x.cols ≤ m := by
  simp [Arr.wf, and_assoc]

theorem Config.wf_iff (c : Config) : c.wf = true ↔ 256 ≤ c.maxDim ∧ c.maxDim ≤ 65535 ∧ 5 ≤ c.maxTaps ∧
    c.maxTaps ≤ 255 ∧ (c.num = .reals ∨ 0 < c.eps) := by
  simp [Config.wf, and_assoc]

/-- A source buffer of a state that meets the invariant holds a legal array. -/
theorem State.inv_buf {s : State} (h : s.inv = true) {b : RegIx} {x : Arr} (hb : s.buf b = some x) :
    x.wf s.cfg.maxDim = true := s.bufsOk_iff.mp (s.inv_iff.mp h).2.1 b x hb

/-! ### The operations -/

theorem State.inv_congr {s t : State} (h : s.inv = true) (hb : t.bufs = s.bufs) (hk : t.kernels = s.kernels)
    (hc : t.cfg = s.cfg) (hi : t.imgSize = s.imgSize) (hs : t.sticky = s.sticky) : t.inv = true := by
  have e : t.inv = s.inv := by
    simp only [State.inv, State.bufsOk, State.kernelsOk, State.imgSizeOk, State.stickyOk, hb, hk, hc, hi, hs]
  rw [e, h]

theorem State.inv_setBuf {s : State} (h : s.inv = true) (b : RegIx) {x : Arr} (hx : x.wf s.cfg.maxDim = true) :
    (s.setBuf b x).inv = true := by
  rw [State.inv_iff] at h ⊢
  refine ⟨h.1, ?_, h.2.2⟩
  rw [State.bufsOk_iff] at *
  intro b' y hy
  rw [State.buf_setBuf] at hy
  split at hy
  · cases hy; exact hx
  · exact h.2.1 b' y hy

theorem State.inv_freeBuf {s : State} (h : s.inv = true) (b : RegIx) : (s.freeBuf b).inv = true := by
  rw [State.inv_iff] at h ⊢
  refine ⟨h.1, ?_, h.2.2⟩
  rw [State.bufsOk_iff] at *
  intro b' y hy
  rw [State.buf_freeBuf] at hy
  split at hy
  · cases hy
  · exact h.2.1 b' y hy

theorem State.inv_setScal {s : State} (h : s.inv = true) (j : RegIx) (v : NUM) : (s.setScal j v).inv = true :=
  State.inv_congr h rfl rfl rfl rfl rfl

theorem State.inv_succeed {s : State} (h : s.inv = true) : s.succeed.inv = true :=
  State.inv_congr h rfl rfl rfl rfl rfl

theorem State.inv_setKern {s : State} (h : s.inv = true) (j : RegIx) {taps : List NUM}
    (ht : taps.length ≤ s.cfg.maxTaps) : (s.setKern j taps).inv = true := by
  unfold State.setKern
  split
  · exact h
  · rw [State.inv_iff] at h ⊢
    refine ⟨h.1, h.2.1, ?_, h.2.2.2⟩
    have hk := s.kernelsOk_iff.mp h.2.2.1
    rw [State.kernelsOk_iff]
    intro g hg
    rw [Vector.mem_toList_iff] at hg
    rcases Vector.mem_or_eq_of_mem_set (hi := by omega) hg with h1 | h1
    · exact hk g (Vector.mem_toList_iff.mpr h1)
    · rw [h1]; exact ht

/-- Setting one of the bits 1..7 keeps the bits of `STICKY` that are always 0 (rule R36). -/
theorem State.stickyOk_setSticky {s : State} (h : s.stickyOk = true) {c : Nat} (h1 : 1 ≤ c) (h7 : c ≤ 7) :
    setSticky s.sticky c &&& 0xFFFFFF01#32 = 0#32 := by
  simp only [State.stickyOk, decide_eq_true_eq] at h
  have e : ∀ d : Fin 8, 1 ≤ d.val → stickyBit d.val &&& 0xFFFFFF01#32 = 0#32 := by decide
  have e1 := e ⟨c, by omega⟩ h1
  have : (s.sticky ||| stickyBit c) &&& 0xFFFFFF01#32 =
      (s.sticky &&& 0xFFFFFF01#32) ||| (stickyBit c &&& 0xFFFFFF01#32) := by
    apply BitVec.eq_of_getLsbD_eq
    intro i hi
    simp only [BitVec.getLsbD_and, BitVec.getLsbD_or]
    cases s.sticky.getLsbD i <;> cases (stickyBit c).getLsbD i <;> simp
  rw [setSticky, this, h, e1]; rfl

theorem State.inv_takeError {s : State} (h : s.inv = true) {e : ErrCode} (he : e ≠ .ok) (w : Word) :
    (s.takeError e w).inv = true := by
  rw [State.inv_iff] at h ⊢
  refine ⟨h.1, h.2.1, h.2.2.1, h.2.2.2.1, ?_⟩
  have := State.stickyOk_setSticky (c := e.code) h.2.2.2.2 (by cases e <;> simp_all [ErrCode.code])
    (by cases e <;> simp [ErrCode.code])
  exact decide_eq_true this

theorem State.inv_hostErr {s : State} (h : s.inv = true) : s.hostErr.inv = true := by
  rw [State.inv_iff] at h ⊢
  refine ⟨h.1, h.2.1, h.2.2.1, h.2.2.2.1, ?_⟩
  have := State.stickyOk_setSticky (c := hostErrBit) h.2.2.2.2 (by decide) (by decide)
  exact decide_eq_true this

/-! ### The command functions -/

theorem Arr.wf_ofFn {k m n : Nat} (f : Nat → Nat → NUM) (h1 : 1 ≤ m) (h2 : m ≤ k) (h3 : 1 ≤ n) (h4 : n ≤ k) :
    (Arr.ofFn m n f).wf k = true := (Arr.wf_iff _ _).mpr ⟨Arr.shaped_ofFn _ _ _, h1, h2, h3, h4⟩

variable {f : NumFormat} {k : Nat} {x : Arr} (hx : x.wf k = true)
include hx

theorem wf_colxfm (c : Arr) : (colxfm f x c).wf k = true := by
  obtain ⟨_, h⟩ := (Arr.wf_iff _ _).mp hx
  exact Arr.wf_ofFn _ h.1 h.2.1 h.2.2.1 h.2.2.2

theorem wf_transpose : x.transpose.wf k = true := by
  obtain ⟨_, h⟩ := (Arr.wf_iff _ _).mp hx
  exact Arr.wf_ofFn _ h.2.2.1 h.2.2.2 h.1 h.2.1

theorem wf_separable (c : Arr) : (separable f x c).wf k = true := wf_transpose (wf_colxfm (wf_transpose (wf_colxfm hx c)) c)

theorem wf_regroup (n1 n2 : Nat) : (regroup x n1 n2).wf k = true := by
  obtain ⟨_, h⟩ := (Arr.wf_iff _ _).mp hx
  exact Arr.wf_ofFn _ h.1 h.2.1 h.2.2.1 h.2.2.2

theorem wf_quantise (step : NUM) : (x.quantise f step).wf k = true := by
  obtain ⟨_, h⟩ := (Arr.wf_iff _ _).mp hx
  exact Arr.wf_ofFn _ h.1 h.2.1 h.2.2.1 h.2.2.2

theorem wf_paste (r0 c0 : Nat) (p : Arr) : (x.paste r0 c0 p).wf k = true := by
  obtain ⟨_, h⟩ := (Arr.wf_iff _ _).mp hx
  exact Arr.wf_ofFn _ h.1 h.2.1 h.2.2.1 h.2.2.2

theorem wf_setCell (r c : Nat) (v : NUM) : (x.setCell r c v).wf k = true := by
  obtain ⟨hs, h⟩ := (Arr.wf_iff _ _).mp hx
  exact (Arr.wf_iff _ _).mpr ⟨Arr.shaped_setCell r c v hs, h⟩

theorem wf_rowdec (hc : x.cols % 2 = 0) (h : List NUM) : (rowdec f x h).wf k = true := by
  obtain ⟨_, e⟩ := (Arr.wf_iff _ _).mp hx
  exact Arr.wf_ofFn _ e.1 e.2.1 (by omega) (by omega)

theorem wf_rowdec2 (hc : x.cols % 2 = 0) (h : List NUM) : (rowdec2 f x h).wf k = true := by
  obtain ⟨_, e⟩ := (Arr.wf_iff _ _).mp hx
  exact Arr.wf_ofFn _ e.1 e.2.1 (by omega) (by omega)

theorem wf_rowint (hc : 2 * x.cols ≤ k) (g : List NUM) : (rowint f x g).wf k = true := by
  obtain ⟨_, e⟩ := (Arr.wf_iff _ _).mp hx
  exact Arr.wf_ofFn _ e.1 e.2.1 (by omega) hc

theorem wf_rowint2 (hc : 2 * x.cols ≤ k) (g : List NUM) : (rowint2 f x g).wf k = true := by
  obtain ⟨_, e⟩ := (Arr.wf_iff _ _).mp hx
  exact Arr.wf_ofFn _ e.1 e.2.1 (by omega) hc

theorem wf_dwt (hr : x.rows % 2 = 0) (hc : x.cols % 2 = 0) (h1 h2 : List NUM) : (dwt f x h1 h2).wf k = true := by
  obtain ⟨_, e⟩ := (Arr.wf_iff _ _).mp hx
  refine (Arr.wf_iff _ _).mpr ⟨Arr.shaped_ofFn _ _ _, ?_⟩
  simp only [rows_dwt, cols_dwt]; omega

theorem wf_idwt (hc : x.cols % 2 = 0) (g1 g2 : List NUM) : (idwt f x g1 g2).wf k = true := by
  obtain ⟨_, e⟩ := (Arr.wf_iff _ _).mp hx
  refine (Arr.wf_iff _ _).mpr ⟨Arr.shaped_ofFn _ _ _, ?_⟩
  simp only [rows_idwt, cols_idwt]; omega

theorem wf_dwtLevels (n mr mc : Nat) : (dwtLevels f n mr mc x).wf k = true := by
  obtain ⟨hs, e⟩ := (Arr.wf_iff _ _).mp hx
  refine (Arr.wf_iff _ _).mpr ⟨shaped_dwtLevels f n mr mc x hs, ?_⟩
  simpa using e

theorem wf_idwtLevels (n mr mc : Nat) : (idwtLevels f n mr mc x).wf k = true := by
  obtain ⟨hs, e⟩ := (Arr.wf_iff _ _).mp hx
  refine (Arr.wf_iff _ _).mpr ⟨shaped_idwtLevels f n mr mc x hs, ?_⟩
  simpa using e

omit hx

theorem wf_quantBand {bin : BinRule} {y : Arr} {step : NUM} {o l r0 c0 m n : Nat} {acc : Arr × Arr}
    (h1 : acc.1.wf k = true) (h2 : acc.2.wf k = true) :
    (quantBand f bin y step o l r0 c0 m n acc).1.wf k = true ∧
      (quantBand f bin y step o l r0 c0 m n acc).2.wf k = true :=
  ⟨wf_paste h1 r0 c0 _, wf_setCell h2 o l _⟩

theorem wf_quantLevels {bin : BinRule} {y t : Arr} (n l mr mc : Nat) (acc : Arr × Arr) (h1 : acc.1.wf k = true)
    (h2 : acc.2.wf k = true) :
    (quantLevels f bin y t n l mr mc acc).1.wf k = true ∧ (quantLevels f bin y t n l mr mc acc).2.wf k = true := by
  induction n generalizing l mr mc acc with
  | zero => exact wf_quantBand h1 h2
  | succ n ih =>
    have e1 := wf_quantBand (f := f) (bin := bin) (y := y) (step := t.get 0 l) (o := 0) (l := l) (r0 := 0) (c0 := mc / 2)
      (m := mr / 2) (n := mc / 2) h1 h2
    have e2 := wf_quantBand (f := f) (bin := bin) (y := y) (step := t.get 1 l) (o := 1) (l := l) (r0 := mr / 2) (c0 := 0)
      (m := mr / 2) (n := mc / 2) e1.1 e1.2
    have e3 := wf_quantBand (f := f) (bin := bin) (y := y) (step := t.get 2 l) (o := 2) (l := l) (r0 := mr / 2) (c0 := mc / 2)
      (m := mr / 2) (n := mc / 2) e2.1 e2.2
    exact ih _ _ _ _ e3.1 e3.2

/-- The quantised array has the source's shape and the entropy table the step table's (rules R191, R194). -/
theorem wf_quantdwt {bin : BinRule} {y t : Arr} (hy : y.wf k = true) (hk : 3 ≤ k) (h1 : 1 ≤ t.cols) (h2 : t.cols ≤ k) :
    (quantdwt f bin y t).1.wf k = true ∧ (quantdwt f bin y t).2.wf k = true :=
  wf_quantLevels _ _ _ _ _ hy (Arr.wf_ofFn _ (by omega) hk h1 h2)

end Sys2Proof.Machine
end

