-- ==== Sys2Proof/Laws/PerInstr.lean ====
section
/-!
SUPPORT. A statement about every command as syntax, one lemma per constructor: the word of a command carries its own
row's opcode number in bits 31:26 (rules R90, R97).
-/

namespace Sys2Proof.Laws

/-- Bits 31:26 of the command's word are the opcode of its row, which the opcode map reads back as that row. -/
def OpcodeOfEncode.Statement (i : Instr) : Prop := opcodeOf (opField (encode i)) = some i.opcode

/-- A word whose opcode bits are a row's number is read as that row. -/
theorem opcodeOf_of_extract {w : Word} {op : Opcode} (h : w.extractLsb' 26 6 = BitVec.ofNat 6 op.code) :
    opcodeOf (opField w) = some op := by
  have e : opField w = op.code := by
    rw [opField, bits, h, BitVec.toNat_ofNat, Nat.mod_eq_of_lt op.code_lt]
  rw [e, opcodeOf_code]

theorem OpcodeOfEncode.nop : OpcodeOfEncode.Statement .nop :=
  opcodeOf_of_extract (formatZ_op ..)

theorem OpcodeOfEncode.free (a : RegIx) : OpcodeOfEncode.Statement (.free a) :=
  opcodeOf_of_extract (formatN_op ..)

theorem OpcodeOfEncode.mkdct2 (a : RegIx) (b : Nat) : OpcodeOfEncode.Statement (.mkdct2 a b) :=
  opcodeOf_of_extract (formatN_op ..)

theorem OpcodeOfEncode.mkdct4 (a : RegIx) (b : Nat) : OpcodeOfEncode.Statement (.mkdct4 a b) :=
  opcodeOf_of_extract (formatN_op ..)

theorem OpcodeOfEncode.colxfm (a : RegIx) (b : RegIx) (c : RegIx) : OpcodeOfEncode.Statement (.colxfm a b c) :=
  opcodeOf_of_extract (formatR_op ..)

theorem OpcodeOfEncode.trn (a : RegIx) (b : RegIx) : OpcodeOfEncode.Statement (.trn a b) :=
  opcodeOf_of_extract (formatR_op ..)

theorem OpcodeOfEncode.dct (a : RegIx) (b : RegIx) (c : Nat) : OpcodeOfEncode.Statement (.dct a b c) :=
  opcodeOf_of_extract (formatN_op ..)

theorem OpcodeOfEncode.idct (a : RegIx) (b : RegIx) (c : Nat) : OpcodeOfEncode.Statement (.idct a b c) :=
  opcodeOf_of_extract (formatN_op ..)

theorem OpcodeOfEncode.regroup (a : RegIx) (b : RegIx) (c : Nat) (d : Nat) : OpcodeOfEncode.Statement (.regroup a b c d) :=
  opcodeOf_of_extract (formatN_op ..)

theorem OpcodeOfEncode.dctbpp (a : RegIx) (b : RegIx) (c : Nat) : OpcodeOfEncode.Statement (.dctbpp a b c) :=
  opcodeOf_of_extract (formatN_op ..)

theorem OpcodeOfEncode.dwt (a : RegIx) (b : RegIx) (c : RegIx) (d : RegIx) : OpcodeOfEncode.Statement (.dwt a b c d) :=
  opcodeOf_of_extract (formatR_op ..)

theorem OpcodeOfEncode.idwt (a : RegIx) (b : RegIx) (c : RegIx) (d : RegIx) : OpcodeOfEncode.Statement (.idwt a b c d) :=
  opcodeOf_of_extract (formatR_op ..)

theorem OpcodeOfEncode.nlevdwt (a : RegIx) (b : RegIx) (c : Nat) : OpcodeOfEncode.Statement (.nlevdwt a b c) :=
  opcodeOf_of_extract (formatN_op ..)

theorem OpcodeOfEncode.nlevidwt (a : RegIx) (b : RegIx) (c : Nat) : OpcodeOfEncode.Statement (.nlevidwt a b c) :=
  opcodeOf_of_extract (formatN_op ..)

theorem OpcodeOfEncode.quantdwt (a : RegIx) (b : RegIx) (c : RegIx) (d : RegIx) : OpcodeOfEncode.Statement (.quantdwt a b c d) :=
  opcodeOf_of_extract (formatR_op ..)

theorem OpcodeOfEncode.energyz (a : RegIx) (b : Nat) (c : Nat) (d : Nat) : OpcodeOfEncode.Statement (.energyz a b c d) :=
  opcodeOf_of_extract (formatE_op ..)

theorem OpcodeOfEncode.quantise (a : RegIx) (b : RegIx) (c : RegIx) : OpcodeOfEncode.Statement (.quantise a b c) :=
  opcodeOf_of_extract (formatR_op ..)

theorem OpcodeOfEncode.bpp (a : RegIx) (b : RegIx) : OpcodeOfEncode.Statement (.bpp a b) :=
  opcodeOf_of_extract (formatR_op ..)

theorem OpcodeOfEncode.rowdec (a : RegIx) (b : RegIx) (c : RegIx) : OpcodeOfEncode.Statement (.rowdec a b c) :=
  opcodeOf_of_extract (formatR_op ..)

theorem OpcodeOfEncode.rowdec2 (a : RegIx) (b : RegIx) (c : RegIx) : OpcodeOfEncode.Statement (.rowdec2 a b c) :=
  opcodeOf_of_extract (formatR_op ..)

theorem OpcodeOfEncode.rowint (a : RegIx) (b : RegIx) (c : RegIx) : OpcodeOfEncode.Statement (.rowint a b c) :=
  opcodeOf_of_extract (formatR_op ..)

theorem OpcodeOfEncode.rowint2 (a : RegIx) (b : RegIx) (c : RegIx) : OpcodeOfEncode.Statement (.rowint2 a b c) :=
  opcodeOf_of_extract (formatR_op ..)

end Sys2Proof.Laws
end

