-- ==== Sys2Proof/Laws/Values.lean ====
section
/-!
SUPPORT. The ideal real value of every cell that the command functions compute (rule R8): one lemma per function,
against the formulas of `Machine/Ideal.lean`.
-/

namespace Sys2Proof.Machine

variable (ρ : Nat → ℝ)

theorem val_filterAt (h : List NUM) (c : Nat) (u : Nat → NUM) (t : Nat) :
    (filterAt .reals h c u t).val ρ = idealFilter ρ h c (fun k => (u k).val ρ) t := by
  simp [filterAt, idealFilter]

/-- A filter reads only samples of its row. -/
theorem idealFilter_congr (h : List NUM) {c : Nat} (hc : 1 ≤ c) {x y : Nat → ℝ} (e : ∀ k, k < c → x k = y k) (t : Nat) :
    idealFilter ρ h c x t = idealFilter ρ h c y t := by
  unfold idealFilter
  refine Finset.sum_congr rfl fun i _ => ?_
  rw [e _ (refl_lt hc _)]

theorem val_spreadEven (u : Nat → NUM) (t : Nat) :
    (spreadEven u t).val ρ = if t % 2 = 0 then (u (t / 2)).val ρ else 0 := by
  unfold spreadEven; split <;> simp

theorem val_spreadOdd (u : Nat → NUM) (t : Nat) :
    (spreadOdd u t).val ρ = if t % 2 = 0 then 0 else (u (t / 2)).val ρ := by
  unfold spreadOdd; split <;> simp

theorem val_rowdec {x : Arr} (h : List NUM) {r t : Nat} (hr : r < x.rows) (ht : t < x.cols / 2) :
    (rowdec .reals x h).val ρ r t = idealLow ρ h x.cols (x.val ρ r) t := by
  unfold Arr.val rowdec
  rw [Arr.get_ofFn _ hr ht, val_filterAt]; rfl

theorem val_rowdec2 {x : Arr} (h : List NUM) {r t : Nat} (hr : r < x.rows) (ht : t < x.cols / 2) :
    (rowdec2 .reals x h).val ρ r t = idealHigh ρ h x.cols (x.val ρ r) t := by
  unfold Arr.val rowdec2
  rw [Arr.get_ofFn _ hr ht, val_filterAt]; rfl

theorem val_rowint {x : Arr} (g : List NUM) {r t : Nat} (hr : r < x.rows) (ht : t < 2 * x.cols) :
    (rowint .reals x g).val ρ r t = idealInt ρ g x.cols (x.val ρ r) t := by
  unfold Arr.val rowint
  rw [Arr.get_ofFn _ hr ht, val_filterAt]; simp only [val_spreadEven]; rfl

theorem val_rowint2 {x : Arr} (g : List NUM) {r t : Nat} (hr : r < x.rows) (ht : t < 2 * x.cols) :
    (rowint2 .reals x g).val ρ r t = idealInt2 ρ g x.cols (x.val ρ r) t := by
  unfold Arr.val rowint2
  rw [Arr.get_ofFn _ hr ht, val_filterAt]; simp only [val_spreadOdd]; rfl

theorem idealInt_congr (g : List NUM) {c : Nat} {x y : Nat → ℝ} (e : ∀ k, k < c → x k = y k) {t : Nat}
    (ht : t < 2 * c) : idealInt ρ g c x t = idealInt ρ g c y t := by
  refine idealFilter_congr ρ g (by omega) (fun k hk => ?_) t
  split
  · exact e _ (by omega)
  · rfl

theorem idealInt2_congr (g : List NUM) {c : Nat} {x y : Nat → ℝ} (e : ∀ k, k < c → x k = y k) {t : Nat}
    (ht : t < 2 * c) : idealInt2 ρ g c x t = idealInt2 ρ g c y t := by
  refine idealFilter_congr ρ g (by omega) (fun k hk => ?_) t
  split
  · rfl
  · exact e _ (by omega)

theorem val_transpose {x : Arr} {r c : Nat} (hr : r < x.rows) (hc : c < x.cols) :
    x.transpose.val ρ c r = x.val ρ r c := by
  unfold Arr.val; rw [Arr.get_transpose hr hc]

theorem val_sub {x : Arr} {r0 c0 m n r c : Nat} (hr : r < m) (hc : c < n) :
    (x.sub r0 c0 m n).val ρ r c = x.val ρ (r0 + r) (c0 + c) := by
  unfold Arr.val; rw [Arr.get_sub hr hc]

theorem val_plus {x y : Arr} {r c : Nat} (hr : r < x.rows) (hc : c < x.cols) :
    (x.plus .reals y).val ρ r c = x.val ρ r c + y.val ρ r c := by
  unfold Arr.val Arr.plus; rw [Arr.get_ofFn _ hr hc]; simp

theorem val_beside {x y : Arr} {r c : Nat} (hr : r < x.rows) (hc : c < x.cols + y.cols) :
    (x.beside y).val ρ r c = if c < x.cols then x.val ρ r c else y.val ρ r (c - x.cols) := by
  unfold Arr.val Arr.beside; rw [Arr.get_ofFn _ hr hc]; split <;> rfl

theorem val_above {x y : Arr} {r c : Nat} (hr : r < x.rows + y.rows) (hc : c < x.cols) :
    (x.above y).val ρ r c = if r < x.rows then x.val ρ r c else y.val ρ (r - x.rows) c := by
  unfold Arr.val Arr.above; rw [Arr.get_ofFn _ hr hc]; split <;> rfl

theorem val_paste {x p : Arr} {r0 c0 r c : Nat} (hr : r < x.rows) (hc : c < x.cols) :
    (x.paste r0 c0 p).val ρ r c =
      if r0 ≤ r ∧ r < r0 + p.rows ∧ c0 ≤ c ∧ c < c0 + p.cols then p.val ρ (r - r0) (c - c0) else x.val ρ r c := by
  unfold Arr.val Arr.paste; rw [Arr.get_ofFn _ hr hc]; split <;> rfl

theorem val_dct2Entry (n i k : Nat) : (dct2Entry .reals n i k).val ρ = idealDct2 n i k := by
  unfold dct2Entry idealDct2
  dsimp only
  split
  · simp
  · simp only [NUM.val_times, NUM.val_sqrt, NUM.val_cosPi]
    push_cast; congr 2; ring

theorem val_dct4Entry (n i k : Nat) : (dct4Entry .reals n i k).val ρ = idealDct4 n i k := by
  unfold dct4Entry idealDct4
  dsimp only
  simp only [NUM.val_times, NUM.val_sqrt, NUM.val_cosPi]
  push_cast; congr 2; ring

theorem val_dct2Matrix {n i k : Nat} (hi : i < n) (hk : k < n) : (dct2Matrix .reals n).val ρ i k = idealDct2 n i k := by
  unfold Arr.val dct2Matrix; rw [Arr.get_ofFn _ hi hk, val_dct2Entry]

theorem val_dct4Matrix {n i k : Nat} (hi : i < n) (hk : k < n) : (dct4Matrix .reals n).val ρ i k = idealDct4 n i k := by
  unfold Arr.val dct4Matrix; rw [Arr.get_ofFn _ hi hk, val_dct4Entry]

/-- Rule R141 at cell `[b*N + i][j]`. -/
theorem val_colxfm {x c : Arr} {b i j : Nat} (hr : b * c.rows + i < x.rows) (hi : i < c.rows) (hj : j < x.cols) :
    (colxfm .reals x c).val ρ (b * c.rows + i) j =
      ∑ k ∈ Finset.range c.rows, c.val ρ i k * x.val ρ (b * c.rows + k) j := by
  have h1 : (b * c.rows + i) % c.rows = i := by rw [Nat.mul_comm, Nat.mul_add_mod, Nat.mod_eq_of_lt hi]
  have h2 : (b * c.rows + i) / c.rows = b := by
    rw [Nat.mul_comm, Nat.mul_add_div (by omega), Nat.div_eq_of_lt hi, Nat.add_zero]
  unfold Arr.val colxfm
  rw [Arr.get_ofFn _ hr hj, NumFormat.sum_reals, NUM.val_sum, h1, h2]
  simp

/-- Blocks of `n` rows of an array with a multiple of `n` rows. -/
theorem block_lt {m n p i : Nat} (hm : m % n = 0) (hp : p < m / n) (hi : i < n) : p * n + i < m := by
  have h : m = n * (m / n) := by have := Nat.div_add_mod m n; omega
  calc p * n + i < p * n + n := by omega
    _ = (p + 1) * n := by ring
    _ ≤ (m / n) * n := Nat.mul_le_mul_right _ hp
    _ = m := by rw [Nat.mul_comm]; exact h.symm

/-- The separable transform of rules R151 and R153 at cell `[p*N + i][q*N + j]` (rule R152). -/
theorem val_separable {x c : Arr} {n p q i j : Nat} (hn : c.rows = n) (hr : x.rows % n = 0) (hc : x.cols % n = 0)
    (hp : p < x.rows / n) (hq : q < x.cols / n) (hi : i < n) (hj : j < n) :
    (separable .reals x c).val ρ (p * n + i) (q * n + j) =
      ∑ k ∈ Finset.range n, ∑ l ∈ Finset.range n, c.val ρ i k * x.val ρ (p * n + k) (q * n + l) * c.val ρ j l := by
  subst hn
  have h1 := block_lt hr hp hi
  have h2 := block_lt hc hq hj
  unfold separable
  simp only
  rw [val_transpose ρ (by simpa using h2) (by simpa using h1),
    val_colxfm ρ (by simpa using h2) hj (by simpa using h1), Finset.sum_comm]
  refine Finset.sum_congr rfl fun l hl => ?_
  have h3 := block_lt hc hq (Finset.mem_range.mp hl)
  rw [val_transpose ρ (by simpa using h1) (by simpa using h3), val_colxfm ρ h1 hi h3, Finset.mul_sum]
  refine Finset.sum_congr rfl fun k _ => ?_
  ring

/-- The cells of `dwt` (rules R171, R172). -/
theorem val_dwt {x : Arr} (h1 h2 : List NUM) {r c : Nat} (hr : r < 2 * (x.rows / 2)) (hc : c < 2 * (x.cols / 2)) :
    (dwt .reals x h1 h2).val ρ r c = idealDwt ρ h1 h2 x.rows x.cols (x.val ρ) r c := by
  have hR : 1 ≤ x.rows := by omega
  have across : ∀ k, k < x.rows → (((rowdec .reals x h1).beside (rowdec2 .reals x h2)).transpose).val ρ c k =
      if c < x.cols / 2 then idealLow ρ h1 x.cols (x.val ρ k) c
      else idealHigh ρ h2 x.cols (x.val ρ k) (c - x.cols / 2) := by
    intro k hk
    rw [val_transpose ρ (by simpa using hk) (by simp; omega), val_beside ρ (by simpa using hk) (by simp; omega)]
    by_cases h : c < x.cols / 2
    · rw [if_pos (by simpa using h), if_pos h, val_rowdec ρ h1 hk h]
    · rw [if_neg (by simpa using h), if_neg h]
      exact val_rowdec2 ρ h2 hk (by simp; omega)
  unfold dwt idealDwt
  simp only
  rw [val_above ρ (by simp; omega) (by simp; omega)]
  by_cases h : r < x.rows / 2
  · rw [if_pos (by simpa using h), if_pos h, val_transpose ρ (by simp; omega) (by simpa using h),
      val_rowdec ρ h1 (by simp; omega) (by simpa using h)]
    exact idealFilter_congr ρ h1 hR across _
  · rw [if_neg (by simpa using h), if_neg h, val_transpose ρ (by simp; omega) (by simp; omega),
      val_rowdec2 ρ h2 (by simp; omega) (by simp; omega)]
    exact idealFilter_congr ρ h2 hR across _

/-- The cells of `idwt` (rule R173). -/
theorem val_idwt {y : Arr} (g1 g2 : List NUM) (hr : y.rows % 2 = 0) (hc : y.cols % 2 = 0) {r c : Nat}
    (h1 : r < y.rows) (h2 : c < y.cols) :
    (idwt .reals y g1 g2).val ρ r c = idealIdwt ρ g1 g2 y.rows y.cols (y.val ρ) r c := by
  have down : ∀ k, k < y.cols →
      ((rowint .reals (y.sub 0 0 (y.rows / 2) y.cols).transpose g1).transpose.plus .reals
        (rowint2 .reals (y.sub (y.rows / 2) 0 (y.rows / 2) y.cols).transpose g2).transpose).val ρ r k =
      idealInt ρ g1 (y.rows / 2) (fun r' => y.val ρ r' k) r +
        idealInt2 ρ g2 (y.rows / 2) (fun r' => y.val ρ (y.rows / 2 + r') k) r := by
    intro k hk
    rw [val_plus ρ (by simp; omega) (by simpa using hk), val_transpose ρ (by simpa using hk) (by simp; omega),
      val_transpose ρ (by simpa using hk) (by simp; omega), val_rowint ρ g1 (by simpa using hk) (by simp; omega),
      val_rowint2 ρ g2 (by simpa using hk) (by simp; omega)]
    simp only [Arr.cols_transpose, Arr.rows_sub]
    congr 1
    · refine idealInt_congr ρ g1 (fun a ha => ?_) (by omega)
      rw [val_transpose ρ (by simpa using ha) (by simpa using hk), val_sub ρ ha hk]; simp
    · refine idealInt2_congr ρ g2 (fun a ha => ?_) (by omega)
      rw [val_transpose ρ (by simpa using ha) (by simpa using hk), val_sub ρ ha hk]; simp
  unfold idwt idealIdwt
  simp only
  rw [val_plus ρ (by simpa using h1) (by simp; omega), val_rowint ρ g1 (by simpa using h1) (by simp; omega),
    val_rowint2 ρ g2 (by simpa using h1) (by simp; omega)]
  simp only [Arr.cols_sub]
  congr 1
  · refine idealInt_congr ρ g1 (fun a ha => ?_) (by omega)
    rw [val_sub ρ h1 ha, Nat.zero_add, Nat.zero_add, down a (by omega)]
  · refine idealInt2_congr ρ g2 (fun a ha => ?_) (by omega)
    rw [val_sub ρ h1 ha, Nat.zero_add, down _ (by omega)]

/-- One level of the ideal forward transform reads its region only. -/
theorem idealDwt_congr (h1 h2 : List NUM) {m n : Nat} (hm : 1 ≤ m) (hn : 1 ≤ n) {x y : Nat → Nat → ℝ}
    (e : ∀ r c, r < m → c < n → x r c = y r c) (r c : Nat) :
    idealDwt ρ h1 h2 m n x r c = idealDwt ρ h1 h2 m n y r c := by
  have across : ∀ k, k < m →
      (if c < n / 2 then idealLow ρ h1 n (x k) c else idealHigh ρ h2 n (x k) (c - n / 2)) =
      (if c < n / 2 then idealLow ρ h1 n (y k) c else idealHigh ρ h2 n (y k) (c - n / 2)) := by
    intro k hk
    split
    · exact idealFilter_congr ρ h1 hn (fun a ha => e k a hk ha) _
    · exact idealFilter_congr ρ h2 hn (fun a ha => e k a hk ha) _
  unfold idealDwt
  simp only
  split
  · exact idealFilter_congr ρ h1 hm across _
  · exact idealFilter_congr ρ h2 hm across _

/-- One level of the ideal inverse transform reads its region only. -/
theorem idealIdwt_congr (g1 g2 : List NUM) {m n : Nat} (hm : m % 2 = 0) (hn : n % 2 = 0) {x y : Nat → Nat → ℝ}
    (e : ∀ r c, r < m → c < n → x r c = y r c) {r c : Nat} (hr : r < m) (hc : c < n) :
    idealIdwt ρ g1 g2 m n x r c = idealIdwt ρ g1 g2 m n y r c := by
  have down : ∀ k, k < n →
      idealInt ρ g1 (m / 2) (fun r' => x r' k) r + idealInt2 ρ g2 (m / 2) (fun r' => x (m / 2 + r') k) r =
      idealInt ρ g1 (m / 2) (fun r' => y r' k) r + idealInt2 ρ g2 (m / 2) (fun r' => y (m / 2 + r') k) r := by
    intro k hk
    congr 1
    · exact idealInt_congr ρ g1 (fun a ha => e _ _ (by omega) hk) (by omega)
    · exact idealInt2_congr ρ g2 (fun a ha => e _ _ (by omega) hk) (by omega)
  unfold idealIdwt
  simp only
  congr 1
  · exact idealInt_congr ρ g1 (fun a ha => down a (by omega)) (by omega)
  · exact idealInt2_congr ρ g2 (fun a ha => down _ (by omega)) (by omega)

/-- The multi-level forward transform (rule R176), from any level on. -/
theorem val_dwtLevels (n : Nat) {mr mc : Nat} {z : Arr} (f : Nat → Nat → ℝ) (hr : mr % 2 ^ n = 0) (hc : mc % 2 ^ n = 0)
    (hmr : mr ≤ z.rows) (hmc : mc ≤ z.cols) (hf : ∀ r c, r < z.rows → c < z.cols → z.val ρ r c = f r c)
    {r c : Nat} (h1 : r < z.rows) (h2 : c < z.cols) :
    (dwtLevels .reals n mr mc z).val ρ r c = idealDwtLevels ρ n mr mc f r c := by
  induction n generalizing mr mc z f with
  | zero => exact hf r c h1 h2
  | succ n ih =>
    have er : mr % 2 = 0 := by
      have : (2 : Nat) ∣ 2 ^ (n + 1) := Dvd.intro_left _ rfl
      exact Nat.mod_eq_zero_of_dvd (this.trans (Nat.dvd_of_mod_eq_zero hr))
    have ec : mc % 2 = 0 := by
      have : (2 : Nat) ∣ 2 ^ (n + 1) := Dvd.intro_left _ rfl
      exact Nat.mod_eq_zero_of_dvd (this.trans (Nat.dvd_of_mod_eq_zero hc))
    have hr2 : mr / 2 % 2 ^ n = 0 := by
      obtain ⟨k, rfl⟩ := Nat.dvd_of_mod_eq_zero hr
      rw [pow_succ, Nat.mul_comm (2 ^ n) 2, Nat.mul_assoc, Nat.mul_div_cancel_left _ (by norm_num)]
      simp
    have hc2 : mc / 2 % 2 ^ n = 0 := by
      obtain ⟨k, rfl⟩ := Nat.dvd_of_mod_eq_zero hc
      rw [pow_succ, Nat.mul_comm (2 ^ n) 2, Nat.mul_assoc, Nat.mul_div_cancel_left _ (by norm_num)]
      simp
    unfold dwtLevels idealDwtLevels
    refine ih _ hr2 hc2 (by simp; omega) (by simp; omega) (fun a b ha hb => ?_) (by simpa using h1) (by simpa using h2)
    simp only [Arr.rows_paste, Arr.cols_paste] at ha hb
    rw [val_paste ρ ha hb]
    simp only [rows_dwt, cols_dwt, Arr.rows_sub, Arr.cols_sub, Nat.zero_le, true_and, Nat.zero_add, Nat.sub_zero]
    have e1 : mr / 2 + mr / 2 = mr := by omega
    have e2 : mc / 2 + mc / 2 = mc := by omega
    rw [e1, e2]
    split
    · rename_i h
      rw [val_dwt ρ _ _ (by simp; omega) (by simp; omega)]
      simp only [Arr.rows_sub, Arr.cols_sub]
      refine idealDwt_congr ρ _ _ (by omega) (by omega) (fun u v hu hv => ?_) _ _
      rw [val_sub ρ hu hv, Nat.zero_add, Nat.zero_add]
      exact hf u v (by omega) (by omega)
    · exact hf a b ha hb

/-- The multi-level inverse transform (rule R179), from any level on. -/
theorem val_idwtLevels (n : Nat) {mr mc : Nat} {z : Arr} (f : Nat → Nat → ℝ)
    (hmr : mr * 2 ^ n ≤ z.rows) (hmc : mc * 2 ^ n ≤ z.cols)
    (hf : ∀ r c, r < z.rows → c < z.cols → z.val ρ r c = f r c)
    {r c : Nat} (h1 : r < z.rows) (h2 : c < z.cols) :
    (idwtLevels .reals n mr mc z).val ρ r c = idealIdwtLevels ρ n mr mc f r c := by
  induction n generalizing mr mc z f with
  | zero => exact hf r c h1 h2
  | succ n ih =>
    have e1 : 2 * mr * 2 ^ n = mr * 2 ^ (n + 1) := by ring
    have e2 : 2 * mc * 2 ^ n = mc * 2 ^ (n + 1) := by ring
    have p : 1 ≤ 2 ^ n := Nat.one_le_two_pow
    have l1 : 2 * mr ≤ z.rows := le_trans (by nlinarith) (e1 ▸ hmr)
    have l2 : 2 * mc ≤ z.cols := le_trans (by nlinarith) (e2 ▸ hmc)
    unfold idwtLevels idealIdwtLevels
    refine ih _ (by simpa [e1] using hmr) (by simpa [e2] using hmc) (fun a b ha hb => ?_) (by simpa using h1)
      (by simpa using h2)
    simp only [Arr.rows_paste, Arr.cols_paste] at ha hb
    rw [val_paste ρ ha hb]
    simp only [rows_idwt, cols_idwt, Arr.rows_sub, Arr.cols_sub, Nat.zero_le, true_and, Nat.zero_add, Nat.sub_zero]
    rw [Nat.mul_div_cancel_left mc (by norm_num)]
    split
    · rename_i h
      rw [val_idwt ρ _ _ (by simp) (by simp) (by simpa using h.1) (by simpa using h.2)]
      simp only [Arr.rows_sub, Arr.cols_sub]
      refine idealIdwt_congr ρ _ _ (by simp) (by simp) (fun u v hu hv => ?_) h.1 h.2
      rw [val_sub ρ hu hv, Nat.zero_add, Nat.zero_add]
      exact hf u v (by omega) (by omega)
    · exact hf a b ha hb

/-! ### Formats other than the reals -/

theorem val_filterAt_other (f : Nat) (h : List NUM) (c : Nat) (u : Nat → NUM) (t : Nat) :
    (filterAt (.other f) h c u t).val ρ = formatSum f h.length fun i =>
      arith2 f .mul ((h.getD i NUM.zero).val ρ)
        ((u (refl c ((t : Int) + ((h.length - 1) / 2 : Nat) - (i : Int)))).val ρ) := by
  simp [filterAt]

/-- Rule R141 at cell `[b*N + i][j]` in another format: that format's sum of its products, `k` increasing. -/
theorem val_colxfm_other (f : Nat) {x c : Arr} {b i j : Nat} (hr : b * c.rows + i < x.rows) (hi : i < c.rows)
    (hj : j < x.cols) : (colxfm (.other f) x c).val ρ (b * c.rows + i) j =
      formatSum f c.rows fun k => arith2 f .mul (c.val ρ i k) (x.val ρ (b * c.rows + k) j) := by
  have h1 : (b * c.rows + i) % c.rows = i := by rw [Nat.mul_comm, Nat.mul_add_mod, Nat.mod_eq_of_lt hi]
  have h2 : (b * c.rows + i) / c.rows = b := by
    rw [Nat.mul_comm, Nat.mul_add_div (by omega), Nat.div_eq_of_lt hi, Nat.add_zero]
  unfold Arr.val colxfm
  rw [Arr.get_ofFn _ hr hj, NumFormat.val_sum_other, h1, h2]
  simp

theorem val_dct2Entry_other (f n i k : Nat) : (dct2Entry (.other f) n i k).val ρ =
    if i = 0 then arith2 f .div 1 (Config.arithOther f .sqrt [(n : ℝ)])
    else arith2 f .mul (Config.arithOther f .sqrt [arith2 f .div 2 n])
      (Config.arithOther f .cos [arith2 f .div
        (arith2 f .mul (arith2 f .mul (arith2 f .add k (1 / 2)) (Config.arithOther f .pi [])) i) n]) := by
  unfold dct2Entry opCosine
  dsimp only
  split <;> simp [NUMList.vals]

/-! ### The tolerance -/

theorem near_reals {c : Config} (h : c.num = .reals) (a b : ℝ) : c.near a b ↔ a = b := by simp [Config.near, h]

theorem near_other {c : Config} (h : c.num ≠ .reals) (a b : ℝ) : c.near a b ↔ |a - b| ≤ (c.eps : ℝ) := by
  simp [Config.near, h]

end Sys2Proof.Machine
end

