-- ==== Sys2Proof/Machine/Assembler.lean ====
section
/-!
DEFINITION. The assembler's spelling of a command (rule R103) and the pseudo-instructions with their expansions
(rule R104). They are other spellings of the same words; no step uses them.
-/

namespace Sys2Proof.Machine

/-- An array buffer's assembler name, `A0`..`A7` (rules R22, R103). -/
def bufName (b : RegIx) : String := "A" ++ toString b.val

/-- A scalar register's assembler name, `S0`..`S7` (rules R24, R103). -/
def scalName (j : RegIx) : String := "S" ++ toString j.val

/-- A kernel register's assembler name, `K0`..`K7` (rules R25, R103). -/
def kernName (j : RegIx) : String := "K" ++ toString j.val

/-- The kernel register that an alias names (rules R26, R103). -/
def kernAlias (s : String) : Option RegIx :=
  if s = "KH1" then some 0
  else if s = "KH2" then some 1
  else if s = "KG1" then some 2
  else if s = "KG2" then some 3
  else none

/-- The operands of a command as the assembler writes them, in the order of rule R103. -/
def operandTexts : Instr → List String
  | .nop => []
  | .free ad => [bufName ad]
  | .mkdct2 ad n => [bufName ad, toString n]
  | .mkdct4 ad n => [bufName ad, toString n]
  | .colxfm ad sa ac => [bufName ad, bufName sa, bufName ac]
  | .trn ad sa => [bufName ad, bufName sa]
  | .dct ad sa n => [bufName ad, bufName sa, toString n]
  | .idct ad sa n => [bufName ad, bufName sa, toString n]
  | .regroup ad sa n1 n2 => [bufName ad, bufName sa, toString n1, toString n2]
  | .dctbpp sd sa n => [scalName sd, bufName sa, toString n]
  | .dwt ad sa k1 k2 => [bufName ad, bufName sa, kernName k1, kernName k2]
  | .idwt ad sa k1 k2 => [bufName ad, bufName sa, kernName k1, kernName k2]
  | .nlevdwt ad sa n => [bufName ad, bufName sa, toString n]
  | .nlevidwt ad sa n => [bufName ad, bufName sa, toString n]
  | .quantdwt ad ae sa ta => [bufName ad, bufName ae, bufName sa, bufName ta]
  | .energyz sd n layer i => [scalName sd, toString n, toString layer, toString i]
  | .quantise ad sa ss => [bufName ad, bufName sa, scalName ss]
  | .bpp sd sa => [scalName sd, bufName sa]
  | .rowdec ad sa k => [bufName ad, bufName sa, kernName k]
  | .rowdec2 ad sa k => [bufName ad, bufName sa, kernName k]
  | .rowint ad sa k => [bufName ad, bufName sa, kernName k]
  | .rowint2 ad sa k => [bufName ad, bufName sa, kernName k]

/-- The mnemonic of a row (rule R97). -/
def mnemonic : Opcode → String
  | .nop => "NOP"
  | .free => "FREE"
  | .mkdct2 => "MKDCT2"
  | .mkdct4 => "MKDCT4"
  | .colxfm => "COLXFM"
  | .trn => "TRN"
  | .dct => "DCT"
  | .idct => "IDCT"
  | .regroup => "REGROUP"
  | .dctbpp => "DCTBPP"
  | .dwt => "DWT"
  | .idwt => "IDWT"
  | .nlevdwt => "NLEVDWT"
  | .nlevidwt => "NLEVIDWT"
  | .quantdwt => "QUANTDWT"
  | .energyz => "ENERGYZ"
  | .quantise => "QUANTISE"
  | .bpp => "BPP"
  | .rowdec => "ROWDEC"
  | .rowdec2 => "ROWDEC2"
  | .rowint => "ROWINT"
  | .rowint2 => "ROWINT2"

/-- The line of a command: the mnemonic, then the operands separated by commas (rule R103). -/
def commandText (i : Instr) : String :=
  match operandTexts i with
  | [] => mnemonic i.opcode
  | o :: os => mnemonic i.opcode ++ " " ++ os.foldl (fun line t => line ++ ", " ++ t) o

/-- The pseudo-instructions (rule R104). -/
inductive Pseudo where
  /-- `REGROUP Ad, As, N` -/
  | regroupSquare (ad sa : RegIx) (n : Nat)
  /-- `MOV Ad, As` -/
  | mov (ad sa : RegIx)
  /-- `DWT Ad, As` -/
  | dwtDefault (ad sa : RegIx)
  /-- `IDWT Ad, As` -/
  | idwtDefault (ad sa : RegIx)
  deriving DecidableEq, Repr

/-- The expansion of a pseudo-instruction (rule R104). -/
def expandPseudo : Pseudo → Instr
  | .regroupSquare ad sa n => .regroup ad sa n n
  | .mov ad sa => .nlevdwt ad sa 0
  | .dwtDefault ad sa => .dwt ad sa 0 1
  | .idwtDefault ad sa => .idwt ad sa 2 3

end Sys2Proof.Machine
end

