-- ==== Sys2Proof/Tests/Slice0.lean ====
section
/-!
SUPPORT. The model's own tests: the encodability checks refuse ill-formed commands, words written out bit by bit from
rules R91 to R97 decode to their commands, the derived vectors of 95_test_vectors.md hold on single steps, and every
statement with hypotheses has operands that meet them. Expected results come from the spec's text.
-/

namespace Sys2Proof.Tests

open Sys2Proof.Machine

set_option Elab.async false

/-! ### Well-formedness: one ill-formed term for each check (rules R96, R101) -/

theorem test_wf_mkdct2 : (Instr.mkdct2 0 1024).wellFormed = false := by decide
theorem test_wf_mkdct4 : (Instr.mkdct4 0 1024).wellFormed = false := by decide
theorem test_wf_dct : (Instr.dct 0 0 1024).wellFormed = false := by decide
theorem test_wf_idct : (Instr.idct 0 0 1024).wellFormed = false := by decide
theorem test_wf_regroup_rows : (Instr.regroup 0 0 1024 1).wellFormed = false := by decide
theorem test_wf_regroup_cols : (Instr.regroup 0 0 1 1024).wellFormed = false := by decide
theorem test_wf_dctbpp : (Instr.dctbpp 0 0 1024).wellFormed = false := by decide
theorem test_wf_nlevdwt : (Instr.nlevdwt 0 0 1024).wellFormed = false := by decide
theorem test_wf_nlevidwt : (Instr.nlevidwt 0 0 1024).wellFormed = false := by decide
theorem test_wf_quantdwt : (Instr.quantdwt 3 3 0 1).wellFormed = false := by decide
theorem test_wf_energyz_n : (Instr.energyz 0 1024 0 0).wellFormed = false := by decide
theorem test_wf_energyz_layer : (Instr.energyz 0 0 1024 0).wellFormed = false := by decide
theorem test_wf_energyz_i : (Instr.energyz 0 0 0 8).wellFormed = false := by decide
theorem test_wf_largest : (Instr.energyz 7 1023 1023 7).wellFormed = true := by decide

/-! ### Decoding: fields as rules R91 to R94 lay them out, opcodes as rule R97 numbers them -/

theorem test_decode_nop : decode 0b00000000000000000000000000000000#32 = .ok (.nop) := by decide
theorem test_encode_nop : encode (.nop) = 0b00000000000000000000000000000000#32 := by decide
theorem test_decode_free : decode 0b00000110100000000000000000000000#32 = .ok (.free 5) := by decide
theorem test_encode_free : encode (.free 5) = 0b00000110100000000000000000000000#32 := by decide
theorem test_decode_mkdct2 : decode 0b00001011100010000000010000000000#32 = .ok (.mkdct2 7 513) := by decide
theorem test_encode_mkdct2 : encode (.mkdct2 7 513) = 0b00001011100010000000010000000000#32 := by decide
theorem test_decode_mkdct4 : decode 0b00001100100011111111110000000000#32 = .ok (.mkdct4 1 1023) := by decide
theorem test_encode_mkdct4 : encode (.mkdct4 1 1023) = 0b00001100100011111111110000000000#32 := by decide
theorem test_decode_colxfm : decode 0b00010000101010000000000000000000#32 = .ok (.colxfm 1 2 4) := by decide
theorem test_encode_colxfm : encode (.colxfm 1 2 4) = 0b00010000101010000000000000000000#32 := by decide
theorem test_decode_trn : decode 0b00010111001100000000000000000000#32 = .ok (.trn 6 3) := by decide
theorem test_encode_trn : encode (.trn 6 3) = 0b00010111001100000000000000000000#32 := by decide
theorem test_decode_dct : decode 0b00100000100000000010000000000000#32 = .ok (.dct 1 0 8) := by decide
theorem test_encode_dct : encode (.dct 1 0 8) = 0b00100000100000000010000000000000#32 := by decide
theorem test_decode_idct : decode 0b00100101110000000100000000000000#32 = .ok (.idct 3 4 16) := by decide
theorem test_encode_idct : encode (.idct 3 4 16) = 0b00100101110000000100000000000000#32 := by decide
theorem test_decode_regroup : decode 0b00101001000100000000100000000011#32 = .ok (.regroup 2 1 2 3) := by decide
theorem test_encode_regroup : encode (.regroup 2 1 2 3) = 0b00101001000100000000100000000011#32 := by decide
theorem test_decode_dctbpp : decode 0b00101110010100000000010000000000#32 = .ok (.dctbpp 4 5 1) := by decide
theorem test_encode_dctbpp : encode (.dctbpp 4 5 1) = 0b00101110010100000000010000000000#32 := by decide
theorem test_decode_dwt : decode 0b01000000101000000010010100000000#32 = .ok (.dwt 1 2 4 5) := by decide
theorem test_encode_dwt : encode (.dwt 1 2 4 5) = 0b01000000101000000010010100000000#32 := by decide
theorem test_decode_idwt : decode 0b01000101000100000001001100000000#32 = .ok (.idwt 2 1 2 3) := by decide
theorem test_encode_idwt : encode (.idwt 2 1 2 3) = 0b01000101000100000001001100000000#32 := by decide
theorem test_decode_nlevdwt : decode 0b01001000110000000000110000000000#32 = .ok (.nlevdwt 1 4 3) := by decide
theorem test_encode_nlevdwt : encode (.nlevdwt 1 4 3) = 0b01001000110000000000110000000000#32 := by decide
theorem test_decode_nlevidwt : decode 0b01001110001000000000010000000000#32 = .ok (.nlevidwt 4 2 1) := by decide
theorem test_encode_nlevidwt : encode (.nlevidwt 4 2 1) = 0b01001110001000000000010000000000#32 := by decide
theorem test_decode_quantdwt : decode 0b01010001000110101100000000000000#32 = .ok (.quantdwt 2 3 1 5) := by decide
theorem test_encode_quantdwt : encode (.quantdwt 2 3 1 5) = 0b01010001000110101100000000000000#32 := by decide
theorem test_decode_energyz : decode 0b01010100101000000000010000000011#32 = .ok (.energyz 1 3 1 2) := by decide
theorem test_encode_energyz : encode (.energyz 1 3 1 2) = 0b01010100101000000000010000000011#32 := by decide
theorem test_decode_quantise : decode 0b01100001000101100000000000000000#32 = .ok (.quantise 2 1 3) := by decide
theorem test_encode_quantise : encode (.quantise 2 1 3) = 0b01100001000101100000000000000000#32 := by decide
theorem test_decode_bpp : decode 0b01100100101000000000000000000000#32 = .ok (.bpp 1 2) := by decide
theorem test_encode_bpp : encode (.bpp 1 2) = 0b01100100101000000000000000000000#32 := by decide
theorem test_decode_rowdec : decode 0b01110000101000000010000000000000#32 = .ok (.rowdec 1 2 4) := by decide
theorem test_encode_rowdec : encode (.rowdec 1 2 4) = 0b01110000101000000010000000000000#32 := by decide
theorem test_decode_rowdec2 : decode 0b01110101000000000000100000000000#32 = .ok (.rowdec2 2 0 1) := by decide
theorem test_encode_rowdec2 : encode (.rowdec2 2 0 1) = 0b01110101000000000000100000000000#32 := by decide
theorem test_decode_rowint : decode 0b01111001100100000001000000000000#32 = .ok (.rowint 3 1 2) := by decide
theorem test_encode_rowint : encode (.rowint 3 1 2) = 0b01111001100100000001000000000000#32 := by decide
theorem test_decode_rowint2 : decode 0b01111110001000000001100000000000#32 = .ok (.rowint2 4 2 3) := by decide
theorem test_encode_rowint2 : encode (.rowint2 4 2 3) = 0b01111110001000000001100000000000#32 := by decide

/-! Illegal words of section 2.8. -/

theorem test_reserved : (decode 0x18000000#32, decode 0x30000000#32, decode 0x58000000#32, decode 0xFFFFFFFF#32) =
    (.error .reservedOpcode, .error .reservedOpcode, .error .reservedOpcode, .error .reservedOpcode) := by decide
theorem test_mustBeZero : (decode 0x00000001#32, decode 0x04000400#32, decode 0x20802001#32, decode 0x14820000#32) =
    (.error .mustBeZero, .error .mustBeZero, .error .mustBeZero, .error .mustBeZero) := by decide
theorem test_sameDestination : decode 0x511A8000#32 = .error .sameDestination := by decide
theorem test_tableWord : decodeTableWord 32 0x511AC000 = some (.quantdwt 2 3 1 5) := by decide

theorem test_commandText : commandText (.quantdwt 2 3 1 5) = "QUANTDWT A2, A3, A1, A5" := by decide +kernel
theorem test_pseudo : encode (expandPseudo (.mov 1 0)) = 0x48800000#32 := by decide

/-! ### A small machine -/

/-- The array of rational rows. -/
def arr (rows : List (List Rat)) : Arr := Arr.ofRows (rows.map fun r => r.map NUM.ofRat)

def x16 : Arr := arr [[1, 2, 3, 4], [5, 6, 7, 8], [9, 10, 11, 12], [13, 14, 15, 16]]
def xPi : Arr := arr [[3, 1, 4, 1], [5, 9, 2, 6], [5, 3, 5, 8], [9, 7, 9, 3]]
def yPi : Arr := arr [[67/16, 91/32, 11/16, -1/2], [199/32, 371/64, -1/32, 7/8], [39/16, 7/32, 31/16, 1],
  [2, 7/8, 0, -9/4]]
def steps : Arr := arr [[1, 2], [1/2, 99], [0, -7]]

/-- A0 = X16, A1 = a row of eight, A2 = a square matrix, A3 = Xπ, A4 = Yπ, A5 = a step table, A6 and A7 not valid;
S0 = 1, the others not valid; K4 = [1 2 4], K5 = [1 1], K6 and K7 empty; IMGSIZE = 8. -/
def sample : State :=
  { ((((((((State.reset.setBuf 0 x16).setBuf 1 (arr [[1, 2, 3, 4, 5, 6, 7, 8]])).setBuf 2
      (arr [[1, 2], [0, 3]])).setBuf 3 xPi).setBuf 4 yPi).setBuf 5 steps).setScal 0 (NUM.ofRat 1)).setKern 4
      [NUM.ofRat 1, NUM.ofRat 2, NUM.ofRat 4]).setKern 5 [NUM.ofRat 1, NUM.ofRat 1] with imgSize := 8#16 }

/-- The state after a command, or the state before it if the command did not answer one. -/
def after (i : Instr) (s : State) : State :=
  match exec i s with
  | .next t => t
  | .fault _ => s
  | .refused _ => s

/-- A value within 10^-9 of a decimal of the spec. -/
def near (x : NUM) (q : Rat) : Bool :=
  match x.bounds with
  | some i => decide (q - 1 / 1000000000 ≤ i.lo) && decide (i.hi ≤ q + 1 / 1000000000)
  | none => false

/-- Every cell of an array near the cell of a table. -/
def nearAll (o : Option Arr) (rows : List (List Rat)) : Bool :=
  match o with
  | some x => (x.cells.zip rows).all fun p => (p.1.zip p.2).all fun q => near q.1 q.2
  | none => false

theorem reset_inv : State.reset.inv = true := by decide
theorem sample_inv : sample.inv = true := by decide +kernel

/-! ### Commands: the vectors of 95_test_vectors.md -/

theorem test_nop : after .nop { sample with err := .dim, sticky := 2#32 } = { sample with err := .ok, sticky := 2#32 } := by
  decide +kernel
theorem test_free : (after (.free 3) sample).buf 3 = none ∧ (after (.free 3) sample).buf 0 = some x16 := by
  decide +kernel
theorem test_mkdct2 : nearAll ((after (.mkdct2 2 3) sample).buf 2)
    [[5773502692/10000000000, 5773502692/10000000000, 5773502692/10000000000],
      [7071067812/10000000000, 0, -7071067812/10000000000],
      [4082482905/10000000000, -8164965809/10000000000, 4082482905/10000000000]] = true := by decide +kernel
theorem test_mkdct2_capacity : (after (.mkdct2 0 1023) sample).err = .capacity := by decide
theorem test_mkdct4 : nearAll ((after (.mkdct4 2 2) sample).buf 2)
    [[9238795325/10000000000, 3826834324/10000000000], [3826834324/10000000000, -9238795325/10000000000]] = true := by
  decide +kernel
theorem test_mkdct4_zero : (after (.mkdct4 2 0) sample).err = .domain := by decide
theorem test_colxfm : (after (.colxfm 6 0 2) sample).buf 6 =
    some (arr [[11, 14, 17, 20], [15, 18, 21, 24], [35, 38, 41, 44], [39, 42, 45, 48]]) := by decide +kernel
theorem test_colxfm_dim : (after (.colxfm 6 0 5) sample).err = .dim := by decide +kernel
theorem test_trn : (after (.trn 6 5) sample).buf 6 = some (arr [[1, 1/2, 0], [2, 99, -7]]) := by decide +kernel
theorem test_dct : (after (.dct 1 0 2) sample).buf 1 =
    some (arr [[7, -1, 11, -1], [-4, 0, -4, 0], [23, -1, 27, -1], [-4, 0, -4, 0]]) := by decide +kernel
theorem test_dct_aliased : (after (.dct 0 0 4) sample).buf 0 ≠ some x16 ∧
    near (((after (.dct 0 0 4) sample).buf 0).getD x16 |>.get 3 0) (-12681013422/10000000000) = true := by decide +kernel
theorem test_idct : (after (.idct 3 1 2)
    (sample.setBuf 1 (arr [[7, -1, 11, -1], [-4, 0, -4, 0], [23, -1, 27, -1], [-4, 0, -4, 0]]))).buf 3 = some x16 := by
  decide +kernel
theorem test_regroup : (after (.regroup 1 0 2 2) sample).buf 1 =
    some (arr [[1, 3, 2, 4], [9, 11, 10, 12], [5, 7, 6, 8], [13, 15, 14, 16]]) := by decide +kernel
theorem test_regroup_zero : (after (.regroup 1 0 0 2) sample).err = .domain := by decide +kernel
theorem test_dctbpp : (after (.dctbpp 0 2 2)
    (sample.setBuf 2 (arr [[7, 11, -1, -1], [23, 27, -1, -1], [-4, -4, 0, 0], [-4, -4, 0, 0]]))).scal 0 =
    some (NUM.ofRat 8) := by decide +kernel
theorem test_dwt : (after (.dwt 1 3 0 1) sample).buf 1 = some yPi := by decide +kernel
theorem test_dwt_kernel : (after (.dwt 1 5 5 1) sample).err = .kernel := by decide +kernel
theorem test_idwt : (after (.idwt 2 4 2 3) sample).buf 2 = some xPi := by decide +kernel
theorem test_nlevdwt : (after (.nlevdwt 1 6 2) (sample.setBuf 6 (Arr.ofFn 4 4 fun _ _ => NUM.ofRat 7))).buf 1 =
    some (arr [[7, 0, 0, 0], [0, 0, 0, 0], [0, 0, 0, 0], [0, 0, 0, 0]]) := by decide +kernel
theorem test_nlevdwt_dim : (after (.nlevdwt 1 0 16) sample).err = .dim := by decide +kernel
theorem test_nlevidwt : (after (.nlevidwt 4 2 1)
    (sample.setBuf 2 (arr [[7, 7, 0, 0], [7, 7, 0, 0], [0, 0, 0, 0], [0, 0, 0, 0]]))).buf 4 =
    some (arr [[7, 7, 7, 7], [7, 7, 7, 7], [7, 7, 7, 7], [7, 7, 7, 7]]) := by decide +kernel
theorem test_quantdwt : (after (.quantdwt 2 3 4 5) sample).buf 2 =
    some (arr [[4, 2, 1, 0], [6, 6, 0, 1], [5/2, 0, 31/16, 1], [2, 1, 0, -9/4]]) := by decide +kernel
theorem test_quantdwt_entropy : (after (.quantdwt 2 3 4 5) sample).buf 3 = some (arr [[4, 6], [8, 0], [8, 0]]) := by
  decide +kernel
theorem test_energyz : (after (.energyz 0 2 1 2) sample).scal 0 = some (NUM.ofRat (272353515625/1000000)) := by
  decide +kernel
theorem test_energyz_domain : (after (.energyz 0 1 1 2) { sample with imgSize := 7#16 }).err = .domain := by decide
theorem test_quantise : (after (.quantise 1 6 0)
    (sample.setBuf 6 (arr [[-13/5, -5/2, -3/2, -3/5, -1/2, 1/2, 3/5, 3/2, 8/5, 5/2, 100]]))).buf 1 =
    some (arr [[-3, -2, -1, -1, 0, 0, 1, 1, 2, 2, 100]]) := by decide +kernel
theorem test_quantise_identity : (after (.quantise 1 4 0) (sample.setScal 0 (NUM.ofRat (-3)))).buf 1 = some yPi := by
  decide +kernel
theorem test_bpp : (after (.bpp 1 1) sample).scal 1 = some (NUM.ofRat 3) := by decide +kernel
theorem test_bpp_half : (after (.bpp 1 6) (sample.setBuf 6 (arr [[-1/2, 1/2]]))).scal 1 = some (NUM.ofRat 1) := by
  decide +kernel
theorem test_rowdec : (after (.rowdec 6 1 4) sample).buf 6 = some (arr [[12, 18, 32, 46]]) := by decide +kernel
theorem test_rowdec2 : (after (.rowdec2 6 1 4) sample).buf 6 = some (arr [[11, 25, 39, 51]]) := by decide +kernel
theorem test_rowint : (after (.rowint 6 6 4) (sample.setBuf 6 (arr [[1, 2, 3, 4]]))).buf 6 =
    some (arr [[2, 6, 4, 11, 6, 16, 8, 20]]) := by decide +kernel
theorem test_rowint2 : (after (.rowint2 6 6 4) (sample.setBuf 6 (arr [[1, 2, 3, 4]]))).buf 6 =
    some (arr [[5, 2, 6, 4, 11, 6, 16, 8]]) := by decide +kernel

/-! ### Errors and the host port (sections 2.9, 2.10) -/

theorem test_error_entry : (step (State.reset.withFetchWord 32 0x20800000)) =
    .next { State.reset with err := .empty, sticky := 0x10#32, errInfo := 0x20800000#32 } := rfl
theorem test_issue_runs : step (sample.withFetchWord 32 0x05800000) = exec (.free 3) sample := rfl
theorem test_cap : State.reset.regRead 1 = (.word 0x0000F888#32, State.reset) := rfl
theorem test_bshape : (({ State.reset with bSel := 2 } : State).writeWord .bshape 0x00020003#32) =
    { State.reset with bSel := 2, bufs := State.reset.bufs.set 2 (some (arr [[0, 0, 0], [0, 0, 0]])) } := by
  decide +kernel
theorem test_kdata : (State.reset.regRead 16).1 = .num (NUM.ofRat (-1/8)) := by decide +kernel
theorem test_readonly : State.reset.regWrite 0 (.word 5#32) = .next { State.reset with sticky := 0x80#32 } := rfl
theorem test_bus_bytes : ({ State.reset with pending := [.busRead 0 4] } : State).advance =
    .next { State.reset with replies := [.bytes [0x31#8, 0x43#8, 0x50#8, 0x49#8]] } := rfl

/-! ### Operands that meet the hypotheses of every statement

Each theorem is named after its statement; a statement with several clauses has one conjunct per clause. -/

/-- The outcome is a next state. -/
def isNext (o : Host.Outcome State Fault Refusal) : Bool :=
  match o with
  | .next _ => true
  | .fault _ => false
  | .refused _ => false

theorem exists_next {o : Host.Outcome State Fault Refusal} (h : isNext o = true) : ∃ t, o = .next t := by
  cases o with
  | next t => exact ⟨t, rfl⟩
  | fault r => cases h
  | refused r => cases h

theorem witness_StepRunsTheIssuedCommand :
    (sample.withFetchWord 32 0x20800800).pending = .write 3 (.word 0x20800800#32) :: [] ∧
    decode 0x20800800#32 = .ok (.dct 1 0 2) ∧ decode 0x18000000#32 = .error .reservedOpcode ∧
    ({ sample with pending := [.busWrite 12 [0x00#8, 0x08#8, 0x80#8, 0x20#8]] } : State).pending =
      .busWrite 12 [(0x20800800#32).extractLsb' 0 8, (0x20800800#32).extractLsb' 8 8, (0x20800800#32).extractLsb' 16 8,
        (0x20800800#32).extractLsb' 24 8] :: [] ∧
    sample.pending = [] := by decide +kernel

theorem witness_CommandsArePureFunctions : agreeOn (.trn 6 0) sample { sample with sticky := 2#32, imgSize := 9#16 } ∧
    (∃ t, exec (.trn 6 0) sample = .next t) ∧
    (∃ t, exec (.trn 6 0) { sample with sticky := 2#32, imgSize := 9#16 } = .next t) := by
  refine ⟨⟨fun _ _ => rfl, fun _ _ => rfl, fun _ _ => rfl,
      fun h => absurd h (by decide), rfl⟩, exists_next ?_, exists_next ?_⟩ <;>
    decide +kernel

/-- A word that is no legal command, a command with no cause of an error, and one with each cause as its first. -/
theorem witness_FirstCauseDecidesTheError :
    decode 0xFFFFFFFF#32 = .error .reservedOpcode ∧
    (decode 0x14800000#32 = .ok (.trn 1 0) ∧ NoError (.trn 1 0) sample) ∧
    (decode 0x20800000#32 = .ok (.dct 1 0 0) ∧ FirstError (.dct 1 0 0) State.reset .empty) ∧
    (decode 0x70802800#32 = .ok (.rowdec 1 0 5) ∧ FirstError (.rowdec 1 0 5) sample .kernel) ∧
    (decode 0x20800000#32 = .ok (.dct 1 0 0) ∧ FirstError (.dct 1 0 0) sample .domain) ∧
    (decode 0x20800C00#32 = .ok (.dct 1 0 3) ∧ FirstError (.dct 1 0 3) sample .dim) ∧
    (decode 0x080FFC00#32 = .ok (.mkdct2 0 1023) ∧ FirstError (.mkdct2 0 1023) sample .capacity) := by
  have hk : sample.kern 5 = [NUM.ofRat 1, NUM.ofRat 1] := by decide +kernel
  have hx : sample.buf 0 = some x16 := by decide +kernel
  have hd : sample.cfg.maxDim = 512 := by decide +kernel
  refine ⟨by decide, ⟨by decide, ?_⟩, ⟨by decide, ?_⟩, ⟨by decide, ?_⟩, ⟨by decide, ?_⟩, ⟨by decide, ?_⟩, ⟨by decide, ?_⟩⟩
  · simp [NoError, emptyCause, kernelCause, domainCause, dimCause, capacityCause, srcBufs, srcScals, srcKerns, hx]
  · exact .inl ⟨.inl ⟨0, by simp [srcBufs], rfl⟩, rfl⟩
  · simp [FirstError, emptyCause, kernelCause, srcBufs, srcScals, srcKerns, hx, hk]
  · simp [FirstError, emptyCause, kernelCause, domainCause, srcBufs, srcScals, srcKerns, hx]
  · simp [FirstError, emptyCause, kernelCause, domainCause, dimCause, srcBufs, srcScals, srcKerns, hx, x16, arr, Arr.ofRows]
  · simp [FirstError, emptyCause, kernelCause, domainCause, dimCause, capacityCause, srcBufs, srcScals, srcKerns, hd]

theorem witness_EveryStepKeepsTheInvariant : (sample.withFetchWord 32 0x05800000).inv = true ∧
    ∃ t, step (sample.withFetchWord 32 0x05800000) = .next t :=
  ⟨by decide +kernel, exists_next (by decide +kernel)⟩

theorem witness_StepsTakeOneHostAction : ({ sample with pending := [.read 0, .reset] } : State).pending =
    .read 0 :: [.reset] ∧ (∃ t, step { sample with pending := [.read 0, .reset] } = .next t) ∧
    ({ sample with pending := [.write 11 (.word 5#32)] } : State).pending = .write 11 (.word 5#32) :: [] ∧
    step { sample with pending := [.write 11 (.word 5#32)] } = .next { sample with cAddr := 5#32 } :=
  ⟨rfl, exists_next (by decide +kernel), rfl, rfl⟩

theorem witness_NothingHaltsTheMachine : (0 : Fin 32) ≠ 12 ∧ (0 : Fin 32) ≠ 16 ∧ (0 : Fin 32) ≠ 19 ∧
    ((19 : Fin 32) = 12 ∨ (19 : Fin 32) = 16 ∨ (19 : Fin 32) = 19) := by decide

theorem witness_IllegalWordsFail :
    bits 0x18000000#32 26 6 ∈ [0x06, 0x07, 0x0C, 0x0D, 0x0E, 0x0F, 0x16, 0x17, 0x1A, 0x1B] ∧
    0x20 ≤ bits 0x80000000#32 26 6 ∧ (bits 0x20802001#32 26 6 = 0x08 ∧ 0x20802001#32 &&& 0x000003FF#32 ≠ 0#32) ∧
    (bits 0x511A8000#32 26 6 = 0x14 ∧ bits 0x511A8000#32 23 3 = bits 0x511A8000#32 14 3) := by decide

theorem witness_DecodeOfEncodeIsTheCommand : (Instr.energyz 7 1023 1023 7).wellFormed = true ∧
    (Instr.regroup 7 7 1023 0).wellFormed = true := by decide

theorem witness_LegalWordsAreTheirCommandsWords : decode 0x511AC000#32 = .ok (.quantdwt 2 3 1 5) := by decide

theorem witness_ConstantRegistersIdentifyTheCore : sample.cfg.wf = true ∧
    Config.wf ⟨65535, 255, .other 0, 1 / 100, .other 0⟩ = true ∧ Config.wf ⟨256, 5, .reals, 0, .reference⟩ = true := by decide +kernel

theorem witness_StatusAndErrInfoShowTheError : sample.err = .ok ∧ (after (.dct 1 0 3) sample).err = .dim ∧
    (after (.dct 1 0 0) sample).err = .domain ∧ (sample.takeError .illegal 0#32).err = .illegal ∧
    (after (.dct 1 6 1) sample).err = .empty ∧ (after (.mkdct2 0 513) sample).err = .capacity ∧
    (after (.rowdec 1 0 5) sample).err = .kernel := by decide +kernel

/-- A command, a write of 0 and a write of 1 to the bit; the last clears it. -/
theorem witness_StickyBitsClearOnlyByWritingOneOrReset : (31 : Nat) < 32 ∧ (2#32).getLsbD 1 = true ∧
    (issueAction 0#32 ≠ .reset ∧ ∃ t, ({ sample with sticky := 2#32 } : State).perform (issueAction 0#32) = .next t) ∧
    (∃ t, ({ sample with sticky := 2#32 } : State).perform (.busWrite 20 [0#8, 0#8, 0#8, 0#8]) = .next t) ∧
    ({ sample with sticky := 2#32 } : State).perform (.write 5 (.word 2#32)) = .next sample :=
  ⟨by decide, by decide, ⟨by decide, exists_next (by decide +kernel)⟩, exists_next (by decide +kernel),
    rfl⟩

theorem witness_ImgSizeKeepsLegalValues : (1 ≤ bits 0x00000001#32 0 16 ∧ bits 0x00000001#32 0 16 ≤ sample.cfg.maxDim) ∧
    (1 ≤ bits 0xFFFF0200#32 0 16 ∧ bits 0xFFFF0200#32 0 16 ≤ sample.cfg.maxDim) ∧ bits 0x00010000#32 0 16 = 0 ∧
    sample.cfg.maxDim < bits 0x00000201#32 0 16 := by decide +kernel

theorem witness_BShapeCreatesAZeroBuffer : sample.inv = true ∧ sample.buf sample.bSel = some x16 ∧
    State.reset.buf State.reset.bSel = none ∧ State.reset.inv = true ∧
    (bits 0x02000001#32 16 16 = 512 ∧ bits 0x02000001#32 0 16 = 1 ∧ 512 ≤ sample.cfg.maxDim) ∧
    ¬(1 ≤ bits 0x00000001#32 16 16) ∧ ¬(bits 0x02010001#32 16 16 ≤ sample.cfg.maxDim) := by decide +kernel

theorem witness_CDataMovesOneCell : sample.inv = true ∧
    (sample.buf sample.bSel = some x16 ∧ 0 < x16.rows ∧ 0 < x16.cols ∧ sample.cAddr.toNat = 0 * x16.cols + 0) ∧
    (({ sample with cAddr := 15#32 } : State).inv = true ∧ ({ sample with cAddr := 15#32 } : State).cAddr.toNat =
      3 * x16.cols + 3) ∧
    (({ sample with cAddr := 16#32 } : State).inv = true ∧
      x16.rows * x16.cols ≤ ({ sample with cAddr := 16#32 } : State).cAddr.toNat) ∧
    (State.reset.inv = true ∧ State.reset.buf State.reset.bSel = none) := by decide +kernel

theorem witness_KLenSetsAKernelsLength : (({ sample with kSel := 4 } : State).inv = true ∧
      4 ≤ ({ sample with kSel := 4 } : State).kSel.val ∧ (15#32).toNat ≤ sample.cfg.maxTaps ∧
      (0#32).toNat ≤ sample.cfg.maxTaps) ∧
    (({ sample with kSel := 3 } : State).inv = true ∧ ({ sample with kSel := 3 } : State).kSel.val < 4) ∧
    sample.cfg.maxTaps < (16#32).toNat := by decide +kernel

theorem witness_KDataMovesOneTap : (sample.inv = true ∧ (sample.kern sample.kSel)[sample.kAddr.toNat]? =
      some (NUM.ofRat (-1/8)) ∧ sample.kSel.val < 4) ∧
    (({ sample with kSel := 4, kAddr := 2#32 } : State).inv = true ∧
      (({ sample with kSel := 4, kAddr := 2#32 } : State).kern 4)[2]? = some (NUM.ofRat 4)) ∧
    (({ sample with kSel := 4, kAddr := 3#32 } : State).inv = true ∧
      (({ sample with kSel := 4, kAddr := 3#32 } : State).kern 4).length ≤ 3) := by decide +kernel

theorem witness_SDataMovesOneScalar : sample.scal sample.sSel = some (NUM.ofRat 1) ∧
    State.reset.scal State.reset.sSel = none := by decide +kernel

theorem witness_ReservedAndReadOnlyRegistersFlag : (20 : Fin 32).val = 20 ∧ 20 ≤ (31 : Fin 32).val ∧
    (17 : Fin 32) ∈ ([0, 1, 2, 4, 6, 10, 17] : List (Fin 32)) := by decide

theorem witness_BusAccessesAreLittleEndianRegisters : (31 : Fin 32) ≠ 12 ∧ (31 : Fin 32) ≠ 16 ∧ (31 : Fin 32) ≠ 19 ∧
    ((127 : Nat) < 128 ∧ 127 % 4 ≠ 0) ∧ ((0 : Nat) < 128 ∧ (2 : Nat) ≠ 4 ∧ ([0#8, 0#8] : List Byte).length = 2) := by
  decide

/-- The words that `EncodedAs` speaks of are those of the decoding tests; these meet the mask and pattern. -/
theorem witness_EncodedAs : (0x20802000#32 &&& 0xFC0003FF#32 = 0x20000000#32) ∧
    (0x54A00403#32 &&& 0xFC000000#32 = 0x54000000#32) ∧ (0x511AC000#32 &&& 0xFC003FFF#32 = 0x50000000#32) ∧
    regField 0x511AC000#32 23 ≠ regField 0x511AC000#32 14 ∧ (0x7E201800#32 &&& 0xFC0FC7FF#32 = 0x7C000000#32) := by
  decide

/-- Every command that can fail fails on some state: a legal word and a first cause for each. -/
theorem witness_FailsFirst :
    (decode 0x09000000#32 = .ok (.mkdct2 2 0) ∧ FirstError (.mkdct2 2 0) State.reset .domain) ∧
    (decode 0x0D000000#32 = .ok (.mkdct4 2 0) ∧ FirstError (.mkdct4 2 0) State.reset .domain) ∧
    (decode 0x54300002#32 = .ok (.energyz 0 2 0 3) ∧ FirstError (.energyz 0 2 0 3) State.reset .domain) ∧
    (∀ w ∈ [0x10840000#32, 0x14800000#32, 0x20800800#32, 0x25900800#32, 0x28800802#32, 0x2C200800#32, 0x40800100#32,
        0x45101300#32, 0x48800400#32, 0x4E200400#32, 0x511AC000#32, 0x60800000#32, 0x64A00000#32, 0x70800000#32,
        0x75000800#32, 0x79901000#32, 0x7E201800#32],
      ∃ i, decode w = .ok i ∧ FirstError i State.reset .empty) := by
  have empty : ∀ (i : Instr) (b : RegIx), b ∈ srcBufs i → FirstError i State.reset .empty := fun i b h =>
    .inl ⟨.inl ⟨b, h, (by decide : ∀ b : RegIx, State.reset.buf b = none) b⟩, rfl⟩
  refine ⟨⟨by decide, ?_⟩, ⟨by decide, ?_⟩, ⟨by decide, ?_⟩, ?_⟩
  · simp [FirstError, emptyCause, kernelCause, domainCause, srcBufs, srcScals, srcKerns]
  · simp [FirstError, emptyCause, kernelCause, domainCause, srcBufs, srcScals, srcKerns]
  · simp [FirstError, emptyCause, kernelCause, domainCause, srcBufs, srcScals, srcKerns]
  · intro w hw
    simp only [List.mem_cons, List.not_mem_nil, or_false] at hw
    rcases hw with rfl | rfl | rfl | rfl | rfl | rfl | rfl | rfl | rfl | rfl | rfl | rfl | rfl | rfl | rfl | rfl | rfl
    · exact ⟨.colxfm 1 0 2, by decide, empty _ 0 (by decide)⟩
    · exact ⟨.trn 1 0, by decide, empty _ 0 (by decide)⟩
    · exact ⟨.dct 1 0 2, by decide, empty _ 0 (by decide)⟩
    · exact ⟨.idct 3 1 2, by decide, empty _ 1 (by decide)⟩
    · exact ⟨.regroup 1 0 2 2, by decide, empty _ 0 (by decide)⟩
    · exact ⟨.dctbpp 0 2 2, by decide, empty _ 2 (by decide)⟩
    · exact ⟨.dwt 1 0 0 1, by decide, empty _ 0 (by decide)⟩
    · exact ⟨.idwt 2 1 2 3, by decide, empty _ 1 (by decide)⟩
    · exact ⟨.nlevdwt 1 0 1, by decide, empty _ 0 (by decide)⟩
    · exact ⟨.nlevidwt 4 2 1, by decide, empty _ 2 (by decide)⟩
    · exact ⟨.quantdwt 2 3 1 5, by decide, empty _ 1 (by decide)⟩
    · exact ⟨.quantise 1 0 0, by decide, empty _ 0 (by decide)⟩
    · exact ⟨.bpp 1 2, by decide, empty _ 2 (by decide)⟩
    · exact ⟨.rowdec 1 0 0, by decide, empty _ 0 (by decide)⟩
    · exact ⟨.rowdec2 2 0 1, by decide, empty _ 0 (by decide)⟩
    · exact ⟨.rowint 3 1 2, by decide, empty _ 1 (by decide)⟩
    · exact ⟨.rowint2 4 2 3, by decide, empty _ 2 (by decide)⟩

theorem witness_MkDct2BuildsTheMatrix : (1 ≤ 1 ∧ 1 ≤ sample.cfg.maxDim) ∧ (1 ≤ 512 ∧ 512 ≤ sample.cfg.maxDim) ∧
    ((1 : Nat) < 2 ∧ (0 : Nat) < 2) := by decide +kernel

theorem witness_MkDct4BuildsTheMatrix : (1 ≤ 1 ∧ 1 ≤ sample.cfg.maxDim) ∧ (1 ≤ 512 ∧ 512 ≤ sample.cfg.maxDim) := by
  decide +kernel

theorem witness_BuiltMatricesAreOrthogonal : 1 ≤ 8 ∧ 8 ≤ sample.cfg.maxDim ∧
    Instr.mkdct4 2 8 ∈ [Instr.mkdct2 2 8, Instr.mkdct4 2 8] := by decide +kernel

theorem witness_ColxfmAppliesTheMatrixToRowBlocks : sample.buf 0 = some x16 ∧
    sample.buf 2 = some (arr [[1, 2], [0, 3]]) ∧ (arr [[1, 2], [0, 3]]).cols = (arr [[1, 2], [0, 3]]).rows ∧
    x16.rows % (arr [[1, 2], [0, 3]]).rows = 0 ∧ 1 < x16.rows / (arr [[1, 2], [0, 3]]).rows := by decide +kernel

theorem witness_TrnTransposesExactly : sample.buf 5 = some steps ∧ steps.shaped = true := by decide +kernel

theorem witness_DctTransformsEveryBlock : sample.buf 0 = some x16 ∧ x16.rows % 2 = 0 ∧ x16.cols % 2 = 0 ∧
    1 < x16.rows / 2 := by decide +kernel

theorem witness_IdctTransformsEveryBlock : sample.buf 4 = some yPi ∧ yPi.rows % 4 = 0 ∧ yPi.cols % 4 = 0 ∧
    0 < yPi.rows / 4 := by decide +kernel

theorem witness_DctAndIdctUndoEachOther : sample.buf 0 = some x16 ∧ (2 : Nat) ≠ 0 ∧ x16.rows % 2 = 0 ∧ x16.cols % 2 = 0 ∧
    (Instr.idct 1 0 2, Instr.dct 0 1 2) ∈ [(Instr.dct 1 0 2, Instr.idct 0 1 2), (Instr.idct 1 0 2, Instr.dct 0 1 2)] := by
  decide +kernel

theorem witness_RegroupPermutesCells : sample.buf 5 = some steps ∧ (3 : Nat) ≠ 0 ∧ (1 : Nat) ≠ 0 ∧ steps.rows % 3 = 0 ∧
    steps.cols % 1 = 0 ∧ 0 < steps.rows / 3 ∧ 1 < steps.cols / 1 := by decide +kernel

theorem witness_DeRegroupRestoresTheArray : sample.buf 5 = some steps ∧ steps.shaped = true ∧ 1 ≤ steps.rows ∧
    1 ≤ steps.cols ∧ steps.rows % 3 = 0 ∧ steps.cols % 2 = 0 := by decide +kernel

theorem witness_DctbppSumsTheSubimageCosts : sample.buf 0 = some x16 ∧ x16.rows % 2 = 0 ∧ x16.cols % 2 = 0 := by
  decide +kernel

theorem witness_ReflectionExtendsARow : 1 ≤ 1 ∧ 1 ≤ 8 ∧ (7 : Nat) < 8 := by decide

theorem witness_RowDecimationFiltersEachRow : (Instr.rowdec2 6 1 4, 1) ∈ [(Instr.rowdec 6 1 4, 0), (Instr.rowdec2 6 1 4, 1)] ∧
    sample.buf 1 = some (arr [[1, 2, 3, 4, 5, 6, 7, 8]]) ∧ (sample.kern 4).length % 2 = 1 ∧
    (arr [[1, 2, 3, 4, 5, 6, 7, 8]]).cols % 2 = 0 := by decide +kernel

theorem witness_RowInterpolationFiltersTheSpreadRow :
    (Instr.rowint2 6 1 4, 1) ∈ [(Instr.rowint 6 1 4, 0), (Instr.rowint2 6 1 4, 1)] ∧
    sample.buf 1 = some (arr [[1, 2, 3, 4, 5, 6, 7, 8]]) ∧ (sample.kern 4).length % 2 = 1 ∧
    2 * (arr [[1, 2, 3, 4, 5, 6, 7, 8]]).cols ≤ sample.cfg.maxDim ∧ 0 < (arr [[1, 2, 3, 4, 5, 6, 7, 8]]).rows ∧
    (∀ j, j < 8 → ((fun v : Nat => if v % 2 = 0 then (0 : Nat) else v / 2) (2 * j + 1) = j ∧
      (fun v : Nat => if v % 2 = 0 then (0 : Nat) else v / 2) (2 * j + (1 - 1)) = 0)) := by decide +kernel

theorem witness_DefaultKernelsReconstructEveryRow : sample.inv = true ∧
    sample.buf 1 = some (arr [[1, 2, 3, 4, 5, 6, 7, 8]]) ∧ (arr [[1, 2, 3, 4, 5, 6, 7, 8]]).cols % 2 = 0 ∧
    (6 : RegIx) ≠ 1 ∧ (7 : RegIx) ≠ 6 := by decide +kernel

theorem witness_DwtFillsTheFourQuadrants : sample.buf 3 = some xPi ∧ (sample.kern 4).length % 2 = 1 ∧
    (sample.kern 1).length % 2 = 1 ∧ xPi.rows % 2 = 0 ∧ xPi.cols % 2 = 0 ∧ 1 < xPi.rows / 2 := by decide +kernel

theorem witness_IdwtJoinsTheFourQuadrants : sample.buf 4 = some yPi ∧ (sample.kern 2).length % 2 = 1 ∧
    (sample.kern 3).length % 2 = 1 ∧ yPi.rows % 2 = 0 ∧ yPi.cols % 2 = 0 ∧ 3 < yPi.rows ∧ 3 < yPi.cols := by
  decide +kernel

theorem witness_IdwtUndoesDwt : sample.buf 3 = some xPi ∧ xPi.rows % 2 = 0 ∧ xPi.cols % 2 = 0 := by decide +kernel

theorem witness_DwtOfAConstantArrayIsLowLow : (sample.setBuf 6 (Arr.zeros 2 2)).buf 6 = some (Arr.zeros 2 2) ∧
    ∀ r, r < 2 → ∀ c, c < 2 → (Arr.zeros 2 2).get r c = NUM.zero := by decide +kernel

theorem witness_NlevdwtRunsTheLevels : sample.buf 3 = some xPi ∧ xPi.rows % 2 ^ 2 = 0 ∧ xPi.cols % 2 ^ 2 = 0 ∧
    xPi.rows % 2 ^ 0 = 0 := by decide +kernel

theorem witness_NlevidwtRunsTheLevels : sample.buf 4 = some yPi ∧ yPi.rows % 2 ^ 2 = 0 ∧ yPi.cols % 2 ^ 2 = 0 ∧
    yPi.rows % 2 ^ 0 = 0 := by decide +kernel

theorem witness_NlevidwtUndoesNlevdwt : sample.buf 3 = some xPi ∧ xPi.rows % 2 ^ 2 = 0 ∧ xPi.cols % 2 ^ 2 = 0 := by
  decide +kernel

theorem witness_QuantdwtQuantisesEveryBand : (2 : RegIx) ≠ 3 ∧ sample.buf 4 = some yPi ∧ sample.buf 5 = some steps ∧
    steps.rows = 3 ∧ 1 ≤ steps.cols ∧ yPi.rows % 2 ^ (steps.cols - 1) = 0 ∧ yPi.cols % 2 ^ (steps.cols - 1) = 0 ∧
    0 < steps.cols - 1 ∧ 1 < yPi.rows / 2 ^ (0 + 1) := by decide +kernel

theorem witness_EnergyzMeasuresTheImpulseResponse : sample.imgSize.toNat = 8 ∧ 8 % 2 ^ 2 = 0 ∧
    ((1 : Nat) < 2 ∧ 1 = 8 / 2 ^ (1 + 1) / 2 ∧ 3 = 8 / 2 ^ (1 + 1) + 8 / 2 ^ (1 + 1) / 2) ∧ 1 = 8 / 2 ^ 2 / 2 := by
  decide +kernel

theorem witness_QuantiseRoundsEveryCell : sample.buf 4 = some yPi ∧ sample.scal 0 = some (NUM.ofRat 1) ∧
    (sample.setScal 0 (NUM.ofRat 0)).scal 0 = some (NUM.ofRat 0) ∧ (0 : Rat) ≤ 0 := by decide +kernel

/-- A positive step, opposite cells, ordered cells and a zero cell, over the reals. -/
theorem witness_QuantiseProperties (ρ : Nat → ℝ) : 0 < (NUM.ofRat 1).val ρ ∧
    (NUM.ofRat (-3)).val ρ = -(NUM.ofRat 3).val ρ ∧ (NUM.ofRat (-3)).val ρ ≤ (NUM.ofRat 3).val ρ ∧
    (NUM.ofRat 0).val ρ = 0 := by
  simp only [NUM.val_ofRat]; norm_num

theorem witness_BppIsTheHistogramEntropy : sample.buf 4 = some yPi ∧ yPi.shaped = true := by decide +kernel

theorem witness_BppBoundsAndExtremes : (arr [[7]]).shaped = true ∧ 1 ≤ (arr [[7]]).rows ∧ 1 ≤ (arr [[7]]).cols ∧
    yPi.shaped = true ∧ 1 ≤ yPi.rows ∧ 1 ≤ yPi.cols ∧ yPi.transpose.toList.Perm yPi.toList := by decide +kernel

/-- Equal cells, a cell moved by an integer, and cells that are multiples of a step of at least 1. -/
theorem witness_BppBoundsAndExtremes_cells (ρ : Nat → ℝ) :
    (∀ a ∈ (arr [[7, 7]]).toList, ∀ b ∈ (arr [[7, 7]]).toList, a.val ρ = b.val ρ) ∧
    (arr [[9]]).toList.map (NUM.val ρ) = (arr [[7]]).toList.map (fun a => a.val ρ + ((2 : ℤ) : ℝ)) ∧
    (∀ a ∈ (arr [[4]]).toList, ∃ k : ℤ, a.val ρ = k * (2 : ℝ)) := by
  refine ⟨by simp [arr, Arr.ofRows, Arr.toList], by norm_num [arr, Arr.ofRows, Arr.toList], ?_⟩
  simp only [arr, Arr.ofRows, Arr.toList, List.map_cons, List.map_nil, List.flatten_cons, List.flatten_nil,
    List.append_nil, List.mem_singleton, forall_eq, NUM.val_ofRat]
  exact ⟨2, by norm_num⟩

/-- The number format that the statements' value clauses ask for, and another one. -/
theorem witness_NumberFormat : sample.cfg.num = .reals ∧ State.reset.cfg.num = .reals := by decide +kernel

/-- The sample in another number format, with other parameters at their bounds. -/
def sampleOther : State := { sample with cfg := ⟨512, 15, .other 3, 1 / 1000, .other 1⟩ }

theorem witness_RealsMeetTheSourceProperties : State.reset.cfg.num = .reals := rfl

theorem witness_OtherFormatsUseTheirOwnOperations : sampleOther.cfg.num = .other 3 ∧ 2 ≤ sampleOther.cfg.maxDim ∧
    sampleOther.buf 0 = some x16 ∧ sampleOther.buf 2 = some (arr [[1, 2], [0, 3]]) ∧ x16.rows % 2 = 0 ∧
    (sampleOther.kern 4).length % 2 = 1 ∧ x16.cols % 2 = 0 ∧ sampleOther.scal 0 = some (NUM.ofRat 1) := by
  decide +kernel

/-- In another format a sum is that format's operations in increasing index (rule R141), and a copy stays a copy
(rule R9). -/
theorem test_colxfm_other : ((after (.colxfm 6 0 2) sampleOther).buf 6).map (fun x => x.get 0 0) =
    some (NUM.op2 3 .add (NUM.op2 3 .mul (NUM.ofRat 1) (NUM.ofRat 1)) (NUM.op2 3 .mul (NUM.ofRat 2) (NUM.ofRat 5))) := by
  decide +kernel
theorem test_quantise_other : (after (.quantise 1 4 0) (sampleOther.setScal 0 (NUM.ofRat 0))).buf 1 = some yPi ∧
    (after (.nlevdwt 1 3 0) sampleOther).buf 1 = some xPi := by decide +kernel
/-- An unknown binning leaves the cost as an expression over the cells' real numbers (rule R216). -/
theorem test_bpp_other : (after (.bpp 1 2) { sample with cfg := { sample.cfg with bin := .other 1 } }).scal 1 =
    some (.bpp .reals (.other 1) (NUMList.ofList [NUM.ofRat 1, NUM.ofRat 2, NUM.ofRat 0, NUM.ofRat 3])) := by
  decide +kernel

end Sys2Proof.Tests
end

/-! ## What a command can do

Every command ends in one of two ways: it takes an error, or it succeeds after writes to its own destinations, each
buffer written with a legal array where the state it starts from is legal. This is proved once for all commands; the
invariant and the frame of a step follow from it. -/

namespace Sys2Proof.Machine

/-- The states that command `i`, started in `s`, can have reached by writes to its destinations. -/
inductive Writes (i : Instr) (s : State) : State → Prop
  | nothing : Writes i s s
  | free {t : State} {b : RegIx} : b ∈ dstBufs i → Writes i s t → Writes i s (t.freeBuf b)
  | buf {t : State} {b : RegIx} {x : Arr} : b ∈ dstBufs i → (s.inv = true → x.wf s.cfg.maxDim = true) →
      Writes i s t → Writes i s (t.setBuf b x)
  | scal {t : State} {j : RegIx} {v : NUM} : j ∈ dstScals i → Writes i s t → Writes i s (t.setScal j v)

/-- A command's body answers a state reached by writes to the destinations, or a code that is an error. -/
def BodyOk (i : Instr) (s : State) : Except ErrCode State → Prop
  | .ok t => Writes i s t
  | .error e => e ≠ .ok

section Body

variable {i : Instr} {s : State}

theorem BodyOk.srcBuf {b : RegIx} {k : Arr → Except ErrCode State}
    (h : ∀ x, s.buf b = some x → BodyOk i s (k x)) : BodyOk i s (s.srcBuf b >>= k) := by
  cases hb : s.buf b with
  | none => rw [State.srcBuf_empty hb]; exact ErrCode.noConfusion
  | some x => rw [State.srcBuf_ok hb]; exact h x hb

theorem BodyOk.srcScal {j : RegIx} {k : NUM → Except ErrCode State}
    (h : ∀ x, BodyOk i s (k x)) : BodyOk i s (s.srcScal j >>= k) := by
  cases hj : s.scal j with
  | none => rw [State.srcScal_empty hj]; exact ErrCode.noConfusion
  | some x => rw [State.srcScal_ok hj]; exact h x

theorem BodyOk.srcKern {j : RegIx} {k : List NUM → Except ErrCode State}
    (h : ∀ g, BodyOk i s (k g)) : BodyOk i s (s.srcKern j >>= k) := by
  by_cases hj : s.kern j = []
  · rw [State.srcKern_empty hj]; exact ErrCode.noConfusion
  · rw [State.srcKern_ok hj]; exact h _

theorem BodyOk.raiseIf {c : Prop} [Decidable c] {e : ErrCode} {k : Unit → Except ErrCode State}
    (h : ¬c → BodyOk i s (k ())) (he : e ≠ .ok := by decide) : BodyOk i s (raiseIf c e >>= k) := by
  rcases raiseIf_cases (c := c) e with ⟨_, hr⟩ | ⟨hc, hr⟩
  · rw [hr]; exact he
  · rw [hr]; exact h hc

/-- A body that ends with the write of one buffer. -/
theorem BodyOk.setBuf {b : RegIx} {x : Arr} (hb : b ∈ dstBufs i) (hx : s.inv = true → x.wf s.cfg.maxDim = true) :
    BodyOk i s (.ok (s.setBuf b x)) := .buf hb hx .nothing

/-- A body that ends with the write of one scalar register. -/
theorem BodyOk.setScal {j : RegIx} {v : NUM} (hj : j ∈ dstScals i) : BodyOk i s (.ok (s.setScal j v)) :=
  .scal hj .nothing

end Body

/-- A matrix of the builder fits the machine once the size is checked (rules R131, R132). -/
theorem wf_square {n m : Nat} (f : Nat → Nat → NUM) (h0 : ¬n = 0) (hm : ¬n > m) : (Arr.ofFn n n f).wf m = true :=
  Arr.wf_ofFn f (by omega) (by omega) (by omega) (by omega)

/-- Every command is a body that is `BodyOk`, followed by the common end of a command. -/
theorem exec_eq_finish (i : Instr) (s : State) : ∃ r, exec i s = finish i s r ∧ BodyOk i s r := by
  have one : ∀ b : RegIx, b ∈ [b] := fun b => List.mem_singleton_self b
  cases i with
  | nop => exact ⟨.ok s, rfl, Writes.nothing⟩
  | free ad => exact ⟨.ok (s.freeBuf ad), rfl, Writes.free (one ad) .nothing⟩
  | mkdct2 ad n =>
    exact ⟨_, rfl, .raiseIf fun h0 => .raiseIf fun hm => .setBuf (one ad) fun _ =>
      wf_square _ h0 hm⟩
  | mkdct4 ad n =>
    exact ⟨_, rfl, .raiseIf fun h0 => .raiseIf fun hm => .setBuf (one ad) fun _ =>
      wf_square _ h0 hm⟩
  | colxfm ad sa ac =>
    exact ⟨_, rfl, .srcBuf fun x hx => .srcBuf fun c _ => .raiseIf fun _ => .raiseIf fun _ =>
      .setBuf (one ad) fun h => wf_colxfm (State.inv_buf h hx) c⟩
  | trn ad sa =>
    exact ⟨_, rfl, .srcBuf fun x hx => .setBuf (one ad) fun h => wf_transpose (State.inv_buf h hx)⟩
  | dct ad sa n =>
    exact ⟨_, rfl, .srcBuf fun x hx => .raiseIf fun _ => .raiseIf fun _ =>
      .setBuf (one ad) fun h => wf_separable (State.inv_buf h hx) _⟩
  | idct ad sa n =>
    exact ⟨_, rfl, .srcBuf fun x hx => .raiseIf fun _ => .raiseIf fun _ =>
      .setBuf (one ad) fun h => wf_separable (State.inv_buf h hx) _⟩
  | regroup ad sa n1 n2 =>
    exact ⟨_, rfl, .srcBuf fun x hx => .raiseIf fun _ => .raiseIf fun _ =>
      .setBuf (one ad) fun h => wf_regroup (State.inv_buf h hx) n1 n2⟩
  | dctbpp sd sa n =>
    exact ⟨_, rfl, .srcBuf fun x _ => .raiseIf fun _ => .raiseIf fun _ => .setScal (one sd)⟩
  | dwt ad sa k1 k2 =>
    exact ⟨_, rfl, .srcBuf fun x hx => .srcKern fun h1 => .srcKern fun h2 => .raiseIf fun _ =>
      .raiseIf fun hd => .setBuf (one ad) fun h =>
        wf_dwt (State.inv_buf h hx) (by omega) (by omega) h1 h2⟩
  | idwt ad sa k1 k2 =>
    exact ⟨_, rfl, .srcBuf fun x hx => .srcKern fun g1 => .srcKern fun g2 => .raiseIf fun _ =>
      .raiseIf fun hd => .setBuf (one ad) fun h => wf_idwt (State.inv_buf h hx) (by omega) g1 g2⟩
  | nlevdwt ad sa n =>
    exact ⟨_, rfl, .srcBuf fun x hx => .raiseIf fun _ =>
      .setBuf (one ad) fun h => wf_dwtLevels (State.inv_buf h hx) n _ _⟩
  | nlevidwt ad sa n =>
    exact ⟨_, rfl, .srcBuf fun x hx => .raiseIf fun _ =>
      .setBuf (one ad) fun h => wf_idwtLevels (State.inv_buf h hx) n _ _⟩
  | quantdwt ad ae sa ta =>
    refine ⟨_, rfl, .raiseIf fun _ => .srcBuf fun y hy => .srcBuf fun t ht => .raiseIf fun hr =>
      .raiseIf fun _ => ?_⟩
    have legal (h : s.inv = true) :
        (quantdwt s.cfg.num s.cfg.bin y t).1.wf s.cfg.maxDim = true ∧
          (quantdwt s.cfg.num s.cfg.bin y t).2.wf s.cfg.maxDim = true := by
      obtain ⟨_, h1, h2, h3, h4⟩ := (Arr.wf_iff _ _).mp (State.inv_buf h ht)
      exact wf_quantdwt (State.inv_buf h hy) (by omega) h3 h4
    exact Writes.buf (by simp [dstBufs]) (fun h => (legal h).2)
      (Writes.buf (by simp [dstBufs]) (fun h => (legal h).1) .nothing)
  | energyz sd n layer j =>
    exact ⟨_, rfl, .raiseIf fun _ => .raiseIf fun _ => .raiseIf fun _ =>
      .raiseIf fun _ => .setScal (one sd)⟩
  | quantise ad sa ss =>
    exact ⟨_, rfl, .srcBuf fun x hx => .srcScal fun g => .setBuf (one ad) fun h => wf_quantise (State.inv_buf h hx) g⟩
  | bpp sd sa => exact ⟨_, rfl, .srcBuf fun x _ => .setScal (one sd)⟩
  | rowdec ad sa k =>
    exact ⟨_, rfl, .srcBuf fun x hx => .srcKern fun g => .raiseIf fun _ => .raiseIf fun hc =>
      .setBuf (one ad) fun h => wf_rowdec (State.inv_buf h hx) (by omega) g⟩
  | rowdec2 ad sa k =>
    exact ⟨_, rfl, .srcBuf fun x hx => .srcKern fun g => .raiseIf fun _ => .raiseIf fun hc =>
      .setBuf (one ad) fun h => wf_rowdec2 (State.inv_buf h hx) (by omega) g⟩
  | rowint ad sa k =>
    exact ⟨_, rfl, .srcBuf fun x hx => .srcKern fun g => .raiseIf fun _ => .raiseIf fun hc =>
      .setBuf (one ad) fun h => wf_rowint (State.inv_buf h hx) (by omega) g⟩
  | rowint2 ad sa k =>
    exact ⟨_, rfl, .srcBuf fun x hx => .srcKern fun g => .raiseIf fun _ => .raiseIf fun hc =>
      .setBuf (one ad) fun h => wf_rowint2 (State.inv_buf h hx) (by omega) g⟩

/-- Everything a command can do, in every state. -/
theorem exec_cases (i : Instr) (s : State) :
    (∃ t, Writes i s t ∧ exec i s = .next t.succeed) ∨
      (∃ e, e ≠ .ok ∧ exec i s = .next (s.takeError e (encode i))) := by
  obtain ⟨r, hr, hok⟩ := exec_eq_finish i s
  rw [hr]
  cases r with
  | ok t => exact .inl ⟨t, hok, rfl⟩
  | error e => exact .inr ⟨e, hok, rfl⟩

end Sys2Proof.Machine

/-! ## What every host access keeps -/

namespace Sys2Proof.Machine

/-- From `s` to `t` the parameters and the host's own two fields stay, and so does the invariant. -/
structure Keeps (s t : State) : Prop where
  cfg : t.cfg = s.cfg
  pending : t.pending = s.pending
  replies : t.replies = s.replies
  inv : s.inv = true → t.inv = true

section Keeps

variable {s t u : State}

theorem Keeps.refl (s : State) : Keeps s s := ⟨rfl, rfl, rfl, id⟩

theorem Keeps.trans (h : Keeps s t) (h' : Keeps t u) : Keeps s u :=
  ⟨h'.cfg.trans h.cfg, h'.pending.trans h.pending, h'.replies.trans h.replies, h'.inv ∘ h.inv⟩

/-- A change of fields that the invariant does not speak of. -/
theorem Keeps.of_fields (h : Keeps s t) (hb : u.bufs = t.bufs := by rfl) (hk : u.kernels = t.kernels := by rfl)
    (hi : u.imgSize = t.imgSize := by rfl) (hs : u.sticky = t.sticky := by rfl) (hc : u.cfg = t.cfg := by rfl)
    (hp : u.pending = t.pending := by rfl) (hr : u.replies = t.replies := by rfl) : Keeps s u :=
  h.trans ⟨hc, hp, hr, fun ht => State.inv_congr ht hb hk hc hi hs⟩

theorem Keeps.hostErr (s : State) : Keeps s s.hostErr := ⟨rfl, rfl, rfl, State.inv_hostErr⟩

theorem Keeps.takeError {e : ErrCode} (he : e ≠ .ok) (w : Word) : Keeps s (s.takeError e w) :=
  ⟨rfl, rfl, rfl, fun h => State.inv_takeError h he w⟩

theorem Keeps.setBuf {b : RegIx} {x : Arr} (hx : s.inv = true → x.wf s.cfg.maxDim = true) : Keeps s (s.setBuf b x) :=
  ⟨rfl, rfl, rfl, fun h => State.inv_setBuf h b (hx h)⟩

theorem Keeps.setKern (j : RegIx) (taps : List NUM) (ht : s.inv = true → taps.length ≤ s.cfg.maxTaps) :
    Keeps s (s.setKern j taps) :=
  ⟨s.setKern_cfg j taps, s.setKern_pending j taps, s.setKern_replies j taps, fun h => State.inv_setKern h j (ht h)⟩

theorem Writes.keeps {i : Instr} (h : Writes i s t) : Keeps s t := by
  induction h with
  | nothing => exact .refl s
  | free _ _ ih => exact ih.trans ⟨rfl, rfl, rfl, fun h => State.inv_freeBuf h _⟩
  | buf _ hx _ ih => exact ⟨ih.cfg, ih.pending, ih.replies, fun h => State.inv_setBuf (ih.inv h) _ (ih.cfg ▸ hx h)⟩
  | scal _ _ ih => exact ih.of_fields

theorem exec_keeps {i : Instr} (h : exec i s = .next t) : Keeps s t := by
  rcases exec_cases i s with ⟨u, hu, he⟩ | ⟨e, he, hx⟩
  · cases he.symm.trans h; exact hu.keeps.of_fields
  · cases hx.symm.trans h; exact .takeError he _

theorem issue_keeps {w : Word} (h : s.issue w = .next t) : Keeps s t := by
  unfold State.issue at h
  split at h
  · exact exec_keeps h
  · cases h; exact .takeError (by decide) w

/-- A register holds at most MAXTAPS taps, the read-only ones at most 5 (rules R25, R26). -/
theorem kern_length_le (h : s.inv = true) (j : RegIx) : (s.kern j).length ≤ s.cfg.maxTaps := by
  obtain ⟨hc, _, hk, _⟩ := s.inv_iff.mp h
  obtain ⟨_, _, h5, _⟩ := (Config.wf_iff _).mp hc
  by_cases hj : j.val < 4
  · have rom : ∀ j : RegIx, (romKernel j).length ≤ 5 := by decide
    rw [s.kern_of_lt j hj]
    exact (rom j).trans h5
  · refine s.kernelsOk_iff.mp hk _ ?_
    simp [State.kern, hj]

theorem portCell_buf {x : Arr} {r c : Nat} (h : s.portCell = some (x, r, c)) : s.buf s.bSel = some x := by
  unfold State.portCell at h
  split at h
  · cases h
  · split at h
    · cases h; assumption
    · cases h

/-! ### Reads -/

theorem readNum_keeps (s : State) (r : HostReg) : Keeps s (s.readNum r).2 := by
  unfold State.readNum
  split
  · split
    · exact (Keeps.refl s).of_fields
    · exact .hostErr s
  · split
    · exact (Keeps.refl s).of_fields
    · exact .hostErr s
  · split
    · exact .refl s
    · exact .hostErr s
  · exact .refl s

theorem regRead_keeps (s : State) (n : Fin 32) : Keeps s (s.regRead n).2 := by
  unfold State.regRead
  dsimp only
  split
  · exact readNum_keeps s _
  · split
    · exact .hostErr s
    · exact .refl s

/-! ### Writes -/

theorem State.stickyOk_iff (s : State) : s.stickyOk = true ↔ s.sticky &&& 0xFFFFFF01#32 = 0#32 := decide_eq_true_iff

theorem writeSticky_keeps (s : State) (v : Word) : Keeps s { s with sticky := clearSticky s.sticky v } := by
  refine ⟨rfl, rfl, rfl, fun h => ?_⟩
  obtain ⟨hc, hb, hk, hi, hs⟩ := s.inv_iff.mp h
  refine (State.inv_iff _).mpr ⟨hc, hb, hk, hi, (State.stickyOk_iff _).mpr ?_⟩
  calc s.sticky &&& ~~~v &&& 0xFFFFFF01#32
      = s.sticky &&& 0xFFFFFF01#32 &&& ~~~v := by rw [BitVec.and_assoc, BitVec.and_comm (~~~v), BitVec.and_assoc]
    _ = 0#32 := by rw [s.stickyOk_iff.mp hs, BitVec.zero_and]

theorem writeImgSize_keeps (s : State) (v : Word) : Keeps s (s.writeImgSize v) := by
  unfold State.writeImgSize
  dsimp only
  split
  next hz =>
    refine ⟨rfl, rfl, rfl, fun h => ?_⟩
    obtain ⟨hc, hb, hk, _, hs⟩ := s.inv_iff.mp h
    exact (State.inv_iff _).mpr ⟨hc, hb, hk, by simpa [State.imgSizeOk] using hz, hs⟩
  next => exact .hostErr s

theorem writeBShape_keeps (s : State) (v : Word) : Keeps s (s.writeBShape v) := by
  unfold State.writeBShape
  dsimp only
  split
  next h =>
    obtain ⟨h1, h2, h3, h4⟩ := h
    exact (Keeps.setBuf fun _ => Arr.wf_ofFn _ h1 h2 h3 h4).of_fields
  next => exact .hostErr s

theorem writeKLen_keeps (s : State) (v : Word) : Keeps s (s.writeKLen v) := by
  unfold State.writeKLen
  split
  next h => exact (Keeps.setKern s.kSel (List.replicate v.toNat NUM.zero) fun _ => by simpa using h.2).of_fields
  next => exact .hostErr s

theorem writeWord_keeps (s : State) (r : HostReg) (v : Word) : Keeps s (s.writeWord r v) := by
  cases r with
  | sticky => exact writeSticky_keeps s v
  | imgsize => exact writeImgSize_keeps s v
  | bshape => exact writeBShape_keeps s v
  | klen => exact writeKLen_keeps s v
  | bsel | caddr | ksel | kaddr | ssel => exact (Keeps.refl s).of_fields
  | id | cap | maxdim | status | errinfo | bvalid | svalid | reserved => exact .hostErr s
  | cmd | cdata | kdata | sdata => exact .refl s

theorem writeNum_keeps (s : State) (r : HostReg) (v : NUM) : Keeps s (s.writeNum r v) := by
  unfold State.writeNum
  split
  · split
    next x i j hx =>
      exact (Keeps.setBuf fun h => wf_setCell (State.inv_buf h (portCell_buf hx)) i j v).of_fields
    next => exact .hostErr s
  · split
    next =>
      exact (Keeps.setKern s.kSel ((s.kern s.kSel).set s.kAddr.toNat v) fun h => by
        simpa using kern_length_le h s.kSel).of_fields
    next => exact .hostErr s
  · exact (Keeps.refl s).of_fields
  · exact .refl s

theorem regWrite_keeps {n : Fin 32} {v : HostVal} (h : s.regWrite n v = .next t) : Keeps s t := by
  unfold State.regWrite at h
  cases v with
  | word w =>
    dsimp only at h
    split at h
    · exact issue_keeps h
    · split at h
      · cases h
      · cases h; exact writeWord_keeps s _ w
  | num x =>
    dsimp only at h
    split at h
    · cases h; exact writeNum_keeps s _ x
    · cases h

/-! ### One host action -/

/-- The state with one more reply for the host (log 4). -/
def State.reply (s : State) (r : Reply) : State := { s with replies := r :: s.replies }

theorem inv_reply (s : State) (r : Reply) : (s.reply r).inv = s.inv := rfl

theorem busReg_error {offset size : Nat} {o : Host.Outcome State Fault Refusal} (h : busReg offset size = .error o) :
    o ≠ .next t := by
  unfold busReg at h
  split at h
  · split at h
    · cases h; nofun
    · split at h
      · cases h; nofun
      · cases h
  · cases h; nofun

theorem doBusRead_keeps {offset size : Nat} (h : s.doBusRead offset size = .next t) :
    ∃ u r, Keeps s u ∧ t = u.reply r := by
  unfold State.doBusRead at h
  split at h
  next o ho => exact absurd h (busReg_error ho)
  next n hn =>
    have hk := regRead_keeps s n
    split at h
    next w u hu => rw [hu] at hk; cases h; exact ⟨u, _, hk, rfl⟩
    next => cases h

theorem doBusWrite_keeps {offset : Nat} {bs : List Byte} (h : s.doBusWrite offset bs = .next t) : Keeps s t := by
  unfold State.doBusWrite at h
  split at h
  next o ho => exact absurd h (busReg_error ho)
  next n hn =>
    split at h
    · exact regWrite_keeps h
    · cases h

/-- The invariant of the reset state needs only legal parameters (rule R52). -/
theorem resetInput_keeps (s : State) : Keeps s s.resetInput := by
  refine ⟨rfl, rfl, rfl, fun h => ?_⟩
  have hc := (s.inv_iff.mp h).1
  obtain ⟨h256, _⟩ := (Config.wf_iff _).mp hc
  refine (State.inv_iff _).mpr ⟨hc, (State.bufsOk_iff _).mpr ?_, (State.kernelsOk_iff _).mpr ?_, ?_, ?_⟩
  · intro b x hb
    have empty : s.resetInput.buf b = none := by simp [State.buf, State.resetInput, State.reset, Vector.get_eq_getElem]
    rw [empty] at hb
    cases hb
  · intro g hg
    have hg : g = [] := by simpa [State.resetInput, State.reset] using hg
    simp [hg]
  · simpa [State.imgSizeOk, State.resetInput, State.reset, imgSizeReset] using h256
  · simp [State.stickyOk, State.resetInput, State.reset]

/-- An action keeps the parameters, the coming actions and the invariant, and adds at most one reply. -/
theorem perform_keeps {a : HostAction} (h : s.perform a = .next t) :
    Keeps s t ∨ ∃ u r, Keeps s u ∧ t = u.reply r := by
  cases a with
  | read n => cases h; exact .inr ⟨_, _, regRead_keeps s n, rfl⟩
  | write n v => exact .inl (regWrite_keeps h)
  | busRead offset size => exact .inr (doBusRead_keeps h)
  | busWrite offset bs => exact .inl (doBusWrite_keeps h)
  | reset => cases h; exact .inl (resetInput_keeps s)

end Keeps

theorem step_of_nil {s : State} (h : s.pending = []) : step s = .next s := by
  simp [step, State.advance, h]

theorem step_of_cons {s : State} {a : HostAction} {rest : List HostAction} (h : s.pending = a :: rest) :
    step s = ({ s with pending := rest } : State).perform a := by
  simp [step, State.advance, h]

end Sys2Proof.Machine

/-! ## The machine's invariant and its steps -/

section

open Sys2Proof Sys2Proof.Machine

/-- Settles O6: the reset state is one closed value. -/
theorem resetMeetsTheInvariant : Obligations.ResetMeetsTheInvariant := by
  unfold Obligations.ResetMeetsTheInvariant
  decide

/-- Settles O7: an idle step changes nothing, and every host action keeps the invariant. -/
theorem everyStepKeepsTheInvariant : Obligations.EveryStepKeepsTheInvariant := by
  unfold Obligations.EveryStepKeepsTheInvariant
  intro s t hinv hstep
  cases hp : s.pending with
  | nil => cases (step_of_nil hp).symm.trans hstep; exact hinv
  | cons a rest =>
    rw [step_of_cons hp] at hstep
    have hrest : ({ s with pending := rest } : State).inv = true := hinv
    rcases perform_keeps hstep with hk | ⟨u, r, hk, rfl⟩
    · exact hk.inv hrest
    · rw [inv_reply]; exact hk.inv hrest

/-- Settles O8: a step performs the action at the head of the list, and what an action keeps is `perform_keeps`. -/
theorem stepsTakeOneHostAction : Obligations.StepsTakeOneHostAction := by
  unfold Obligations.StepsTakeOneHostAction
  refine ⟨fun s n rest hp => ?_, fun s n v rest hp => step_of_cons hp, fun s a rest hp => step_of_cons hp,
    fun s t a rest hp hstep => ?_⟩
  · rw [step_of_cons hp]
    simp only [State.perform, (regRead_keeps { s with pending := rest } n).replies]
  · rw [step_of_cons hp] at hstep
    rcases perform_keeps hstep with hk | ⟨u, r, hk, rfl⟩
    · exact ⟨hk.pending, hk.cfg, .inl hk.replies⟩
    · exact ⟨hk.pending, hk.cfg, .inr ⟨r, congrArg (r :: ·) hk.replies⟩⟩

end

/-! ## What a command depends on

Two runs of one command are compared reading by reading: where the operands are equal, the two bodies take the same
branch, and they end by writing the same values (rule R10). -/

namespace Sys2Proof.Machine

/-- Two states hold the same in every destination of a command. -/
def SameDst (i : Instr) (t t' : State) : Prop :=
  (∀ b ∈ dstBufs i, t.buf b = t'.buf b) ∧ ∀ j ∈ dstScals i, t.scal j = t'.scal j

/-- Two bodies of a command end with the same error, or both succeed with the same destinations. -/
def SameResult (i : Instr) : Except ErrCode State → Except ErrCode State → Prop
  | .ok t, .ok t' => SameDst i t t'
  | .error e, .error e' => e = e' ∧ e ≠ .ok
  | _, _ => False

section SameResult

variable {i : Instr} {s s' : State}

theorem SameResult.srcBuf {b : RegIx} {k k' : Arr → Except ErrCode State} (h : s.buf b = s'.buf b)
    (hk : ∀ x, SameResult i (k x) (k' x)) : SameResult i (s.srcBuf b >>= k) (s'.srcBuf b >>= k') := by
  cases hb : s.buf b with
  | none => rw [State.srcBuf_empty hb, State.srcBuf_empty (h ▸ hb)]; exact ⟨rfl, nofun⟩
  | some x => rw [State.srcBuf_ok hb, State.srcBuf_ok (h ▸ hb)]; exact hk x

theorem SameResult.srcScal {j : RegIx} {k k' : NUM → Except ErrCode State} (h : s.scal j = s'.scal j)
    (hk : ∀ x, SameResult i (k x) (k' x)) : SameResult i (s.srcScal j >>= k) (s'.srcScal j >>= k') := by
  cases hj : s.scal j with
  | none => rw [State.srcScal_empty hj, State.srcScal_empty (h ▸ hj)]; exact ⟨rfl, nofun⟩
  | some x => rw [State.srcScal_ok hj, State.srcScal_ok (h ▸ hj)]; exact hk x

theorem SameResult.srcKern {j : RegIx} {k k' : List NUM → Except ErrCode State} (h : s.kern j = s'.kern j)
    (hk : ∀ g, SameResult i (k g) (k' g)) : SameResult i (s.srcKern j >>= k) (s'.srcKern j >>= k') := by
  by_cases hj : s.kern j = []
  · rw [State.srcKern_empty hj, State.srcKern_empty (h ▸ hj)]; exact ⟨rfl, nofun⟩
  · rw [State.srcKern_ok hj, State.srcKern_ok (h ▸ hj), h]; exact hk _

theorem SameResult.raiseIf {c c' : Prop} [Decidable c] [Decidable c'] {e : ErrCode}
    {k k' : Unit → Except ErrCode State} (h : c ↔ c') (hk : SameResult i (k ()) (k' ())) (he : e ≠ .ok := by decide) :
    SameResult i (raiseIf c e >>= k) (raiseIf c' e >>= k') := by
  rcases raiseIf_cases (c := c) e with ⟨hc, hr⟩ | ⟨hc, hr⟩
  · rw [hr, raiseIf_true (h.mp hc)]; exact ⟨rfl, he⟩
  · rw [hr, raiseIf_false (mt h.mpr hc)]; exact hk

theorem SameResult.setBuf {b : RegIx} {x x' : Arr} (hx : x = x') (hb : dstBufs i = [b] := by rfl)
    (hj : dstScals i = [] := by rfl) : SameResult i (.ok (s.setBuf b x)) (.ok (s'.setBuf b x')) := by
  simp [SameResult, SameDst, hb, hj, hx]

theorem SameResult.setScal {j : RegIx} {v v' : NUM} (hv : v = v') (hb : dstBufs i = [] := by rfl)
    (hj : dstScals i = [j] := by rfl) : SameResult i (.ok (s.setScal j v)) (.ok (s'.setScal j v')) := by
  simp [SameResult, SameDst, hb, hj, hv]

end SameResult

/-- A command in two states that agree on its operands is two bodies with the same result. -/
theorem exec_agree {i : Instr} {s s' : State} (h : agreeOn i s s') :
    ∃ r r', exec i s = finish i s r ∧ exec i s' = finish i s' r' ∧ SameResult i r r' := by
  obtain ⟨hb, hj, hk, hsize, hc⟩ := h
  cases i with
  | nop => exact ⟨.ok s, .ok s', rfl, rfl, by simp [SameResult, SameDst, dstBufs, dstScals]⟩
  | free ad =>
    exact ⟨.ok (s.freeBuf ad), .ok (s'.freeBuf ad), rfl, rfl, by simp [SameResult, SameDst, dstBufs, dstScals]⟩
  | mkdct2 ad n => exact ⟨_, _, rfl, rfl, .raiseIf .rfl <| .raiseIf (by rw [hc]) <| .setBuf (by rw [hc])⟩
  | mkdct4 ad n => exact ⟨_, _, rfl, rfl, .raiseIf .rfl <| .raiseIf (by rw [hc]) <| .setBuf (by rw [hc])⟩
  | colxfm ad sa ac =>
    exact ⟨_, _, rfl, rfl, .srcBuf (hb _ (by simp [srcBufs])) fun _ => .srcBuf (hb _ (by simp [srcBufs])) fun _ =>
      .raiseIf .rfl <| .raiseIf .rfl <| .setBuf (by rw [hc])⟩
  | trn ad sa => exact ⟨_, _, rfl, rfl, .srcBuf (hb _ (by simp [srcBufs])) fun _ => .setBuf rfl⟩
  | dct ad sa n =>
    exact ⟨_, _, rfl, rfl, .srcBuf (hb _ (by simp [srcBufs])) fun _ => .raiseIf .rfl <| .raiseIf .rfl <|
      .setBuf (by rw [hc])⟩
  | idct ad sa n =>
    exact ⟨_, _, rfl, rfl, .srcBuf (hb _ (by simp [srcBufs])) fun _ => .raiseIf .rfl <| .raiseIf .rfl <|
      .setBuf (by rw [hc])⟩
  | regroup ad sa n1 n2 =>
    exact ⟨_, _, rfl, rfl, .srcBuf (hb _ (by simp [srcBufs])) fun _ => .raiseIf .rfl <| .raiseIf .rfl <| .setBuf rfl⟩
  | dctbpp sd sa n =>
    exact ⟨_, _, rfl, rfl, .srcBuf (hb _ (by simp [srcBufs])) fun _ => .raiseIf .rfl <| .raiseIf .rfl <|
      .setScal (by rw [hc])⟩
  | dwt ad sa k1 k2 =>
    exact ⟨_, _, rfl, rfl, .srcBuf (hb _ (by simp [srcBufs])) fun _ => .srcKern (hk _ (by simp [srcKerns])) fun _ =>
      .srcKern (hk _ (by simp [srcKerns])) fun _ => .raiseIf .rfl <| .raiseIf .rfl <| .setBuf (by rw [hc])⟩
  | idwt ad sa k1 k2 =>
    exact ⟨_, _, rfl, rfl, .srcBuf (hb _ (by simp [srcBufs])) fun _ => .srcKern (hk _ (by simp [srcKerns])) fun _ =>
      .srcKern (hk _ (by simp [srcKerns])) fun _ => .raiseIf .rfl <| .raiseIf .rfl <| .setBuf (by rw [hc])⟩
  | nlevdwt ad sa n =>
    exact ⟨_, _, rfl, rfl, .srcBuf (hb _ (by simp [srcBufs])) fun _ => .raiseIf .rfl <| .setBuf (by rw [hc])⟩
  | nlevidwt ad sa n =>
    exact ⟨_, _, rfl, rfl, .srcBuf (hb _ (by simp [srcBufs])) fun _ => .raiseIf .rfl <| .setBuf (by rw [hc])⟩
  | quantdwt ad ae sa ta =>
    refine ⟨_, _, rfl, rfl, .raiseIf .rfl <| .srcBuf (hb _ (by simp [srcBufs])) fun y =>
      .srcBuf (hb _ (by simp [srcBufs])) fun t => .raiseIf .rfl <| .raiseIf .rfl <| ⟨fun b hm => ?_, nofun⟩⟩
    have hm : b = ad ∨ b = ae := by simpa [dstBufs] using hm
    simp only [State.buf_setBuf, hc]
    rcases hm with rfl | rfl <;> simp
  | energyz sd n layer j =>
    have hz : s.imgSize = s'.imgSize := hsize rfl
    exact ⟨_, _, rfl, rfl, .raiseIf .rfl <| .raiseIf .rfl <| .raiseIf .rfl <| .raiseIf (by rw [hz]) <|
      .setScal (by rw [hc, hz])⟩
  | quantise ad sa ss =>
    exact ⟨_, _, rfl, rfl, .srcBuf (hb _ (by simp [srcBufs])) fun _ => .srcScal (hj _ (by simp [srcScals])) fun _ =>
      .setBuf (by rw [hc])⟩
  | bpp sd sa => exact ⟨_, _, rfl, rfl, .srcBuf (hb _ (by simp [srcBufs])) fun _ => .setScal (by rw [hc])⟩
  | rowdec ad sa k =>
    exact ⟨_, _, rfl, rfl, .srcBuf (hb _ (by simp [srcBufs])) fun _ => .srcKern (hk _ (by simp [srcKerns])) fun _ =>
      .raiseIf .rfl <| .raiseIf .rfl <| .setBuf (by rw [hc])⟩
  | rowdec2 ad sa k =>
    exact ⟨_, _, rfl, rfl, .srcBuf (hb _ (by simp [srcBufs])) fun _ => .srcKern (hk _ (by simp [srcKerns])) fun _ =>
      .raiseIf .rfl <| .raiseIf .rfl <| .setBuf (by rw [hc])⟩
  | rowint ad sa k =>
    exact ⟨_, _, rfl, rfl, .srcBuf (hb _ (by simp [srcBufs])) fun _ => .srcKern (hk _ (by simp [srcKerns])) fun _ =>
      .raiseIf .rfl <| .raiseIf (by rw [hc]) <| .setBuf (by rw [hc])⟩
  | rowint2 ad sa k =>
    exact ⟨_, _, rfl, rfl, .srcBuf (hb _ (by simp [srcBufs])) fun _ => .srcKern (hk _ (by simp [srcKerns])) fun _ =>
      .raiseIf .rfl <| .raiseIf (by rw [hc]) <| .setBuf (by rw [hc])⟩

/-- The common end of a command carries the result's code and destinations into the next state. -/
theorem finish_agree {i : Instr} {s s' t t' : State} {r r' : Except ErrCode State} (h : SameResult i r r')
    (ht : finish i s r = .next t) (ht' : finish i s' r' = .next t') :
    t.err = t'.err ∧ (t.err = .ok → SameDst i t t') := by
  match r, r', h with
  | .ok u, .ok u', h =>
    cases ht; cases ht'
    exact ⟨rfl, fun _ => h⟩
  | .error e, .error e', h =>
    cases ht; cases ht'
    exact ⟨h.1, fun ok => absurd ok h.2⟩

end Sys2Proof.Machine

section

open Sys2Proof Sys2Proof.Machine

/-- Settles O3: the two runs are bodies with the same result, and the end of a command passes it on. -/
theorem commandsArePureFunctions : Obligations.CommandsArePureFunctions := by
  unfold Obligations.CommandsArePureFunctions
  intro i s s' t t' hagree ht ht'
  obtain ⟨r, r', hr, hr', hsame⟩ := exec_agree hagree
  exact finish_agree hsame (hr ▸ ht) (hr' ▸ ht')

end

/-! ## Commands that succeed -/

namespace Sys2Proof.Machine

section Success

variable {s : State}

theorem done_setBuf (s : State) (b : RegIx) (x : Arr) : Done [b] [] s (s.setBuf b x).succeed := by
  refine ⟨rfl, fun b' hb => ?_, fun _ _ => rfl, rfl, rfl, rfl, rfl, rfl, rfl, rfl, rfl, rfl, rfl, rfl, rfl⟩
  have hb : b' ≠ b := by simpa using hb
  rw [State.buf_congr (State.succeed_bufs _), State.buf_setBuf, if_neg hb]

theorem done_setScal (s : State) (j : RegIx) (v : NUM) : Done [] [j] s (s.setScal j v).succeed := by
  refine ⟨rfl, fun _ _ => rfl, fun j' hj => ?_, rfl, rfl, rfl, rfl, rfl, rfl, rfl, rfl, rfl, rfl, rfl, rfl⟩
  have hj : j' ≠ j := by simpa using hj
  rw [State.scal_congr (State.succeed_scalars _), State.scal_setScal, if_neg hj]

/-- A command that ends with the write of one buffer: what is claimed of the written array is claimed of the result. -/
theorem exists_done_buf {i : Instr} {ad : RegIx} {x : Arr} {P : Arr → Prop}
    (h : exec i s = .next (s.setBuf ad x).succeed) (hx : P x) :
    ∃ t y, exec i s = .next t ∧ Done [ad] [] s t ∧ t.buf ad = some y ∧ P y :=
  ⟨_, x, h, done_setBuf s ad x, s.buf_setBuf_self ad x, hx⟩

/-- A command that ends with the write of one scalar register. -/
theorem exists_done_scal {i : Instr} {sd : RegIx} {v : NUM} {P : NUM → Prop}
    (h : exec i s = .next (s.setScal sd v).succeed) (hv : P v) :
    ∃ t w, exec i s = .next t ∧ Done [] [sd] s t ∧ t.scal sd = some w ∧ P w :=
  ⟨_, v, h, done_setScal s sd v, s.scal_setScal_self sd v, hv⟩

/-! ### A body step by step -/

theorem srcBuf_bind {α : Type} {b : RegIx} {x : Arr} (h : s.buf b = some x) (k : Arr → Except ErrCode α) :
    (s.srcBuf b >>= k) = k x := by rw [State.srcBuf_ok h]; rfl

theorem srcScal_bind {α : Type} {j : RegIx} {x : NUM} (h : s.scal j = some x) (k : NUM → Except ErrCode α) :
    (s.srcScal j >>= k) = k x := by rw [State.srcScal_ok h]; rfl

theorem srcKern_bind {α : Type} {j : RegIx} (h : s.kern j ≠ []) (k : List NUM → Except ErrCode α) :
    (s.srcKern j >>= k) = k (s.kern j) := by rw [State.srcKern_ok h]; rfl

theorem raiseIf_bind {α : Type} {c : Prop} [Decidable c] (h : ¬c) (e : ErrCode) (k : Unit → Except ErrCode α) :
    (raiseIf c e >>= k) = k () := by rw [raiseIf_false h]; rfl

theorem exec_mkdct2 (ad : RegIx) {n : Nat} (h0 : n ≠ 0) (hm : n ≤ s.cfg.maxDim) :
    exec (.mkdct2 ad n) s = .next (s.setBuf ad (dct2Matrix s.cfg.num n)).succeed := by
  change finish _ _ _ = _
  rw [raiseIf_bind h0, raiseIf_bind (not_lt.mpr hm)]; rfl

theorem exec_colxfm (ad : RegIx) {sa ac : RegIx} {x c : Arr} (hx : s.buf sa = some x) (hc : s.buf ac = some c)
    (hsq : c.cols = c.rows) (hd : x.rows % c.rows = 0) :
    exec (.colxfm ad sa ac) s = .next (s.setBuf ad (colxfm s.cfg.num x c)).succeed := by
  change finish _ _ _ = _
  rw [srcBuf_bind hx, srcBuf_bind hc, raiseIf_bind (not_not.mpr hsq), raiseIf_bind (not_not.mpr hd)]; rfl

theorem exec_rowdec (ad : RegIx) {sa k : RegIx} {x : Arr} (hx : s.buf sa = some x) (hk : (s.kern k).length % 2 = 1)
    (hc : x.cols % 2 = 0) :
    exec (.rowdec ad sa k) s = .next (s.setBuf ad (rowdec s.cfg.num x (s.kern k))).succeed := by
  have hne : s.kern k ≠ [] := by intro h; simp [h] at hk
  have hodd : ¬evenKernel (s.kern k) := by simp [evenKernel, hk]
  change finish _ _ _ = _
  rw [srcBuf_bind hx, srcKern_bind hne, raiseIf_bind hodd, raiseIf_bind (not_not.mpr hc)]; rfl

theorem exec_quantise (ad : RegIx) {sa ss : RegIx} {x : Arr} {g : NUM} (hx : s.buf sa = some x)
    (hg : s.scal ss = some g) :
    exec (.quantise ad sa ss) s = .next (s.setBuf ad (x.quantise s.cfg.num g)).succeed := by
  change finish _ _ _ = _
  rw [srcBuf_bind hx, srcScal_bind hg]; rfl

theorem exec_bpp (sd : RegIx) {sa : RegIx} {x : Arr} (hx : s.buf sa = some x) :
    exec (.bpp sd sa) s = .next (s.setScal sd (x.bpp s.cfg.num s.cfg.bin)).succeed := by
  change finish _ _ _ = _
  rw [srcBuf_bind hx]; rfl

end Success

/-! ### The cells, in a format other than the reals -/

section OtherFormats

variable (ρ : Nat → ℝ) (f : Nat)

theorem val_dct2Matrix_other {n i k : Nat} (hi : i < n) (hk : k < n) :
    (dct2Matrix (.other f) n).val ρ i k = (dct2Entry (.other f) n i k).val ρ := by
  unfold Arr.val dct2Matrix; rw [Arr.get_ofFn _ hi hk]

theorem val_rowdec_other {x : Arr} (h : List NUM) {r u : Nat} (hr : r < x.rows) (hu : u < x.cols / 2) :
    (rowdec (.other f) x h).val ρ r u = formatSum f h.length fun a =>
      arith2 f .mul ((h.getD a NUM.zero).val ρ)
        (x.val ρ r (refl x.cols ((2 * u + (h.length - 1) / 2 : Nat) - (a : Int)))) := by
  unfold Arr.val rowdec
  rw [Arr.get_ofFn _ hr hu, val_filterAt_other, ← Nat.cast_add]

end OtherFormats

/-- `quantise` of a cell, in every format. -/
theorem val_arr_quantise (ρ : Nat → ℝ) (f : NumFormat) {x : Arr} (g : NUM) {r c : Nat} (hr : r < x.rows)
    (hc : c < x.cols) : (x.quantise f g).val ρ r c = f.quantiseVal (x.val ρ r c) (g.val ρ) := by
  unfold Arr.val Arr.quantise
  rw [Arr.get_map hr hc, NUM.val_quantise]

end Sys2Proof.Machine

section

open Sys2Proof Sys2Proof.Machine

/-- Settles O60: each command's body runs to its one write, and the written cells are read by the value lemmas. -/
theorem otherFormatsUseTheirOwnOperations : Obligations.OtherFormatsUseTheirOwnOperations := by
  unfold Obligations.OtherFormatsUseTheirOwnOperations
  intro s f hf
  refine ⟨fun ad n h1 hm => ?mkdct2, fun ad sa ac x c hx hc hsq hd => ?colxfm, fun ad sa k x hx hk hc => ?rowdec,
    fun ad sa ss x g hx hg => ?quantise, fun sd sa x hx => ?bpp⟩
  case mkdct2 =>
    refine exists_done_buf (exec_mkdct2 ad (by omega) hm) ⟨rfl, rfl, fun ρ k hk => ⟨?_, fun i hi hin => ?_⟩⟩
    · rw [hf, val_dct2Matrix_other ρ f h1 hk, val_dct2Entry_other, if_pos rfl]
    · rw [hf, val_dct2Matrix_other ρ f hin hk, val_dct2Entry_other, if_neg (by omega)]
  case colxfm =>
    refine exists_done_buf (exec_colxfm ad hx hc hsq hd) fun ρ b i j hb hi hj => ?_
    rw [hf]
    exact val_colxfm_other ρ f (block_lt hd hb hi) hi hj
  case rowdec =>
    refine exists_done_buf (exec_rowdec ad hx hk hc) fun ρ r u hr hu => ?_
    rw [hf]
    exact val_rowdec_other ρ f _ hr hu
  case quantise =>
    refine exists_done_buf (exec_quantise ad hx hg) fun ρ r c hr hc => ?_
    rw [hf]
    exact val_arr_quantise ρ (.other f) g hr hc
  case bpp =>
    refine exists_done_scal (exec_bpp sd hx) fun ρ => ?_
    rw [hf]
    exact val_bitsPerPixel_format ρ (.other f) _ _

end

/-! ## Perfect reconstruction with the default kernels

A row of `c` samples, extended by rule R226, is a sequence over all integers that is even and has period `2(c - 1)`.
The filters of the default pair keep that symmetry, so a sample that a synthesis filter reads through `refl_c` is the
filtered sequence itself at the unreflected place, and reconstruction is one identity between neighbouring samples with
no case for the boundary (rules R174, R234). -/

namespace Sys2Proof.Machine

/-! ### Reflection -/

/-- The reflected index is the smaller of the residues of `j` and `-j` modulo the period. -/
theorem refl_eq_min {c : Nat} (hc : 1 < c) (j : Int) :
    (refl c j : Int) = min (j % (2 * (c - 1))) (2 * (c - 1) - j % (2 * (c - 1))) := by
  have hp : ((2 * (c - 1) : Nat) : Int) = 2 * ((c : Int) - 1) := by omega
  have h0 := Int.emod_nonneg j (b := 2 * ((c : Int) - 1)) (by omega)
  have h1 := Int.emod_lt_of_pos j (b := 2 * ((c : Int) - 1)) (by omega)
  unfold refl
  rw [if_neg (by omega)]
  dsimp only
  rw [hp]
  split <;> omega

theorem refl_of_lt {c t : Nat} (ht : t < c) : refl c t = t := by
  by_cases hc : c = 1
  · rw [refl, if_pos hc]; omega
  · have h := refl_eq_min (c := c) (by omega) t
    rw [Int.emod_eq_of_lt (by omega) (by omega), min_eq_left (by omega)] at h
    exact_mod_cast h

theorem refl_add_period {c : Nat} (hc : 1 < c) (j : Int) : refl c (j + 2 * (c - 1)) = refl c j := by
  have h := refl_eq_min hc (j + 2 * (c - 1))
  rw [Int.add_emod_right, ← refl_eq_min hc j] at h
  exact_mod_cast h

theorem refl_neg {c : Nat} (hc : 1 < c) (j : Int) : refl c (-j) = refl c j := by
  have h := refl_eq_min hc (-j)
  have h' := refl_eq_min hc j
  have h0 := Int.emod_nonneg j (b := 2 * ((c : Int) - 1)) (by omega)
  have h1 := Int.emod_lt_of_pos j (b := 2 * ((c : Int) - 1)) (by omega)
  simp only [Int.neg_emod, Int.dvd_iff_emod_eq_zero] at h
  split at h <;> omega

/-- A sequence over the integers with the symmetry of an extended row of `c` samples: even, of period `2(c - 1)`. -/
structure RowSymmetric {α : Type} (c : Nat) (F : Int → α) : Prop where
  neg : ∀ j, F (-j) = F j
  period : ∀ j, F (j + 2 * (c - 1)) = F j

section Symmetry

variable {α : Type} {c : Nat} {F : Int → α}

theorem RowSymmetric.emod (h : RowSymmetric c F) (j : Int) : F (j % (2 * (c - 1))) = F j := by
  have hp : Function.Periodic F (2 * ((c : Int) - 1)) := h.period
  rw [Int.emod_def, mul_comm]
  exact hp.sub_int_mul_eq _

/-- Such a sequence may be read at the reflected index. -/
theorem RowSymmetric.apply_refl (h : RowSymmetric c F) (hc : 1 < c) (j : Int) : F (refl c j) = F j := by
  rw [refl_eq_min hc]
  rcases min_choice (j % (2 * ((c : Int) - 1))) (2 * (c - 1) - j % (2 * (c - 1))) with e | e <;> rw [e]
  · exact h.emod j
  · rw [show 2 * ((c : Int) - 1) - j % (2 * (c - 1)) = -(j % (2 * (c - 1))) + 2 * (c - 1) by ring, h.period, h.neg,
      h.emod]

/-- A row of `c` samples extended to every integer (rule R226). -/
def extendRow (c : Nat) (u : Nat → α) (j : Int) : α := u (refl c j)

theorem rowSymmetric_extendRow (hc : 1 < c) (u : Nat → α) : RowSymmetric c (extendRow c u) :=
  ⟨fun j => by rw [extendRow, refl_neg hc, extendRow], fun j => by rw [extendRow, refl_add_period hc, extendRow]⟩

end Symmetry

/-! ### The default filters at every integer -/

/-- `KH1` centred on place `j` of a sequence. -/
noncomputable def analysisLow (F : Int → ℝ) (j : Int) : ℝ :=
  3 / 4 * F j + 1 / 4 * (F (j - 1) + F (j + 1)) - 1 / 8 * (F (j - 2) + F (j + 2))

/-- `KH2` centred on place `j` of a sequence. -/
noncomputable def analysisHigh (F : Int → ℝ) (j : Int) : ℝ := 1 / 2 * F j - 1 / 4 * (F (j - 1) + F (j + 1))

/-- `KG1` centred on place `j` of a sequence. -/
noncomputable def synthesisLow (F : Int → ℝ) (j : Int) : ℝ := F j + 1 / 2 * (F (j - 1) + F (j + 1))

/-- `KG2` centred on place `j` of a sequence. -/
noncomputable def synthesisHigh (F : Int → ℝ) (j : Int) : ℝ :=
  3 / 2 * F j - 1 / 2 * (F (j - 1) + F (j + 1)) - 1 / 4 * (F (j - 2) + F (j + 2))

/-- The places of one parity of a sequence, zero between them. -/
def onParity (q : Int) (F : Int → ℝ) (j : Int) : ℝ := if j % 2 = q then F j else 0

/-- The low band on the even places and the high band on the odd ones give every sample back. -/
theorem synthesis_analysis (F : Int → ℝ) (j : Int) :
    synthesisLow (onParity 0 (analysisLow F)) j + synthesisHigh (onParity 1 (analysisHigh F)) j = F j := by
  rcases Int.emod_two_eq_zero_or_one j with h | h
  · have e1 : (j - 1) % 2 = 1 := by omega
    have e2 : (j + 1) % 2 = 1 := by omega
    have e3 : (j - 2) % 2 = 0 := by omega
    have e4 : (j + 2) % 2 = 0 := by omega
    simp only [synthesisLow, synthesisHigh, onParity, analysisLow, analysisHigh, h, e1, e2, e3, e4, if_true,
      zero_ne_one, one_ne_zero, if_false]
    ring_nf
  · have e1 : (j - 1) % 2 = 0 := by omega
    have e2 : (j + 1) % 2 = 0 := by omega
    have e3 : (j - 2) % 2 = 1 := by omega
    have e4 : (j + 2) % 2 = 1 := by omega
    simp only [synthesisLow, synthesisHigh, onParity, analysisLow, analysisHigh, h, e1, e2, e3, e4, if_true,
      zero_ne_one, one_ne_zero, if_false]
    ring_nf

section Symmetry

variable {c : Nat} {F : Int → ℝ}

theorem RowSymmetric.pair_neg (h : RowSymmetric c F) (k j : Int) : F (-j - k) + F (-j + k) = F (j - k) + F (j + k) := by
  rw [show -j - k = -(j + k) by ring, show -j + k = -(j - k) by ring, h.neg, h.neg, add_comm]

theorem RowSymmetric.pair_period (h : RowSymmetric c F) (k j : Int) :
    F (j + 2 * (c - 1) - k) + F (j + 2 * (c - 1) + k) = F (j - k) + F (j + k) := by
  rw [add_sub_right_comm, add_right_comm, h.period, h.period]

theorem RowSymmetric.analysisLow (h : RowSymmetric c F) : RowSymmetric c (analysisLow F) where
  neg j := by simp only [Machine.analysisLow, h.neg, h.pair_neg]
  period j := by simp only [Machine.analysisLow, h.period, h.pair_period]

theorem RowSymmetric.analysisHigh (h : RowSymmetric c F) : RowSymmetric c (analysisHigh F) where
  neg j := by simp only [Machine.analysisHigh, h.neg, h.pair_neg]
  period j := by simp only [Machine.analysisHigh, h.period, h.pair_period]

theorem RowSymmetric.onParity (h : RowSymmetric c F) (q : Int) : RowSymmetric c (onParity q F) where
  neg j := by
    have e : -j % 2 = j % 2 := by omega
    simp only [Machine.onParity, e, h.neg]
  period j := by
    have e : (j + 2 * (c - 1)) % 2 = j % 2 := by omega
    simp only [Machine.onParity, e, h.period]

end Symmetry

/-! ### The ideal filters are these, on the extended row -/

section Filters

variable (ρ : Nat → ℝ) (c : Nat) (x : Nat → ℝ) (t : Nat)

theorem idealFilter_kh1 : idealFilter ρ kh1 c x t = analysisLow (extendRow c x) t := by
  simp [idealFilter, kh1, romKernel, Finset.sum_range_succ, analysisLow, extendRow]
  ring_nf

theorem idealFilter_kh2 : idealFilter ρ kh2 c x t = analysisHigh (extendRow c x) t := by
  simp [idealFilter, kh2, romKernel, Finset.sum_range_succ, analysisHigh, extendRow]
  ring_nf

theorem idealFilter_kg1 : idealFilter ρ kg1 c x t = synthesisLow (extendRow c x) t := by
  simp [idealFilter, kg1, romKernel, Finset.sum_range_succ, synthesisLow, extendRow]
  ring_nf

theorem idealFilter_kg2 : idealFilter ρ kg2 c x t = synthesisHigh (extendRow c x) t := by
  simp [idealFilter, kg2, romKernel, Finset.sum_range_succ, synthesisHigh, extendRow]
  ring_nf

end Filters

/-- The spread low band of a row is its low-passed sequence on the even places. -/
theorem spread_idealLow (ρ : Nat → ℝ) (c : Nat) (x : Nat → ℝ) (u : Nat) :
    (if u % 2 = 0 then idealLow ρ kh1 c x (u / 2) else 0) = onParity 0 (analysisLow (extendRow c x)) u := by
  unfold onParity
  split
  next h => rw [if_pos (by omega), idealLow, idealFilter_kh1, show 2 * (u / 2) = u by omega]
  next h => rw [if_neg (by omega)]

/-- The spread high band of a row is its high-passed sequence on the odd places. -/
theorem spread_idealHigh (ρ : Nat → ℝ) (c : Nat) (x : Nat → ℝ) (u : Nat) :
    (if u % 2 = 0 then 0 else idealHigh ρ kh2 c x (u / 2)) = onParity 1 (analysisHigh (extendRow c x)) u := by
  unfold onParity
  split
  next h => rw [if_neg (by omega)]
  next h => rw [if_pos (by omega), idealHigh, idealFilter_kh2, show 2 * (u / 2) + 1 = u by omega]

/-- The default pairs reconstruct every row of an even number of samples (rule R234). -/
theorem idealInt_add_idealInt2_default (ρ : Nat → ℝ) {c t : Nat} (x : Nat → ℝ) (hc : c % 2 = 0) (ht : t < c) :
    idealInt ρ kg1 (c / 2) (idealLow ρ kh1 c x) t + idealInt2 ρ kg2 (c / 2) (idealHigh ρ kh2 c x) t = x t := by
  have h1 : 1 < c := by omega
  have sym : RowSymmetric c (extendRow c x) := rowSymmetric_extendRow h1 x
  have low : extendRow c (fun u : Nat => onParity 0 (analysisLow (extendRow c x)) u) =
      onParity 0 (analysisLow (extendRow c x)) := funext ((sym.analysisLow.onParity 0).apply_refl h1)
  have high : extendRow c (fun u : Nat => onParity 1 (analysisHigh (extendRow c x)) u) =
      onParity 1 (analysisHigh (extendRow c x)) := funext ((sym.analysisHigh.onParity 1).apply_refl h1)
  rw [idealInt, idealInt2, show 2 * (c / 2) = c by omega]
  simp only [spread_idealLow, spread_idealHigh]
  rw [idealFilter_kg1, idealFilter_kg2, low, high, synthesis_analysis, extendRow, refl_of_lt ht]

/-! ### Arrays -/

section Arrays

variable (ρ : Nat → ℝ)

/-- One row of `n` samples through the default analysis pair, the low band in the first half. -/
noncomputable def idealDwtRow (n : Nat) (x : Nat → ℝ) (k : Nat) : ℝ :=
  if k < n / 2 then idealLow ρ kh1 n x k else idealHigh ρ kh2 n x (k - n / 2)

/-- One row of `n` samples, its bands in its halves, through the default synthesis pair. -/
noncomputable def idealIdwtRow (n : Nat) (y : Nat → ℝ) (t : Nat) : ℝ :=
  idealInt ρ kg1 (n / 2) y t + idealInt2 ρ kg2 (n / 2) (fun k => y (n / 2 + k)) t

theorem idealDwt_eq_rows (m n : Nat) (x : Nat → Nat → ℝ) (r c : Nat) :
    idealDwt ρ kh1 kh2 m n x r c = idealDwtRow ρ m (fun k => idealDwtRow ρ n (x k) c) r := rfl

theorem idealIdwt_eq_rows (m n : Nat) (y : Nat → Nat → ℝ) (r c : Nat) :
    idealIdwt ρ kg1 kg2 m n y r c = idealIdwtRow ρ n (fun k => idealIdwtRow ρ m (fun a => y a k) r) c := rfl

theorem idealIdwtRow_idealDwtRow {n t : Nat} (hn : n % 2 = 0) (ht : t < n) (x : Nat → ℝ) :
    idealIdwtRow ρ n (idealDwtRow ρ n x) t = x t := by
  rw [← idealInt_add_idealInt2_default ρ x hn ht, idealIdwtRow]
  congr 1
  · exact idealInt_congr ρ kg1 (fun k hk => if_pos hk) (by omega)
  · refine idealInt2_congr ρ kg2 (fun k _ => ?_) (by omega)
    rw [idealDwtRow, if_neg (by omega), Nat.add_sub_cancel_left]

/-- One inverse level undoes one forward level, on every array of even dimensions (rule R174): first every column,
then every row. -/
theorem idealIdwt_idealDwt {m n : Nat} (hm : m % 2 = 0) (hn : n % 2 = 0) (x : Nat → Nat → ℝ) {r c : Nat} (hr : r < m)
    (hc : c < n) : idealIdwt ρ kg1 kg2 m n (idealDwt ρ kh1 kh2 m n x) r c = x r c := by
  simp only [idealIdwt_eq_rows, idealDwt_eq_rows, idealIdwtRow_idealDwtRow ρ hm hr]
  exact idealIdwtRow_idealDwtRow ρ hn hc (x r)

/-- One forward level on the working region of `m` rows and `n` columns (rule R176). -/
noncomputable def idealDwtStep (m n : Nat) (z : Nat → Nat → ℝ) (r c : Nat) : ℝ :=
  if r < m ∧ c < n then idealDwt ρ kh1 kh2 m n z r c else z r c

/-- One inverse level on the working region of `m` rows and `n` columns (rule R179). -/
noncomputable def idealIdwtStep (m n : Nat) (z : Nat → Nat → ℝ) (r c : Nat) : ℝ :=
  if r < m ∧ c < n then idealIdwt ρ kg1 kg2 m n z r c else z r c

theorem idealDwtLevels_succ (l m n : Nat) (z : Nat → Nat → ℝ) :
    idealDwtLevels ρ (l + 1) m n z = idealDwtLevels ρ l (m / 2) (n / 2) (idealDwtStep ρ m n z) := rfl

/-- The levels of the inverse transform, the last one taken out. -/
theorem idealIdwtLevels_succ (l m n : Nat) (z : Nat → Nat → ℝ) :
    idealIdwtLevels ρ (l + 1) m n z =
      idealIdwtStep ρ (2 ^ (l + 1) * m) (2 ^ (l + 1) * n) (idealIdwtLevels ρ l m n z) := by
  induction l generalizing m n z with
  | zero => simp only [zero_add, pow_one]; rfl
  | succ l ih =>
    have e (k : Nat) : 2 ^ (l + 1) * (2 * k) = 2 ^ (l + 1 + 1) * k := by ring
    calc idealIdwtLevels ρ (l + 1 + 1) m n z
        = idealIdwtLevels ρ (l + 1) (2 * m) (2 * n) (idealIdwtStep ρ (2 * m) (2 * n) z) := rfl
      _ = idealIdwtStep ρ (2 ^ (l + 1) * (2 * m)) (2 ^ (l + 1) * (2 * n))
            (idealIdwtLevels ρ l (2 * m) (2 * n) (idealIdwtStep ρ (2 * m) (2 * n) z)) := ih _ _ _
      _ = _ := by rw [e, e]; rfl

theorem idealIdwtStep_idealDwtStep {m n : Nat} (hm : m % 2 = 0) (hn : n % 2 = 0) (z : Nat → Nat → ℝ) :
    idealIdwtStep ρ m n (idealDwtStep ρ m n z) = z := by
  funext r c
  unfold idealIdwtStep
  split
  next h =>
    have region : ∀ a b, a < m → b < n → idealDwtStep ρ m n z a b = idealDwt ρ kh1 kh2 m n z a b :=
      fun a b ha hb => if_pos ⟨ha, hb⟩
    rw [idealIdwt_congr ρ kg1 kg2 hm hn region h.1 h.2]
    exact idealIdwt_idealDwt ρ hm hn z h.1 h.2
  next h => exact if_neg h

/-- The inverse levels undo the forward ones at every depth that divides the working region (rule R180). -/
theorem idealIdwtLevels_idealDwtLevels (l : Nat) {m n : Nat} (hm : 2 ^ l ∣ m) (hn : 2 ^ l ∣ n) (z : Nat → Nat → ℝ) :
    idealIdwtLevels ρ l (m / 2 ^ l) (n / 2 ^ l) (idealDwtLevels ρ l m n z) = z := by
  induction l generalizing m n z with
  | zero => rfl
  | succ l ih =>
    obtain ⟨a, rfl⟩ := hm
    obtain ⟨b, rfl⟩ := hn
    have half (k : Nat) : 2 ^ (l + 1) * k / 2 = 2 ^ l * k := by
      rw [pow_succ', mul_assoc, Nat.mul_div_cancel_left _ two_pos]
    have even (k : Nat) : 2 ^ (l + 1) * k % 2 = 0 := by rw [pow_succ', mul_assoc, Nat.mul_mod_right]
    have inner := ih (Dvd.intro a rfl) (Dvd.intro b rfl) (idealDwtStep ρ (2 ^ (l + 1) * a) (2 ^ (l + 1) * b) z)
    simp only [Nat.mul_div_cancel_left _ (Nat.two_pow_pos _)] at inner ⊢
    rw [idealIdwtLevels_succ, idealDwtLevels_succ, half, half, inner, idealIdwtStep_idealDwtStep ρ (even a) (even b)]

end Arrays

/-! ### Constant arrays -/

section Constant

variable (ρ : Nat → ℝ) (v : ℝ)

theorem idealLow_const (c t : Nat) : idealLow ρ kh1 c (fun _ => v) t = v := by
  rw [idealLow, idealFilter_kh1]; simp only [analysisLow, extendRow]; ring

theorem idealHigh_const (c t : Nat) : idealHigh ρ kh2 c (fun _ => v) t = 0 := by
  rw [idealHigh, idealFilter_kh2]; simp only [analysisHigh, extendRow]; ring

/-- The low-low quadrant of a constant array is that constant and every detail is zero (rule R175). -/
theorem idealDwt_const (m n r c : Nat) :
    idealDwt ρ kh1 kh2 m n (fun _ _ => v) r c = if r < m / 2 ∧ c < n / 2 then v else 0 := by
  have row (k n : Nat) (w : ℝ) : idealDwtRow ρ n (fun _ => w) k = if k < n / 2 then w else 0 := by
    rw [idealDwtRow, idealLow_const, idealHigh_const]
  rw [idealDwt_eq_rows]
  simp only [row, ite_and]

end Constant

end Sys2Proof.Machine

/-! ## The matrices of the builder are orthogonal

Every product of two entries is a sum of two cosines of multiples of a half turn, and such a sum over a row telescopes
(rule R133). -/

namespace Sys2Proof.Machine

/-- `Σ_{k<n} cos((k + 1/2) * θ)`, the sum behind both orthogonality relations. -/
noncomputable def halfCosSum (n : Nat) (θ : ℝ) : ℝ := ∑ k ∈ Finset.range n, Real.cos (((k : ℝ) + 0.5) * θ)

theorem halfCosSum_zero (n : Nat) : halfCosSum n 0 = n := by simp [halfCosSum]

theorem halfCosSum_neg (n : Nat) (θ : ℝ) : halfCosSum n (-θ) = halfCosSum n θ := by
  simp only [halfCosSum, mul_neg, Real.cos_neg]

theorem two_sin_mul_halfCosSum (n : Nat) (θ : ℝ) : 2 * Real.sin (θ / 2) * halfCosSum n θ = Real.sin (n * θ) := by
  induction n with
  | zero => simp [halfCosSum]
  | succ n ih =>
    have step : 2 * Real.sin (θ / 2) * Real.cos (((n : ℝ) + 0.5) * θ) =
        Real.sin ((n + 1 : ℕ) * θ) - Real.sin (n * θ) := by
      rw [Real.sin_sub_sin]
      push_cast
      ring_nf
    rw [halfCosSum, Finset.sum_range_succ, mul_add, step, ← halfCosSum, ih]
    ring

/-- The sum vanishes at every multiple of `π/n` that is no multiple of `2π`. -/
theorem halfCosSum_eq_zero {n m : Nat} (hm : 0 < m) (hmn : m < 2 * n) : halfCosSum n (Real.pi * m / n) = 0 := by
  have hn : (0 : ℝ) < n := by exact_mod_cast (by omega : 0 < n)
  have hsin : 0 < Real.sin (Real.pi * m / n / 2) := by
    have h1 : (0 : ℝ) < m := by exact_mod_cast hm
    have h2 : (m : ℝ) < 2 * n := by exact_mod_cast hmn
    refine Real.sin_pos_of_pos_of_lt_pi (by positivity) ?_
    rw [div_div, div_lt_iff₀ (by positivity)]
    nlinarith [Real.pi_pos]
  have h := two_sin_mul_halfCosSum n (Real.pi * m / n)
  rw [mul_div_cancel₀ _ hn.ne', mul_comm Real.pi (m : ℝ), Real.sin_nat_mul_pi, mul_comm (m : ℝ)] at h
  exact (mul_eq_zero.mp h).resolve_left (mul_pos two_pos hsin).ne'

/-- The sum at an integer multiple of `π/n` of absolute value below `2n`. -/
theorem halfCosSum_int {n : Nat} {z : Int} (hz : |z| < 2 * n) :
    halfCosSum n (Real.pi * z / n) = if z = 0 then (n : ℝ) else 0 := by
  split
  next h => rw [h]; simp [halfCosSum_zero]
  next h =>
    obtain ⟨m, rfl | rfl⟩ := z.eq_nat_or_neg
    · rw [Int.cast_natCast, halfCosSum_eq_zero (by omega) (by simp at hz; omega)]
    · have e : Real.pi * ((-(m : ℤ) : ℤ) : ℝ) / n = -(Real.pi * m / n) := by push_cast; ring
      rw [e, halfCosSum_neg, halfCosSum_eq_zero (by omega) (by simp at hz; omega)]

/-- The inner product of two sampled cosines by the sum and the difference of their frequencies. -/
theorem sum_cos_mul_cos (n : Nat) (p q α β : ℝ) :
    ∑ k ∈ Finset.range n, p * Real.cos (((k : ℝ) + 0.5) * α) * (q * Real.cos (((k : ℝ) + 0.5) * β)) =
      p * q * ((halfCosSum n (α - β) + halfCosSum n (α + β)) / 2) := by
  rw [halfCosSum, halfCosSum, ← Finset.sum_add_distrib, Finset.sum_div, Finset.mul_sum]
  refine Finset.sum_congr rfl fun k _ => ?_
  rw [mul_sub, mul_add, Real.cos_sub, Real.cos_add]
  ring

/-- The DCT-II entry as one cosine in every row, the first row with its own norm. -/
theorem idealDct2_eq (n i k : Nat) : idealDct2 n i k =
    Real.sqrt ((if i = 0 then 1 else 2) / n) * Real.cos (((k : ℝ) + 0.5) * (Real.pi * i / n)) := by
  unfold idealDct2
  split
  next h => simp [h]
  next h => congr 2; ring

theorem idealDct4_eq (n i k : Nat) : idealDct4 n i k =
    Real.sqrt (2 / n) * Real.cos (((k : ℝ) + 0.5) * (Real.pi * ((i : ℝ) + 0.5) / n)) := by
  unfold idealDct4
  congr 2; ring

theorem idealDct2_orthogonal {n a b : Nat} (ha : a < n) (hb : b < n) :
    ∑ k ∈ Finset.range n, idealDct2 n a k * idealDct2 n b k = if a = b then 1 else 0 := by
  have hn : (0 : ℝ) < n := by exact_mod_cast (by omega : 0 < n)
  have hsub : Real.pi * a / n - Real.pi * b / n = Real.pi * ((a - b : ℤ) : ℝ) / n := by push_cast; ring
  have hadd : Real.pi * a / n + Real.pi * b / n = Real.pi * ((a + b : ℤ) : ℝ) / n := by push_cast; ring
  have h1 : |(a : ℤ) - b| < 2 * n := by rw [abs_lt]; omega
  have h2 : |(a : ℤ) + b| < 2 * n := by rw [abs_lt]; omega
  simp only [idealDct2_eq]
  rw [sum_cos_mul_cos, hsub, hadd, halfCosSum_int h1, halfCosSum_int h2]
  have e1 : (a : ℤ) - b = 0 ↔ a = b := by omega
  have e2 : (a : ℤ) + b = 0 ↔ a = 0 ∧ b = 0 := by omega
  simp only [e1, e2]
  by_cases hab : a = b
  · subst hab
    have hs : (0 : ℝ) ≤ (if a = 0 then 1 else 2) / n := by split <;> positivity
    rw [Real.mul_self_sqrt hs]
    by_cases h0 : a = 0
    · simp only [h0, and_self, if_true]; field_simp; norm_num
    · simp only [h0, and_self, if_true, if_false]; field_simp; norm_num
  · have h0 : ¬(a = 0 ∧ b = 0) := by omega
    simp [hab, h0]

theorem idealDct4_orthogonal {n a b : Nat} (ha : a < n) (hb : b < n) :
    ∑ k ∈ Finset.range n, idealDct4 n a k * idealDct4 n b k = if a = b then 1 else 0 := by
  have hn : (0 : ℝ) < n := by exact_mod_cast (by omega : 0 < n)
  have hsub : Real.pi * ((a : ℝ) + 0.5) / n - Real.pi * ((b : ℝ) + 0.5) / n = Real.pi * ((a - b : ℤ) : ℝ) / n := by
    push_cast; ring
  have hadd : Real.pi * ((a : ℝ) + 0.5) / n + Real.pi * ((b : ℝ) + 0.5) / n = Real.pi * ((a + b + 1 : ℤ) : ℝ) / n := by
    push_cast; ring
  have h1 : |(a : ℤ) - b| < 2 * n := by rw [abs_lt]; omega
  have h2 : |(a : ℤ) + b + 1| < 2 * n := by rw [abs_lt]; omega
  simp only [idealDct4_eq]
  rw [sum_cos_mul_cos, hsub, hadd, halfCosSum_int h1, halfCosSum_int h2]
  rw [Real.mul_self_sqrt (by positivity), if_neg (show ¬(a : ℤ) + b + 1 = 0 by omega)]
  by_cases hab : a = b
  · rw [if_pos (by omega), if_pos hab]; field_simp; norm_num
  · rw [if_neg (by omega), if_neg hab]; simp

/-! ### Orthogonal matrices and the block transform -/

/-- The rows of `C` are orthonormal (rule R133). -/
def OrthonormalRows (n : Nat) (C : Nat → Nat → ℝ) : Prop :=
  ∀ a b, a < n → b < n → ∑ k ∈ Finset.range n, C a k * C b k = if a = b then 1 else 0

/-- The top-left `n` rows and columns as a matrix. -/
def squareMatrix (n : Nat) (C : Nat → Nat → ℝ) : Matrix (Fin n) (Fin n) ℝ := Matrix.of fun i j => C i j

/-- A square matrix with orthonormal rows has orthonormal columns. -/
theorem OrthonormalRows.transpose_mul {n : Nat} {C : Nat → Nat → ℝ} (h : OrthonormalRows n C) :
    (squareMatrix n C).transpose * squareMatrix n C = 1 := by
  rw [mul_eq_one_comm]
  ext a b
  simpa [Matrix.mul_apply, Matrix.one_apply, squareMatrix, Finset.sum_range, Fin.ext_iff] using h a b a.isLt b.isLt

end Sys2Proof.Machine

/-! ### The block transform and its inverse -/

namespace Sys2Proof.Machine

/-- `C X C^T` on one block (rule R152). -/
noncomputable def blockTransform (n : Nat) (C X : Nat → Nat → ℝ) (i j : Nat) : ℝ :=
  ∑ k ∈ Finset.range n, ∑ l ∈ Finset.range n, C i k * X k l * C j l

theorem squareMatrix_blockTransform (n : Nat) (C X : Nat → Nat → ℝ) :
    squareMatrix n (blockTransform n C X) = squareMatrix n C * squareMatrix n X * (squareMatrix n C).transpose := by
  ext i j
  simp only [squareMatrix, blockTransform, Matrix.mul_apply, Matrix.of_apply, Matrix.transpose_apply,
    Finset.sum_range, Finset.sum_mul]
  exact Finset.sum_comm

/-- An orthogonal `C` is undone by its transpose on both sides (rule R154). -/
theorem blockTransform_inverse {n : Nat} {C : Nat → Nat → ℝ} (h : OrthonormalRows n C) (X : Nat → Nat → ℝ) {i j : Nat}
    (hi : i < n) (hj : j < n) : blockTransform n (fun a k => C k a) (blockTransform n C X) i j = X i j := by
  have hC : (squareMatrix n C).transpose * squareMatrix n C = 1 := h.transpose_mul
  have hT : squareMatrix n (fun a k => C k a) = (squareMatrix n C).transpose := rfl
  have e : squareMatrix n (blockTransform n (fun a k => C k a) (blockTransform n C X)) = squareMatrix n X := by
    rw [squareMatrix_blockTransform, squareMatrix_blockTransform, hT, Matrix.transpose_transpose]
    calc (squareMatrix n C).transpose * (squareMatrix n C * squareMatrix n X * (squareMatrix n C).transpose) *
          squareMatrix n C
        = ((squareMatrix n C).transpose * squareMatrix n C) * squareMatrix n X *
          ((squareMatrix n C).transpose * squareMatrix n C) := by simp only [Matrix.mul_assoc]
      _ = squareMatrix n X := by rw [hC, Matrix.one_mul, Matrix.mul_one]
  exact congrFun (congrFun e ⟨i, hi⟩) ⟨j, hj⟩

/-- A block's transform reads the matrix and the array inside the block only. -/
theorem blockTransform_congr {n : Nat} {C C' X X' : Nat → Nat → ℝ} (hC : ∀ a k, a < n → k < n → C a k = C' a k)
    (hX : ∀ a k, a < n → k < n → X a k = X' a k) {i j : Nat} (hi : i < n) (hj : j < n) :
    blockTransform n C X i j = blockTransform n C' X' i j := by
  refine Finset.sum_congr rfl fun k hk => Finset.sum_congr rfl fun l hl => ?_
  have hk := Finset.mem_range.mp hk
  have hl := Finset.mem_range.mp hl
  rw [hC i k hi hk, hC j l hj hl, hX k l hk hl]

section Dct

variable (ρ : Nat → ℝ) {x : Arr} {n p q i j : Nat}

/-- `DCT` on one block (rules R151, R152). -/
theorem val_dct (hr : x.rows % n = 0) (hc : x.cols % n = 0) (hp : p < x.rows / n) (hq : q < x.cols / n) (hi : i < n)
    (hj : j < n) : (dct .reals x n).val ρ (p * n + i) (q * n + j) =
      blockTransform n (idealDct2 n) (fun k l => x.val ρ (p * n + k) (q * n + l)) i j := by
  rw [dct, val_separable ρ (by simp [dct2Matrix]) hr hc hp hq hi hj]
  exact blockTransform_congr (fun a k ha hk => val_dct2Matrix ρ ha hk) (fun _ _ _ _ => rfl) hi hj

/-- `IDCT` on one block (rule R153). -/
theorem val_idct (hr : x.rows % n = 0) (hc : x.cols % n = 0) (hp : p < x.rows / n) (hq : q < x.cols / n) (hi : i < n)
    (hj : j < n) : (idct .reals x n).val ρ (p * n + i) (q * n + j) =
      blockTransform n (fun a k => idealDct2 n k a) (fun k l => x.val ρ (p * n + k) (q * n + l)) i j := by
  rw [idct, val_separable ρ (by simp [dct2Matrix]) hr hc hp hq hi hj]
  refine blockTransform_congr (fun a k ha hk => ?_) (fun _ _ _ _ => rfl) hi hj
  rw [val_transpose ρ (by simpa [dct2Matrix] using hk) (by simpa [dct2Matrix] using ha), val_dct2Matrix ρ hk ha]

/-- A cell in range is a cell of a block. -/
theorem exists_block {m n r : Nat} (hm : m % n = 0) (hr : r < m) (hn : n ≠ 0) :
    ∃ p i, p < m / n ∧ i < n ∧ r = p * n + i :=
  ⟨r / n, r % n, Nat.div_lt_div_of_lt_of_dvd (Nat.dvd_of_mod_eq_zero hm) hr, Nat.mod_lt _ (by omega),
    (Nat.div_add_mod' r n).symm⟩

/-- `IDCT` undoes `DCT` (rule R154). -/
theorem val_idct_dct (hn : n ≠ 0) (hr : x.rows % n = 0) (hc : x.cols % n = 0) {r c : Nat} (h1 : r < x.rows)
    (h2 : c < x.cols) : (idct .reals (dct .reals x n) n).val ρ r c = x.val ρ r c := by
  obtain ⟨p, i, hp, hi, rfl⟩ := exists_block hr h1 hn
  obtain ⟨q, j, hq, hj, rfl⟩ := exists_block hc h2 hn
  have orth : OrthonormalRows n (idealDct2 n) := fun _ _ => idealDct2_orthogonal
  rw [val_idct ρ (x := dct .reals x n) hr hc hp hq hi hj]
  rw [← blockTransform_inverse orth (fun k l => x.val ρ (p * n + k) (q * n + l)) hi hj]
  exact blockTransform_congr (fun _ _ _ _ => rfl) (fun k l hk hl => val_dct ρ hr hc hp hq hk hl) hi hj

end Dct

end Sys2Proof.Machine

/-! ## The cost of arrays whose cells are all equal -/

namespace Sys2Proof

/-- Cells that share one bin cost nothing (rule R217). -/
theorem idealEntropy_eq_zero {bins : List ℤ} {b : ℤ} (h : ∀ a ∈ bins, a = b) : idealEntropy bins = 0 := by
  rw [idealEntropy, neg_eq_zero]
  refine Finset.sum_eq_zero fun a ha => ?_
  have ha : a ∈ bins := List.mem_toFinset.mp ha
  have hne : (bins.length : ℝ) ≠ 0 := by
    exact_mod_cast (List.length_pos_of_mem ha).ne'
  have hcount : bins.count a = bins.length := List.count_eq_length.mpr fun c hc => (h a ha).trans (h c hc).symm
  rw [hcount, div_self hne, Real.logb_one, mul_zero]

/-- Cells with one real number cost nothing under every binning (rule R217). -/
theorem val_bpp_eq_zero (ρ : Nat → ℝ) (bin : BinRule) {x : Arr} {v : ℝ} (h : ∀ a ∈ x.toList, a.val ρ = v) :
    (x.bpp .reals bin).val ρ = 0 := by
  rw [Arr.bpp, val_bitsPerPixel, idealBpp]
  refine idealEntropy_eq_zero (b := bin.binVal .reals v) fun b hb => ?_
  obtain ⟨a, ha, rfl⟩ := List.mem_map.mp hb
  rw [idealBinOf, h a ha]

@[simp] theorem Arr.get_zeros (m n r c : Nat) : (Arr.zeros m n).get r c = NUM.zero := by
  by_cases hr : r < m
  · by_cases hc : c < n
    · exact Arr.get_ofFn _ hr hc
    · simp [Arr.get, Arr.zeros, Arr.ofFn, List.getD_eq_getElem?_getD, hr, hc]
  · simp [Arr.get, Arr.zeros, Arr.ofFn, List.getD_eq_getElem?_getD, hr]

theorem Arr.sub_zeros (m n r0 c0 a b : Nat) : (Arr.zeros m n).sub r0 c0 a b = Arr.zeros a b := by
  simp only [Arr.sub, Arr.get_zeros]; rfl

theorem Machine.regroup_zeros (m n n1 n2 : Nat) : Machine.regroup (Arr.zeros m n) n1 n2 = Arr.zeros m n := by
  simp only [Machine.regroup, Arr.get_zeros]; rfl

theorem Arr.mem_toList_zeros {m n : Nat} {a : NUM} (h : a ∈ (Arr.zeros m n).toList) : a = NUM.zero := by
  simp only [Arr.toList, Arr.zeros, Arr.ofFn, List.map_const', List.mem_flatten, List.mem_replicate] at h
  obtain ⟨row, ⟨_, rfl⟩, ha⟩ := h
  exact List.eq_of_mem_replicate ha

namespace Machine

variable (ρ : Nat → ℝ)

/-- `DCTBPP` of a regrouped zero array (property P7). -/
theorem val_dctBitCost_zeros (bin : BinRule) (m n1 n2 n : Nat) :
    (dctBitCost .reals bin (regroup (Arr.zeros m m) n1 n2) n).val ρ = 0 := by
  rw [regroup_zeros, dctBitCost]
  simp only [Arr.sub_zeros]
  rw [NumFormat.total_reals, NUM.val_sum]
  refine Finset.sum_eq_zero fun t _ => ?_
  have h (a b : Nat) : ((Arr.zeros a b).bpp .reals bin).val ρ = 0 :=
    val_bpp_eq_zero ρ bin fun _ ha => (congrArg (NUM.val ρ) (Arr.mem_toList_zeros ha)).trans (NUM.val_zero ρ)
  rw [NumFormat.times_reals, NUM.val_times, h, zero_mul]

/-- `DCT` of a zero array (property P7). -/
theorem val_dct_zeros {m n r c : Nat} (hn : n ≠ 0) (hm : m % n = 0) (hr : r < m) (hc : c < m) :
    (dct .reals (Arr.zeros m m) n).val ρ r c = 0 := by
  obtain ⟨p, i, hp, hi, rfl⟩ := exists_block hm hr hn
  obtain ⟨q, j, hq, hj, rfl⟩ := exists_block hm hc hn
  rw [val_dct ρ (x := Arr.zeros m m) hm hm hp hq hi hj]
  simp [blockTransform, Arr.val]

/-! ## The transforms of the DWT engine over the reals -/

/-- `IDWT` undoes `DWT` with the default kernels (rule R174). -/
theorem val_idwt_dwt {x : Arr} (hr : x.rows % 2 = 0) (hc : x.cols % 2 = 0) {r c : Nat} (h1 : r < x.rows)
    (h2 : c < x.cols) : (idwt .reals (dwt .reals x kh1 kh2) kg1 kg2).val ρ r c = x.val ρ r c := by
  have er : x.rows / 2 + x.rows / 2 = x.rows := by omega
  have ec : x.cols / 2 + x.cols / 2 = x.cols := by omega
  rw [val_idwt ρ kg1 kg2 (by simpa [er] using hr) (by simpa [ec] using hc) (by simpa [er] using h1)
    (by simpa [ec] using h2), rows_dwt, cols_dwt, er, ec, ← idealIdwt_idealDwt ρ hr hc (x.val ρ) h1 h2]
  exact idealIdwt_congr ρ kg1 kg2 hr hc (fun a b ha hb => val_dwt ρ kh1 kh2 (by omega) (by omega)) h1 h2

/-- `NLEVIDWT` undoes `NLEVDWT` at every depth that divides the array (rule R180). -/
theorem val_nlevidwt_nlevdwt {x : Arr} {n : Nat} (hr : x.rows % 2 ^ n = 0) (hc : x.cols % 2 ^ n = 0) {r c : Nat}
    (h1 : r < x.rows) (h2 : c < x.cols) :
    (nlevidwt .reals (nlevdwt .reals x n) n).val ρ r c = x.val ρ r c := by
  have fwd (a b : Nat) (ha : a < x.rows) (hb : b < x.cols) : (nlevdwt .reals x n).val ρ a b =
      idealDwtLevels ρ n x.rows x.cols (x.val ρ) a b :=
    val_dwtLevels ρ n (x.val ρ) hr hc le_rfl le_rfl (fun _ _ _ _ => rfl) ha hb
  have rows : (nlevdwt .reals x n).rows = x.rows := rows_dwtLevels ..
  have cols : (nlevdwt .reals x n).cols = x.cols := cols_dwtLevels ..
  rw [nlevidwt, rows, cols, val_idwtLevels ρ n (idealDwtLevels ρ n x.rows x.cols (x.val ρ))
      (by rw [rows]; exact Nat.div_mul_le_self _ _) (by rw [cols]; exact Nat.div_mul_le_self _ _)
      (by rw [rows, cols]; exact fwd) (by rwa [rows]) (by rwa [cols]),
    idealIdwtLevels_idealDwtLevels ρ n (Nat.dvd_of_mod_eq_zero hr) (Nat.dvd_of_mod_eq_zero hc)]

/-- `DWT` of a constant array with the default kernels (rule R175). -/
theorem val_dwt_const {x : Arr} {v : ℝ} (hr : x.rows % 2 = 0) (hc : x.cols % 2 = 0)
    (hx : ∀ a b, a < x.rows → b < x.cols → x.val ρ a b = v) {r c : Nat} (h1 : r < x.rows) (h2 : c < x.cols) :
    (dwt .reals x kh1 kh2).val ρ r c = if r < x.rows / 2 ∧ c < x.cols / 2 then v else 0 := by
  rw [val_dwt ρ kh1 kh2 (by omega) (by omega), ← idealDwt_const ρ v]
  exact idealDwt_congr ρ kh1 kh2 (by omega) (by omega) hx r c

/-- The rows of both builders' matrices are orthonormal (property P1, rule R133). -/
theorem builder_orthogonal {n a b : Nat} (ha : a < n) (hb : b < n) {m : Arr}
    (hm : m ∈ [dct2Matrix .reals n, dct4Matrix .reals n]) :
    ∑ k ∈ Finset.range n, m.val ρ a k * m.val ρ b k = if a = b then 1 else 0 := by
  rcases List.mem_pair.mp hm with rfl | rfl
  · rw [← idealDct2_orthogonal ha hb]
    refine Finset.sum_congr rfl fun k hk => ?_
    rw [val_dct2Matrix ρ ha (Finset.mem_range.mp hk), val_dct2Matrix ρ hb (Finset.mem_range.mp hk)]
  · rw [← idealDct4_orthogonal ha hb]
    refine Finset.sum_congr rfl fun k hk => ?_
    rw [val_dct4Matrix ρ ha (Finset.mem_range.mp hk), val_dct4Matrix ρ hb (Finset.mem_range.mp hk)]

end Machine

end Sys2Proof

section

open Sys2Proof Sys2Proof.Machine

/-- Settles O59: over the reals "near" is equality, and each property is an identity of the ideal results. -/
theorem realsMeetTheSourceProperties : Obligations.RealsMeetTheSourceProperties := by
  unfold Obligations.RealsMeetTheSourceProperties
  intro c hc
  constructor <;> simp only [near_reals hc, hc]
  case orthogonal => exact fun ρ n a b _ ha hb m hm => builder_orthogonal ρ ha hb hm
  case blockRoundTrip => exact fun ρ x n r k hn hr hk h1 h2 => val_idct_dct ρ hn hr hk h1 h2
  case dwtRoundTrip => exact fun ρ x r k hr hk h1 h2 => val_idwt_dwt ρ hr hk h1 h2
  case levelsRoundTrip =>
    intro ρ x n r k hr hk hn h1 h2
    exact val_nlevidwt_nlevdwt ρ (hr ▸ hn) (hk ▸ hn) (hr ▸ h1) (hk ▸ h2)
  case zeroCost =>
    exact fun ρ => ⟨fun r k hr hk => val_dct_zeros ρ (by decide) (by decide) hr hk,
      val_dctBitCost_zeros ρ c.bin 256 8 8 8⟩
  case constantDetail =>
    intro ρ x v hr hk hx r k h1 h2 hdetail
    rw [val_dwt_const ρ (v := v) (by omega) (by omega) (by rwa [hr, hk]) (by omega) (by omega), if_neg (by omega)]

end

/-! ## The host's view of the state

A field of a register is read through `bits`, a quotient and a remainder of the word, so every claim about a field is
one of arithmetic. A register's access is a value and a state, the same by number and over the bus. -/

namespace Sys2Proof

/-! ### Words -/

theorem bits_eq (w : Word) (lo len : Nat) : bits w lo len = w.toNat / 2 ^ lo % 2 ^ len := by
  simp [bits, Nat.shiftRight_eq_div_pow]

theorem bits_ofNat {n : Nat} (lo len : Nat) (h : n < 2 ^ 32) :
    bits (BitVec.ofNat 32 n) lo len = n / 2 ^ lo % 2 ^ len := by
  rw [bits_eq, BitVec.toNat_ofNat, Nat.mod_eq_of_lt h]

theorem regField_zero_val (w : Word) : (regField w 0).val = w.toNat % 8 := by simp [regField]

/-- A word below some bound steps without wrapping (rules R43, R47). -/
theorem toNat_succ {w : Word} {n : Nat} (h : w.toNat < n) (hn : n < 2 ^ 32) : (w + 1#32).toNat = w.toNat + 1 :=
  BitVec.toNat_add_of_lt (Nat.lt_of_le_of_lt h hn)

theorem tableWord_toNat (w : Word) : tableWord 32 w.toNat = w := by simp [tableWord, Nat.mod_eq_of_lt w.isLt]

theorem extract_low {v : Nat} (hi : BitVec v) (lo : Byte) : (hi ++ lo).extractLsb' 0 8 = lo := by
  rw [BitVec.extractLsb'_append_eq_of_add_le le_rfl, BitVec.extractLsb'_eq_self]

theorem extract_high {v k : Nat} (hi : BitVec v) (lo : Byte) :
    (hi ++ lo).extractLsb' (k + 8) 8 = hi.extractLsb' k 8 := by
  rw [BitVec.extractLsb'_append_eq_of_le (Nat.le_add_left 8 k), Nat.add_sub_cancel]

theorem bytesOfWord_append (b0 b1 b2 b3 : Byte) : bytesOfWord (b3 ++ b2 ++ b1 ++ b0) = [b0, b1, b2, b3] := by
  have h1 : (b3 ++ b2 ++ b1 ++ b0).extractLsb' 8 8 = b1 := (extract_high _ _).trans (extract_low _ _)
  have h2 : (b3 ++ b2 ++ b1 ++ b0).extractLsb' 16 8 = b2 :=
    (extract_high _ _).trans ((extract_high _ _).trans (extract_low _ _))
  have h3 : (b3 ++ b2 ++ b1 ++ b0).extractLsb' 24 8 = b3 :=
    (extract_high _ _).trans ((extract_high _ _).trans ((extract_high _ _).trans b3.extractLsb'_eq_self))
  rw [bytesOfWord, h1, h2, h3, extract_low]

theorem wordOfBytes_bytesOfWord (w : Word) : wordOfBytes (bytesOfWord w) = some w := by
  rw [bytesOfWord, wordOfBytes, BitVec.extractLsb'_append_extractLsb'_eq_extractLsb' (by rfl),
    BitVec.extractLsb'_append_extractLsb'_eq_extractLsb' (by rfl),
    BitVec.extractLsb'_append_extractLsb'_eq_extractLsb' (by rfl), BitVec.extractLsb'_eq_self]

theorem eq_bytesOfWord {bs : List Byte} {w : Word} (h : wordOfBytes bs = some w) : bs = bytesOfWord w := by
  unfold wordOfBytes at h
  split at h
  next b0 b1 b2 b3 => cases h; exact (bytesOfWord_append b0 b1 b2 b3).symm
  next => cases h

end Sys2Proof

namespace Sys2Proof.Machine

variable {s t : State}

/-! ### The registers by number -/

theorem hostReg_isNum {n : Fin 32} : (hostReg n).isNum = true ↔ n = 12 ∨ n = 16 ∨ n = 19 := by revert n; decide

theorem hostReg_isNum_false {n : Fin 32} (h1 : n ≠ 12) (h2 : n ≠ 16) (h3 : n ≠ 19) : (hostReg n).isNum = false :=
  Bool.eq_false_iff.mpr fun h => (hostReg_isNum.mp h).elim h1 fun h => h.elim h2 h3

theorem hostReg_eq_cmd {n : Fin 32} : hostReg n = .cmd ↔ n = 3 := by revert n; decide

theorem hostReg_eq_sticky {n : Fin 32} : hostReg n = .sticky ↔ n = 5 := by revert n; decide

theorem hostReg_eq_reserved {n : Fin 32} : hostReg n = .reserved ↔ 20 ≤ n.val := by revert n; decide

/-! ### Accesses by number -/

theorem regRead_reserved {n : Fin 32} (h : hostReg n = .reserved) : s.regRead n = (.word 0#32, s.hostErr) := by
  simp [State.regRead, h, HostReg.isNum]

theorem exists_regRead_word {n : Fin 32} (h : (hostReg n).isNum = false) : ∃ w t, s.regRead n = (.word w, t) := by
  simp only [State.regRead, h]
  split
  · contradiction
  · split <;> exact ⟨_, _, rfl⟩

theorem regRead_num {n : Fin 32} {x : NUM} (h : (hostReg n).isNum = true) (hr : s.readNum (hostReg n) = (x, t)) :
    s.regRead n = (.num x, t) := by simp [State.regRead, h, hr]

theorem regWrite_word {n : Fin 32} (w : Word) (h : (hostReg n).isNum = false) (hc : hostReg n ≠ .cmd) :
    s.regWrite n (.word w) = .next (s.writeWord (hostReg n) w) := by simp [State.regWrite, h, hc]

theorem regWrite_num {n : Fin 32} (x : NUM) (h : (hostReg n).isNum = true) :
    s.regWrite n (.num x) = .next (s.writeNum (hostReg n) x) := by simp [State.regWrite, h]

theorem improper_hostErr (s : State) : Improper s s.hostErr := ⟨rfl, rfl⟩

theorem failed_takeError (s : State) (e : ErrCode) (w : Word) : Failed e w s (s.takeError e w) := by
  constructor <;> rfl

theorem issue_of_ok {w : Word} {i : Instr} (h : decode w = .ok i) : s.issue w = exec i s := by
  simp only [State.issue, h]

theorem issue_of_error {w : Word} {r : Rejection} (h : decode w = .error r) :
    s.issue w = .next (s.takeError .illegal w) := by simp only [State.issue, h]

theorem exists_exec (i : Instr) (s : State) : ∃ t, exec i s = .next t := by
  rcases exec_cases i s with ⟨t, _, h⟩ | ⟨e, _, h⟩ <;> exact ⟨_, h⟩

theorem exists_issue (s : State) (w : Word) : ∃ t, s.issue w = .next t := by
  cases h : decode w with
  | ok i => rw [issue_of_ok h]; exact exists_exec i s
  | error r => exact ⟨_, issue_of_error h⟩

theorem exists_regWrite_word {n : Fin 32} (s : State) (w : Word) (h : (hostReg n).isNum = false) :
    ∃ t, s.regWrite n (.word w) = .next t := by
  by_cases hc : hostReg n = .cmd
  · rw [hostReg_eq_cmd.mp hc]; exact exists_issue s w
  · exact ⟨_, regWrite_word w h hc⟩

/-! ### Accesses over the bus -/

theorem busReg_whole {n : Fin 32} (h : (hostReg n).isNum = false) : busReg (4 * n.val) 4 = .ok n := by
  have e : 4 * n.val / 4 = n.val := by omega
  simp only [busReg, e, n.isLt, h]
  simp

theorem busReg_partial {offset size : Nat} (h : offset < 128) (hp : offset % 4 ≠ 0 ∨ size ≠ 4) :
    busReg offset size = .error (.refused .partialAccess) := by
  have e : offset / 4 < 32 := by omega
  simp only [busReg, e, hp, dif_pos, if_pos]

/-- Only a whole 32-bit register is reached over the bus (rule R63). -/
theorem busReg_ok {offset size : Nat} {n : Fin 32} (h : busReg offset size = .ok n) : offset = 4 * n.val := by
  unfold busReg at h
  split at h
  · split at h
    · cases h
    next hp => split at h <;> cases h; simp only; omega
  · cases h

theorem doBusRead_word {n : Fin 32} {w : Word} (h : (hostReg n).isNum = false) (hr : s.regRead n = (.word w, t)) :
    s.doBusRead (4 * n.val) 4 = .next { t with replies := .bytes (bytesOfWord w) :: t.replies } := by
  simp only [State.doBusRead, busReg_whole h, hr]

theorem doBusWrite_word {n : Fin 32} (w : Word) (h : (hostReg n).isNum = false) :
    s.doBusWrite (4 * n.val) (bytesOfWord w) = s.regWrite n (.word w) := by
  have e : (bytesOfWord w).length = 4 := rfl
  simp only [State.doBusWrite, e, busReg_whole h, wordOfBytes_bytesOfWord]

/-- A bus write that answers a next state is the write of a register. -/
theorem doBusWrite_inv {offset : Nat} {bs : List Byte} (h : s.doBusWrite offset bs = .next t) :
    ∃ n w, offset = 4 * n.val ∧ bs = bytesOfWord w ∧ s.regWrite n (.word w) = .next t := by
  unfold State.doBusWrite at h
  split at h
  next o ho => exact absurd h (busReg_error ho)
  next n hn =>
    split at h
    next w hw => exact ⟨n, w, busReg_ok hn, eq_bytesOfWord hw, h⟩
    next => cases h

/-! ### Bits of STICKY that stay set -/

/-- Every bit of `STICKY` that is set in `s` is set in `t`. -/
def KeepsSticky (s t : State) : Prop := ∀ b, s.sticky.getLsbD b = true → t.sticky.getLsbD b = true

theorem KeepsSticky.of_eq (h : t.sticky = s.sticky) : KeepsSticky s t := fun b hb => by rwa [h]

theorem KeepsSticky.of_setSticky {c : Nat} (h : t.sticky = setSticky s.sticky c) : KeepsSticky s t := fun b hb => by
  simp [h, setSticky, hb]

theorem KeepsSticky.hostErr (s : State) : KeepsSticky s s.hostErr := .of_setSticky s.hostErr_sticky

theorem Writes.sticky {i : Instr} (h : Writes i s t) : t.sticky = s.sticky := by
  induction h with
  | nothing => rfl
  | free _ _ ih | buf _ _ _ ih | scal _ _ ih => exact ih

theorem exec_keepsSticky {i : Instr} (h : exec i s = .next t) : KeepsSticky s t := by
  rcases exec_cases i s with ⟨u, hu, he⟩ | ⟨e, _, he⟩
  · cases he.symm.trans h; exact .of_eq hu.sticky
  · cases he.symm.trans h; exact .of_setSticky (s.takeError_sticky e _)

theorem issue_keepsSticky {w : Word} (h : s.issue w = .next t) : KeepsSticky s t := by
  cases hd : decode w with
  | ok i => exact exec_keepsSticky ((issue_of_ok hd).symm.trans h)
  | error r => cases (issue_of_error hd).symm.trans h; exact .of_setSticky (s.takeError_sticky .illegal w)

theorem readNum_keepsSticky (s : State) (r : HostReg) : KeepsSticky s (s.readNum r).2 := by
  unfold State.readNum
  split
  · split
    · exact .of_eq rfl
    · exact .hostErr s
  · split
    · exact .of_eq rfl
    · exact .hostErr s
  · split
    · exact .of_eq rfl
    · exact .hostErr s
  · exact .of_eq rfl

theorem regRead_keepsSticky (s : State) (n : Fin 32) : KeepsSticky s (s.regRead n).2 := by
  unfold State.regRead
  dsimp only
  split
  · exact readNum_keepsSticky s _
  · split
    · exact .hostErr s
    · exact .of_eq rfl

theorem writeWord_keepsSticky (s : State) {r : HostReg} (hr : r ≠ .sticky) (v : Word) :
    KeepsSticky s (s.writeWord r v) := by
  cases r with
  | sticky => contradiction
  | imgsize =>
    simp only [State.writeWord, State.writeImgSize]
    split
    · exact .of_eq rfl
    · exact .hostErr s
  | bshape =>
    simp only [State.writeWord, State.writeBShape]
    split
    · exact .of_eq rfl
    · exact .hostErr s
  | klen =>
    simp only [State.writeWord, State.writeKLen]
    split
    · exact .of_eq (s.setKern_sticky s.kSel _)
    · exact .hostErr s
  | id | cap | maxdim | status | errinfo | bvalid | svalid | reserved => exact .hostErr s
  | bsel | caddr | ksel | kaddr | ssel | cmd | cdata | kdata | sdata => exact .of_eq rfl

theorem writeNum_keepsSticky (s : State) (r : HostReg) (v : NUM) : KeepsSticky s (s.writeNum r v) := by
  unfold State.writeNum
  split
  · split
    · exact .of_eq rfl
    · exact .hostErr s
  · split
    · exact .of_eq (s.setKern_sticky s.kSel _)
    · exact .hostErr s
  · exact .of_eq rfl
  · exact .of_eq rfl

/-- A register write keeps the bits that are set, or it is a write of `STICKY` that clears the bits written as 1. -/
theorem regWrite_sticky {n : Fin 32} {v : HostVal} (h : s.regWrite n v = .next t) :
    KeepsSticky s t ∨ ∃ w, n = 5 ∧ v = .word w ∧ t.sticky = clearSticky s.sticky w := by
  unfold State.regWrite at h
  cases v with
  | word w =>
    dsimp only at h
    split at h
    · exact .inl (issue_keepsSticky h)
    · split at h
      · cases h
      · cases h
        by_cases hr : hostReg n = .sticky
        · exact .inr ⟨w, hostReg_eq_sticky.mp hr, rfl, by rw [hr]; rfl⟩
        · exact .inl (writeWord_keepsSticky s hr w)
  | num x =>
    dsimp only at h
    split at h
    · cases h; exact .inl (writeNum_keepsSticky s _ x)
    · cases h

theorem getLsbD_clearSticky (w v : Word) {b : Nat} (hb : b < 32) :
    (clearSticky w v).getLsbD b = (w.getLsbD b && !v.getLsbD b) := by
  simp [clearSticky, hb]

theorem getLsbD_of_clearSticky {w v : Word} {b : Nat} (hw : w.getLsbD b = true) :
    (clearSticky w v).getLsbD b = true ∨ v.getLsbD b = true := by
  rw [getLsbD_clearSticky w v (BitVec.lt_of_getLsbD hw), hw]
  cases v.getLsbD b <;> simp

/-- Every host action but reset keeps the bits that are set, or writes `STICKY`, by number or over the bus. -/
theorem perform_sticky {a : HostAction} (ha : a ≠ .reset) (h : s.perform a = .next t) :
    KeepsSticky s t ∨ ∃ w, (a = .write 5 (.word w) ∨ a = .busWrite 20 (bytesOfWord w)) ∧
      t.sticky = clearSticky s.sticky w := by
  cases a with
  | read n => cases h; exact .inl (regRead_keepsSticky s n)
  | write n v =>
    rcases regWrite_sticky h with hk | ⟨w, rfl, rfl, ht⟩
    · exact .inl hk
    · exact .inr ⟨w, .inl rfl, ht⟩
  | busRead offset size =>
    refine .inl ?_
    simp only [State.perform, State.doBusRead] at h
    split at h
    next o ho => exact absurd h (busReg_error ho)
    next n hn =>
      have hk := regRead_keepsSticky s n
      split at h
      next w u hu => rw [hu] at hk; cases h; exact hk
      next => cases h
  | busWrite offset bs =>
    obtain ⟨n, w, rfl, rfl, hw⟩ := doBusWrite_inv h
    rcases regWrite_sticky hw with hk | ⟨w', rfl, hv, ht⟩
    · exact .inl hk
    · cases hv; exact .inr ⟨w, .inr rfl, ht⟩
  | reset => contradiction

/-! ### Views -/

theorem validMask_lt {α : Type} (v : List (Option α)) : validMask v < 2 ^ v.length := by
  induction v with
  | nil => simp [validMask]
  | cons o os ih =>
    rw [validMask, List.length_cons, pow_succ]
    split <;> omega

theorem testBit_validMask {α : Type} (v : List (Option α)) (b : Nat) :
    (validMask v).testBit b = (v.getD b none).isSome := by
  induction v generalizing b with
  | nil => simp [validMask]
  | cons o os ih =>
    have hbit : validMask (o :: os) = Nat.bit o.isSome (validMask os) := by
      rw [validMask, Nat.bit_val, Nat.add_comm]; cases o <;> rfl
    rw [hbit]
    cases b with
    | zero => simp
    | succ b => rw [Nat.testBit_bit_succ, ih, List.getD_cons_succ]

/-- The view of eight valid bits (rules R41, R48). -/
theorem validWord_bits {α : Type} (v : Vector (Option α) 8) :
    (∀ b : RegIx, (BitVec.ofNat 32 (validMask v.toList)).getLsbD b.val = (v.get b).isSome) ∧
      bits (BitVec.ofNat 32 (validMask v.toList)) 8 24 = 0 := by
  have hlt : validMask v.toList < 256 := by simpa using validMask_lt v.toList
  constructor
  · intro b
    have hb : b.val < 32 := by omega
    rw [BitVec.getLsbD_ofNat, testBit_validMask, List.getD_eq_getElem?_getD]
    simp [hb, Vector.get_eq_getElem]
  · rw [bits_ofNat _ _ (by omega)]; omega

theorem bits_statusWord (e : ErrCode) : bits (statusWord e) 0 4 = e.code ∧ bits (statusWord e) 4 28 = 0 := by
  cases e <;> decide

/-! ### Frames of the host's writes -/

theorem Frame.of_succeed {bs js : List RegIx} (h : Frame bs js s t.succeed) : Frame bs js s t := { h with }

theorem frame_setBuf (s : State) (b : RegIx) (x : Arr) : Frame [b] [] s (s.setBuf b x) :=
  (done_setBuf s b x).2.of_succeed

theorem frame_setScal (s : State) (j : RegIx) (v : NUM) : Frame [] [j] s (s.setScal j v) :=
  (done_setScal s j v).2.of_succeed

/-- The write of a kernel register changes no field but the kernels (rule R25). -/
theorem setKern_restore (s : State) (j : RegIx) (h : List NUM) :
    { s.setKern j h with kernels := s.kernels, kAddr := s.kAddr } = s := by
  unfold State.setKern; split <;> rfl

theorem kern_setKern_self (s : State) {j : RegIx} (h : List NUM) (hj : 4 ≤ j.val) : (s.setKern j h).kern j = h := by
  rw [State.kern_setKern, if_pos ⟨rfl, hj⟩]

theorem kern_setKern_ne (s : State) {j j' : RegIx} (h : List NUM) (hj : j' ≠ j) :
    (s.setKern j h).kern j' = s.kern j' := by
  rw [State.kern_setKern, if_neg fun hh => hj hh.1]

/-! ### The cell that CDATA addresses -/

theorem portCell_of_cell {x : Arr} {r c : Nat} (hx : s.buf s.bSel = some x) (hr : r < x.rows) (hc : c < x.cols)
    (ha : s.cAddr.toNat = r * x.cols + c) : s.portCell = some (x, r, c) := by
  have hlt : r * x.cols + c < x.rows * x.cols := by nlinarith
  have hdiv : (r * x.cols + c) / x.cols = r := by
    rw [Nat.mul_comm, Nat.mul_add_div (by omega), Nat.div_eq_of_lt hc, Nat.add_zero]
  have hmod : (r * x.cols + c) % x.cols = c := by
    rw [Nat.mul_comm, Nat.mul_add_mod, Nat.mod_eq_of_lt hc]
  simp only [State.portCell, hx, ha, hlt, hdiv, hmod, if_pos]

theorem portCell_eq_none (h : s.buf s.bSel = none ∨ ∃ x, s.buf s.bSel = some x ∧ x.rows * x.cols ≤ s.cAddr.toNat) :
    s.portCell = none := by
  unfold State.portCell
  rcases h with h | ⟨x, h, hle⟩
  · rw [h]
  · rw [h]; exact if_neg (not_lt.mpr hle)

/-- A legal buffer has fewer cells than `CADDR` can count (rules R7, R22, R43). -/
theorem cells_lt (h : s.inv = true) {b : RegIx} {x : Arr} (hb : s.buf b = some x) : x.rows * x.cols < 2 ^ 32 := by
  obtain ⟨_, hmax, _⟩ := (Config.wf_iff _).mp (s.inv_iff.mp h).1
  obtain ⟨_, _, hr, _, hc⟩ := (Arr.wf_iff _ _).mp (State.inv_buf h hb)
  calc x.rows * x.cols ≤ 65535 * 65535 := Nat.mul_le_mul (hr.trans hmax) (hc.trans hmax)
    _ < 2 ^ 32 := by decide

/-- A kernel has fewer taps than a byte can count (rules R7, R25). -/
theorem taps_lt (h : s.inv = true) (j : RegIx) : (s.kern j).length < 256 := by
  obtain ⟨_, _, _, hmax, _⟩ := (Config.wf_iff _).mp (s.inv_iff.mp h).1
  have := kern_length_le h j
  omega

end Sys2Proof.Machine

section

open Sys2Proof Sys2Proof.Machine

/-- Settles O9: a command ends with success or an error, and every access of the right width is a value and a state. -/
theorem nothingHaltsTheMachine : Obligations.NothingHaltsTheMachine := by
  unfold Obligations.NothingHaltsTheMachine
  exact fun s => ⟨fun i => exists_exec i s, exists_issue s, fun n => ⟨_, rfl⟩,
    fun n w h1 h2 h3 => exists_regWrite_word s w (hostReg_isNum_false h1 h2 h3),
    fun n x hn => ⟨_, regWrite_num x (hostReg_isNum.mpr hn)⟩, ⟨_, rfl⟩⟩

/-- Settles O18: every action but reset keeps the set bits or is a write of `STICKY` (`perform_sticky`). -/
theorem stickyBitsClearOnlyByWritingOneOrReset : Obligations.StickyBitsClearOnlyByWritingOneOrReset := by
  unfold Obligations.StickyBitsClearOnlyByWritingOneOrReset
  refine ⟨fun s => ⟨rfl, fun v => ⟨_, rfl, rfl, fun b hb => getLsbD_clearSticky _ v hb⟩, ⟨_, rfl, rfl⟩⟩,
    fun s t a ha h b hb => ?_⟩
  rcases perform_sticky ha h with hk | ⟨w, hw, ht⟩
  · exact .inl (hk b hb)
  · rw [ht]
    exact (getLsbD_of_clearSticky hb).imp_right fun hv => ⟨w, hv, hw⟩

/-- Settles O21: the shape is two fields of 16 bits, and a legal one makes a buffer of zeros. -/
theorem bShapeCreatesAZeroBuffer : Obligations.BShapeCreatesAZeroBuffer := by
  unfold Obligations.BShapeCreatesAZeroBuffer
  intro s hs
  refine ⟨fun hb => ?none, fun x hb => ?shape, fun v hv => ?legal, fun v hv => ?illegal⟩
  case none =>
    have hw : s.bShapeWord = 0#32 := by simp only [State.bShapeWord, hb]
    exact congrArg (fun w => (HostVal.word w, s)) hw
  case shape =>
    obtain ⟨_, hmax, _⟩ := (Config.wf_iff _).mp (s.inv_iff.mp hs).1
    obtain ⟨_, _, hr, _, hc⟩ := (Arr.wf_iff _ _).mp (State.inv_buf hs hb)
    have hw : s.bShapeWord = BitVec.ofNat 32 (x.rows * 2 ^ 16 + x.cols) := by simp only [State.bShapeWord, hb]
    refine ⟨s.bShapeWord, rfl, ?_, ?_⟩ <;> rw [hw, bits_ofNat _ _ (by omega)] <;> omega
  case legal =>
    have hw : s.writeBShape v =
        { s.setBuf s.bSel (Arr.zeros (bits v 16 16) (bits v 0 16)) with cAddr := 0#32 } :=
      if_pos ⟨hv.1.1, hv.1.2, hv.2⟩
    exact ⟨_, _, congrArg _ hw, s.buf_setBuf_self s.bSel _, Arr.shaped_ofFn _ _ _, rfl, rfl,
      fun r c hr hc => Arr.get_ofFn _ hr hc, rfl, rfl, frame_setBuf s s.bSel _⟩
  case illegal =>
    have hw : s.writeBShape v = s.hostErr := if_neg fun h => hv ⟨⟨h.1, h.2.1⟩, h.2.2⟩
    exact ⟨_, congrArg _ hw, improper_hostErr s⟩

/-- Settles O22: bit `b` of the mask is the valid bit of entry `b`, and a mask of eight entries is below 256. -/
theorem validRegistersShowTheValidBits : Obligations.ValidRegistersShowTheValidBits := by
  unfold Obligations.ValidRegistersShowTheValidBits
  refine ⟨fun s => ?_, rfl, rfl⟩
  obtain ⟨hb, hb0⟩ := validWord_bits s.bufs
  obtain ⟨hj, hj0⟩ := validWord_bits s.scalars
  exact ⟨_, _, rfl, rfl, hb, hb0, hj, hj0⟩

/-- Settles O23: the addressed cell is the quotient and the remainder of `CADDR`, which a legal buffer never wraps. -/
theorem cDataMovesOneCell : Obligations.CDataMovesOneCell := by
  unfold Obligations.CDataMovesOneCell
  refine fun s hs => ⟨fun x r c hx hr hc ha => ?proper, fun h => ?improper⟩
  case proper =>
    have hport := portCell_of_cell hx hr hc ha
    have hstep : (s.cAddr + 1#32).toNat = s.cAddr.toNat + 1 := toNat_succ (by rw [ha]; nlinarith) (cells_lt hs hx)
    have hshape := ((Arr.wf_iff _ _).mp (State.inv_buf hs hx)).1
    constructor
    · have hread : s.readNum .cdata = (x.get r c, { s with cAddr := s.cAddr + 1#32 }) := by
        simp only [State.readNum, hport]
      exact ⟨_, regRead_num rfl hread, hstep, rfl⟩
    · intro v
      have hwrite : s.writeNum .cdata v =
          { s.setBuf s.bSel (x.setCell r c v) with cAddr := s.cAddr + 1#32 } := by
        simp only [State.writeNum, hport]
      refine ⟨_, x.setCell r c v, congrArg _ hwrite, s.buf_setBuf_self s.bSel _, rfl, rfl, ?_,
        fun r' c' _ _ hne => ?_, hstep, rfl, frame_setBuf s s.bSel _⟩
      · rw [Arr.get_setCell v hshape hr hc, if_pos ⟨rfl, rfl⟩]
      · rw [Arr.get_setCell v hshape hr hc, if_neg (by tauto)]
  case improper =>
    have hport := portCell_eq_none h
    constructor
    · have hread : s.readNum .cdata = (NUM.zero, s.hostErr) := by simp only [State.readNum, hport]
      exact ⟨_, regRead_num rfl hread, improper_hostErr s⟩
    · intro v
      have hwrite : s.writeNum .cdata v = s.hostErr := by simp only [State.writeNum, hport]
      exact ⟨_, congrArg _ hwrite, improper_hostErr s⟩

/-- Settles O24: a length is below 256, and a legal one makes a kernel of zero taps. -/
theorem kLenSetsAKernelsLength : Obligations.KLenSetsAKernelsLength := by
  unfold Obligations.KLenSetsAKernelsLength
  refine fun s hs => ⟨?read, fun v hk hv => ?legal, fun v hv => ?illegal⟩
  case read =>
    have hlen := taps_lt hs s.kSel
    refine ⟨BitVec.ofNat 32 (s.kern s.kSel).length, rfl, ?_, ?_⟩ <;> rw [bits_ofNat _ _ (by omega)] <;> omega
  case legal =>
    have hw : s.writeKLen v = { s.setKern s.kSel (List.replicate v.toNat NUM.zero) with kAddr := 0#32 } :=
      if_pos ⟨hk, hv⟩
    exact ⟨_, congrArg _ hw, kern_setKern_self s _ hk, fun j hj => kern_setKern_ne s _ hj, rfl,
      setKern_restore s _ _⟩
  case illegal =>
    have hw : s.writeKLen v = s.hostErr := if_neg (by omega)
    exact ⟨_, congrArg _ hw, improper_hostErr s⟩

/-- Settles O25: `KADDR` is compared with the kernel's length, below which it never wraps. -/
theorem kDataMovesOneTap : Obligations.KDataMovesOneTap := by
  unfold Obligations.KDataMovesOneTap
  refine fun s hs => ⟨fun a ha => ?proper, fun hle => ?beyond, fun h v => ?improper⟩
  case proper =>
    obtain ⟨hlt, rfl⟩ := List.getElem?_eq_some_iff.mp ha
    have hstep : (s.kAddr + 1#32).toNat = s.kAddr.toNat + 1 := toNat_succ hlt (by have := taps_lt hs s.kSel; omega)
    constructor
    · have hread : s.readNum .kdata = ((s.kern s.kSel)[s.kAddr.toNat], { s with kAddr := s.kAddr + 1#32 }) := by
        simp only [State.readNum, hlt, if_pos, List.getD_eq_getElem]
      exact ⟨_, regRead_num rfl hread, hstep, rfl⟩
    · intro hk v
      have hwrite : s.writeNum .kdata v =
          { s.setKern s.kSel ((s.kern s.kSel).set s.kAddr.toNat v) with kAddr := s.kAddr + 1#32 } :=
        if_pos ⟨hk, hlt⟩
      exact ⟨_, congrArg _ hwrite, kern_setKern_self s _ hk, fun j hj => kern_setKern_ne s _ hj, hstep,
        setKern_restore s _ _⟩
  case beyond =>
    have hread : s.readNum .kdata = (NUM.zero, s.hostErr) := if_neg (by omega)
    exact ⟨_, regRead_num rfl hread, improper_hostErr s⟩
  case improper =>
    have hwrite : s.writeNum .kdata v = s.hostErr := if_neg (by omega)
    exact ⟨_, congrArg _ hwrite, improper_hostErr s⟩

/-- Settles O28: register `n` stands at offset `4 * n`, and four bytes are a word in one way. -/
theorem busAccessesAreLittleEndianRegisters : Obligations.BusAccessesAreLittleEndianRegisters := by
  unfold Obligations.BusAccessesAreLittleEndianRegisters
  refine fun s => ⟨fun n h1 h2 h3 => ?_, fun offset size ho hp => ⟨?_, fun bs hbs => ?_⟩⟩
  · have hn := hostReg_isNum_false h1 h2 h3
    obtain ⟨v, t, hr⟩ := exists_regRead_word (s := s) hn
    exact ⟨⟨v, t, _, hr, rfl, doBusRead_word hn hr⟩, fun v => doBusWrite_word v hn⟩
  · simp only [State.perform, State.doBusRead, busReg_partial ho hp]
  · subst hbs
    simp only [State.perform, State.doBusWrite, busReg_partial ho hp]

/-- Settles O1: the taps are rationals, and every other piece of the reset state is a closed value. -/
theorem resetLeavesTheListedValues : Obligations.ResetLeavesTheListedValues := by
  unfold Obligations.ResetLeavesTheListedValues
  refine ⟨by decide, by decide, by decide, fun ρ => ?_, rfl, rfl, rfl, rfl, rfl, rfl, rfl, rfl, rfl, rfl, rfl, rfl⟩
  norm_num [State.kern, romKernel]

/-- Settles O2: `CMD` is register 3, at offset 12 of the bus, and a write of it is `State.issue`. -/
theorem stepRunsTheIssuedCommand : Obligations.StepRunsTheIssuedCommand := by
  unfold Obligations.StepRunsTheIssuedCommand
  refine ⟨fun s w rest hp => ?_, fun s w i hd => ?_, fun s => rfl, fun s hp => step_of_nil hp⟩
  · have hstep : step s = ({ s with pending := rest } : State).issue w := by
      rcases hp with hp | hp
      · rw [step_of_cons hp]; rfl
      · rw [step_of_cons hp]; exact doBusWrite_word (n := 3) w rfl
    exact ⟨fun i hd => hstep.trans (issue_of_ok hd),
      fun r hd => ⟨_, hstep.trans (issue_of_error hd), failed_takeError _ _ _⟩⟩
  · calc step (s.withFetchWord 32 w.toNat) = s.issue (tableWord 32 w.toNat) := rfl
      _ = exec i s := by rw [tableWord_toNat, issue_of_ok hd]

/-- Settles O10: every field of the core is that of the reset state. -/
theorem resetInputRestoresTheResetValues : Obligations.ResetInputRestoresTheResetValues := by
  unfold Obligations.ResetInputRestoresTheResetValues
  exact fun s => ⟨s.resetInput, rfl, rfl, rfl, rfl, rfl, rfl, rfl, rfl, rfl, rfl, rfl, rfl, rfl, rfl, rfl, rfl⟩

/-- Settles O16: the fields of `CAP` and `MAXDIM` are digits of their sums, since the parameters are in range. -/
theorem constantRegistersIdentifyTheCore : Obligations.ConstantRegistersIdentifyTheCore := by
  unfold Obligations.ConstantRegistersIdentifyTheCore
  intro s hs
  obtain ⟨_, hdim, _, htaps, _⟩ := (Config.wf_iff _).mp hs
  have hcap (lo len : Nat) : bits (capWord s.cfg) lo len =
      (8 + 8 * 2 ^ 4 + 8 * 2 ^ 8 + s.cfg.maxTaps * 2 ^ 12) / 2 ^ lo % 2 ^ len := bits_ofNat lo len (by omega)
  have hmax (lo len : Nat) : bits (BitVec.ofNat 32 s.cfg.maxDim) lo len = s.cfg.maxDim / 2 ^ lo % 2 ^ len :=
    bits_ofNat lo len (by omega)
  refine ⟨capWord s.cfg, BitVec.ofNat 32 s.cfg.maxDim, rfl, rfl, ?_, ?_, ?_, ?_, ?_, rfl, ?_, ?_⟩ <;>
    simp only [hcap, hmax] <;> omega

/-- Settles O17: `STATUS` is the code, below 16. -/
theorem statusAndErrInfoShowTheError : Obligations.StatusAndErrInfoShowTheError := by
  unfold Obligations.StatusAndErrInfoShowTheError
  intro s
  obtain ⟨hcode, hrest⟩ := bits_statusWord s.err
  refine ⟨rfl, statusWord s.err, rfl, hrest, ?_, ?_, ?_, ?_, ?_, ?_, ?_⟩ <;> intro he <;> rw [hcode, he] <;> rfl

/-- Settles O19: a write is judged by bits 15:0, and the register reads as a number below 65536. -/
theorem imgSizeKeepsLegalValues : Obligations.ImgSizeKeepsLegalValues := by
  unfold Obligations.ImgSizeKeepsLegalValues
  refine fun s => ⟨?read, fun v h1 hm => ?legal, fun v hv => ?illegal⟩
  case read =>
    have hlt := s.imgSize.isLt
    have hw : (s.imgSize.zeroExtend 32).toNat = s.imgSize.toNat := by simp; omega
    refine ⟨s.imgSize.zeroExtend 32, rfl, ?_, ?_⟩ <;> rw [bits_eq, hw] <;> omega
  case legal =>
    have hw : s.writeImgSize v = { s with imgSize := v.extractLsb' 0 16 } := if_pos ⟨h1, hm⟩
    exact ⟨_, congrArg _ hw, rfl, rfl⟩
  case illegal =>
    have hw : s.writeImgSize v = s.hostErr := if_neg fun h => by simp only [bits] at hv; omega
    exact ⟨_, congrArg _ hw, improper_hostErr s⟩

/-- Settles O20: each write is the update of one field. -/
theorem selectorAndAddressRegistersStore : Obligations.SelectorAndAddressRegistersStore := by
  unfold Obligations.SelectorAndAddressRegistersStore
  exact fun s => ⟨⟨rfl, rfl, rfl, rfl, rfl⟩, fun v => ⟨⟨_, rfl, regField_zero_val v, rfl⟩,
    ⟨_, rfl, regField_zero_val v, rfl⟩, ⟨_, rfl, regField_zero_val v, rfl⟩, rfl, rfl⟩⟩

/-- Settles O26: a write is `setScal`, and a read looks at the valid bit. -/
theorem sDataMovesOneScalar : Obligations.SDataMovesOneScalar := by
  unfold Obligations.SDataMovesOneScalar
  refine fun s => ⟨fun v => ⟨_, rfl, s.scal_setScal_self s.sSel v, rfl, frame_setScal s s.sSel v⟩, fun x hx => ?_,
    fun hx => ?_⟩
  · have hread : s.readNum .sdata = (x, s) := by simp only [State.readNum, hx]
    exact regRead_num rfl hread
  · have hread : s.readNum .sdata = (NUM.zero, s.hostErr) := by simp only [State.readNum, hx]
    exact ⟨_, regRead_num rfl hread, improper_hostErr s⟩

/-- Settles O27: each of these accesses is the improper one. -/
theorem reservedAndReadOnlyRegistersFlag : Obligations.ReservedAndReadOnlyRegistersFlag := by
  unfold Obligations.ReservedAndReadOnlyRegistersFlag
  refine fun s => ⟨fun n hn => ?_, fun n hn v => ⟨s.hostErr, ?_, improper_hostErr s⟩⟩
  · have hr := hostReg_eq_reserved.mpr hn
    refine ⟨⟨_, regRead_reserved hr, improper_hostErr s⟩, fun v => ⟨s.hostErr, ?_, improper_hostErr s⟩⟩
    rw [regWrite_word v (by rw [hr]; rfl) (by rw [hr]; decide), hr]; rfl
  · fin_cases hn <;> rfl

end

/-! ## The decoder and the encoder

A row of the opcode map fixes the bits under its mask and hands the others to the operands. So the word of the command
that a row reads from `w` is `w` with the fixed bits set to the row's pattern (`Opcode.encode_build`), and both
round trips follow from this one equation. -/

namespace Sys2Proof

/-! ### Fields and formats -/

theorem ofNat_bits (w : Word) (lo len : Nat) : BitVec.ofNat len (bits w lo len) = w.extractLsb' lo len := by
  rw [bits, BitVec.ofNat_toNat, BitVec.setWidth_eq]

theorem ofNat_regField (w : Word) (lo : Nat) : BitVec.ofNat 3 (regField w lo).val = w.extractLsb' lo 3 :=
  ofNat_bits w lo 3

theorem regField_eq_iff (w : Word) (lo lo' : Nat) : regField w lo = regField w lo' ↔ bits w lo 3 = bits w lo' 3 :=
  Fin.ext_iff

theorem immOk_iff {n : Nat} : immOk n = true ↔ n < 1024 := decide_eq_true_iff

theorem orientOk_iff {n : Nat} : orientOk n = true ↔ n < 8 := decide_eq_true_iff

theorem formatN_eq_of_fields {w : Word} {op : Opcode} {f1 f2 n1 n2 : Nat}
    (hop : w.extractLsb' 26 6 = BitVec.ofNat 6 op.code) (hf1 : w.extractLsb' 23 3 = BitVec.ofNat 3 f1)
    (hf2 : w.extractLsb' 20 3 = BitVec.ofNat 3 f2) (hn1 : w.extractLsb' 10 10 = BitVec.ofNat 10 n1)
    (hn2 : w.extractLsb' 0 10 = BitVec.ofNat 10 n2) : formatN op f1 f2 n1 n2 = w := by
  rw [formatN, ← hop, ← hf1, ← hf2, ← hn1, ← hn2]
  iterate 4 rw [BitVec.extractLsb'_append_extractLsb'_eq_extractLsb' (by rfl)]
  exact w.extractLsb'_eq_self

theorem formatR_eq_of_fields {w : Word} {op : Opcode} {f1 f2 f3 f4 k1 k2 : Nat}
    (hop : w.extractLsb' 26 6 = BitVec.ofNat 6 op.code) (hf1 : w.extractLsb' 23 3 = BitVec.ofNat 3 f1)
    (hf2 : w.extractLsb' 20 3 = BitVec.ofNat 3 f2) (hf3 : w.extractLsb' 17 3 = BitVec.ofNat 3 f3)
    (hf4 : w.extractLsb' 14 3 = BitVec.ofNat 3 f4) (hk1 : w.extractLsb' 11 3 = BitVec.ofNat 3 k1)
    (hk2 : w.extractLsb' 8 3 = BitVec.ofNat 3 k2) (h0 : w.extractLsb' 0 8 = 0#8) :
    formatR op f1 f2 f3 f4 k1 k2 = w := by
  rw [formatR, ← hop, ← hf1, ← hf2, ← hf3, ← hf4, ← hk1, ← hk2, ← h0]
  iterate 7 rw [BitVec.extractLsb'_append_extractLsb'_eq_extractLsb' (by rfl)]
  exact w.extractLsb'_eq_self

/-! ### A row's fixed bits -/

/-- `w` with the bits under the row's mask set to the row's pattern (rule R97). -/
def Opcode.fill (op : Opcode) (w : Word) : Word := (w &&& ~~~op.mask) ||| op.pattern

theorem Opcode.extract_fill (op : Opcode) (w : Word) (lo len : Nat) :
    (op.fill w).extractLsb' lo len =
      (w.extractLsb' lo len &&& (~~~op.mask).extractLsb' lo len) ||| op.pattern.extractLsb' lo len := by
  rw [Opcode.fill, BitVec.extractLsb'_or, BitVec.extractLsb'_and]

theorem Opcode.pattern_and_mask (op : Opcode) : op.pattern &&& op.mask = op.pattern := by cases op <;> rfl

theorem Opcode.fill_and_mask (op : Opcode) (w : Word) : op.fill w &&& op.mask = op.pattern := by
  rw [Opcode.fill, BitVec.and_or_distrib_right, BitVec.and_assoc, BitVec.not_and_self, op.pattern_and_mask]
  simp

theorem Opcode.fill_eq_self {op : Opcode} {w : Word} (h : w &&& op.mask = op.pattern) : op.fill w = w := by
  rw [Opcode.fill, ← h, ← BitVec.and_or_distrib_left, BitVec.not_or_self]
  exact BitVec.and_allOnes

theorem and_ones_three (x : BitVec 3) : x &&& 7#3 = x := BitVec.and_allOnes

theorem and_ones_ten (x : BitVec 10) : x &&& 1023#10 = x := BitVec.and_allOnes

/-- Field by field of the row's format: an operand's bits are those of `w`, every other bit is the row's. -/
theorem Opcode.encode_build (op : Opcode) (w : Word) : encode (op.build w) = op.fill w := by
  cases op with
  | nop => exact (Opcode.fill_and_mask .nop w).symm.trans BitVec.and_allOnes
  | free | mkdct2 | mkdct4 | dct | idct | regroup | dctbpp | nlevdwt | nlevidwt | energyz =>
    refine formatN_eq_of_fields ?_ ?_ ?_ ?_ ?_ <;>
      simp only [Opcode.extract_fill, Opcode.mask, Opcode.pattern, Opcode.code, f1Field, f2Field, n1Field, n2Field,
        iField, ofNat_regField, ofNat_bits, and_ones_three, and_ones_ten, BitVec.and_zero, BitVec.or_zero,
        BitVec.zero_or, BitVec.reduceNot, BitVec.reduceExtractLsb']
  | colxfm | trn | dwt | idwt | quantdwt | quantise | bpp | rowdec | rowdec2 | rowint | rowint2 =>
    refine formatR_eq_of_fields ?_ ?_ ?_ ?_ ?_ ?_ ?_ ?_ <;>
      simp only [Opcode.extract_fill, Opcode.mask, Opcode.pattern, Opcode.code, f1Field, f2Field, f3Field, f4Field,
        k1Field, k2Field, ofNat_regField, and_ones_three, BitVec.and_zero, BitVec.or_zero, BitVec.zero_or,
        BitVec.reduceNot, BitVec.reduceExtractLsb']

/-- Each operand is read back from the field it was written to. -/
theorem build_encode {i : Instr} (h : i.wellFormed = true) : i.opcode.build (encode i) = i := by
  cases i with
  | nop => rfl
  | free | mkdct2 | mkdct4 | dct | idct | regroup | dctbpp | nlevdwt | nlevidwt =>
    simp only [Instr.wellFormed, Bool.and_eq_true, immOk_iff] at h
    simp only [Instr.opcode, Opcode.build, encode, f1Field, f2Field, n1Field, n2Field, regField, bits, formatN_f1,
      formatN_f2, formatN_n1, formatN_n2, toFin_ofNat_three, toNat_ofNat_ten, h]
  | energyz =>
    simp only [Instr.wellFormed, Bool.and_eq_true, immOk_iff, orientOk_iff] at h
    simp only [Instr.opcode, Opcode.build, encode, f1Field, n1Field, n2Field, iField, regField, bits, formatE_f1,
      formatE_i, formatE_layer, formatE_n, toFin_ofNat_three, toNat_ofNat_ten, toNat_ofNat_three, h]
  | colxfm | trn | dwt | idwt | quantdwt | quantise | bpp | rowdec | rowdec2 | rowint | rowint2 =>
    simp only [Instr.opcode, Opcode.build, encode, f1Field, f2Field, f3Field, f4Field, k1Field, k2Field, regField,
      formatR_f1, formatR_f2, formatR_f3, formatR_f4, formatR_k1, formatR_k2, toFin_ofNat_three]

theorem encode_and_mask {i : Instr} (h : i.wellFormed = true) : encode i &&& i.opcode.mask = i.opcode.pattern := by
  have hfill : encode i = i.opcode.fill (encode i) := by rw [← Opcode.encode_build, build_encode h]
  rw [hfill]
  exact Opcode.fill_and_mask ..

/-- Fields hold no value beyond their width, so only the rule of `QUANTDWT` is left to break (rule R101). -/
theorem wellFormed_build (op : Opcode) (w : Word) :
    (op.build w).wellFormed = true ↔ ¬(op = .quantdwt ∧ f1Field w = f4Field w) := by
  have himm (lo : Nat) : immOk (bits w lo 10) = true := immOk_iff.mpr (BitVec.isLt _)
  have horient : orientOk (iField w) = true := orientOk_iff.mpr (BitVec.isLt _)
  cases op <;> simp [Opcode.build, Instr.wellFormed, n1Field, n2Field, himm, horient]

/-! ### The decoder -/

/-- Bits 31:26 stand under every mask, so a match shows the row's opcode. -/
theorem opcodeOf_of_match {op : Opcode} {w : Word} (h : w &&& op.mask = op.pattern) :
    opcodeOf (opField w) = some op := by
  have hmask : op.mask.extractLsb' 26 6 = BitVec.allOnes 6 := by cases op <;> rfl
  have hpat : op.pattern.extractLsb' 26 6 = BitVec.ofNat 6 op.code := by cases op <;> rfl
  apply Laws.opcodeOf_of_extract
  rw [← hpat, ← h, BitVec.extractLsb'_and, hmask, BitVec.and_allOnes]

theorem opField_of_match {op : Opcode} {w : Word} (h : w &&& op.mask = op.pattern) : opField w = op.code :=
  (code_of_opcodeOf (opcodeOf_of_match h)).symm

theorem decode_eq_ok_iff_match {w : Word} {i : Instr} : decode w = .ok i ↔
    ∃ op : Opcode, w &&& op.mask = op.pattern ∧ ¬(op = .quantdwt ∧ f1Field w = f4Field w) ∧ i = op.build w := by
  constructor
  · intro h
    unfold decode at h
    split at h
    · cases h
    next op _ =>
      split at h
      · cases h
      next hmatch =>
        split at h
        · cases h
        next hdest => cases h; exact ⟨op, not_not.mp hmatch, hdest, rfl⟩
  · rintro ⟨op, hmatch, hdest, rfl⟩
    simp only [decode, opcodeOf_of_match hmatch, if_neg (not_not.mpr hmatch), if_neg hdest]

/-- The legal words are the words of the encodable commands, each the word of one. -/
theorem decode_eq_ok_iff_encode {w : Word} {i : Instr} : decode w = .ok i ↔ encode i = w ∧ i.wellFormed = true := by
  rw [decode_eq_ok_iff_match]
  constructor
  · rintro ⟨op, hmatch, hdest, rfl⟩
    exact ⟨(op.encode_build w).trans (Opcode.fill_eq_self hmatch), (wellFormed_build op w).mpr hdest⟩
  · rintro ⟨rfl, hwf⟩
    have hbuild := build_encode hwf
    exact ⟨i.opcode, encode_and_mask hwf, (wellFormed_build _ _).mp (hbuild.symm ▸ hwf), hbuild.symm⟩

/-! ### The opcode map as a list of rows -/

/-- The rows of the opcode map in its order (rule R97). -/
def Opcode.all : List Opcode :=
  [.nop, .free, .mkdct2, .mkdct4, .colxfm, .trn, .dct, .idct, .regroup, .dctbpp, .dwt, .idwt, .nlevdwt, .nlevidwt,
    .quantdwt, .energyz, .quantise, .bpp, .rowdec, .rowdec2, .rowint, .rowint2]

theorem Opcode.mem_all (op : Opcode) : op ∈ Opcode.all := by cases op <;> decide

/-- The row's must-be-zero bits: its mask without the opcode (rule R97). -/
def Opcode.zeroBits (op : Opcode) : Word := op.mask &&& 0x03FFFFFF#32

/-- A match leaves none of the row's must-be-zero bits set (rule R100). -/
theorem and_zeroBits_of_match {op : Opcode} {w : Word} (h : w &&& op.mask = op.pattern) : w &&& op.zeroBits = 0#32 := by
  rw [Opcode.zeroBits, ← BitVec.and_assoc, h]
  cases op <;> rfl

theorem Opcode.code_injective : Function.Injective Opcode.code := fun op op' h => by
  simpa using congrArg opcodeOf h

theorem Opcode.code_not_reserved (op : Opcode) :
    op.code ∉ [0x06, 0x07, 0x0C, 0x0D, 0x0E, 0x0F, 0x16, 0x17, 0x1A, 0x1B] ∧ op.code < 0x20 := by
  cases op <;> decide

/-- The exclusion of rule R101 in the decoder's terms and in the word's bits. -/
theorem sameDestination_iff_bits {op : Opcode} {w : Word} (h : w &&& op.mask = op.pattern) :
    (op = .quantdwt ∧ f1Field w = f4Field w) ↔ (bits w 26 6 = 0x14 ∧ bits w 23 3 = bits w 14 3) := by
  have hop : op = .quantdwt ↔ bits w 26 6 = 0x14 := by
    rw [← opField, opField_of_match h]
    exact (Opcode.code_injective.eq_iff (b := .quantdwt)).symm
  rw [hop, f1Field, f4Field, regField_eq_iff]

end Sys2Proof

section

open Sys2Proof Sys2Proof.Machine

/-- Settles O13: an encodable command's word is legal and carries that command (`decode_eq_ok_iff_encode`). -/
theorem decodeOfEncodeIsTheCommand : Obligations.DecodeOfEncodeIsTheCommand := by
  unfold Obligations.DecodeOfEncodeIsTheCommand
  exact fun i hwf => decode_eq_ok_iff_encode.mpr ⟨rfl, hwf⟩

/-- Settles O14: the other direction of `decode_eq_ok_iff_encode`. -/
theorem legalWordsAreTheirCommandsWords : Obligations.LegalWordsAreTheirCommandsWords := by
  unfold Obligations.LegalWordsAreTheirCommandsWords
  exact fun w i hd => decode_eq_ok_iff_encode.mp hd

/-- Settles O11: the listed rows are mask, pattern and command of the opcodes in the map's order. -/
theorem decoderIsTheOpcodeMap : Obligations.DecoderIsTheOpcodeMap := by
  unfold Obligations.DecoderIsTheOpcodeMap
  intro w i
  change _ ↔ (∃ row ∈ Opcode.all.map fun op => (op.mask, op.pattern, op.build w), _) ∧ _
  rw [decode_eq_ok_iff_match]
  constructor
  · rintro ⟨op, hmatch, hdest, hi⟩
    exact ⟨⟨_, List.mem_map_of_mem op.mem_all, hmatch, hi⟩, (sameDestination_iff_bits hmatch).not.mp hdest⟩
  · rintro ⟨⟨_, hrow, hmatch, hi⟩, hdest⟩
    obtain ⟨op, _, rfl⟩ := List.mem_map.mp hrow
    exact ⟨op, hmatch, (sameDestination_iff_bits hmatch).not.mpr hdest, hi⟩

/-- Settles O12: a word that decodes matches a row, which none of the listed words does. -/
theorem illegalWordsFail : Obligations.IllegalWordsFail := by
  unfold Obligations.IllegalWordsFail
  intro s w hbad
  cases hd : decode w with
  | error r => exact ⟨_, issue_of_error hd, failed_takeError s .illegal w⟩
  | ok i =>
    exfalso
    obtain ⟨op, hmatch, hdest, -⟩ := decode_eq_ok_iff_match.mp hd
    have hop : bits w 26 6 = op.code := opField_of_match hmatch
    obtain ⟨hreserved, hlt⟩ := op.code_not_reserved
    rcases hbad with h | h | ⟨row, hrow, hcode, hzero⟩ | h
    · exact hreserved (hop ▸ h)
    · omega
    · change row ∈ (Opcode.all.filter fun op => op.zeroBits ≠ 0#32).map fun op => (op.code, op.zeroBits) at hrow
      obtain ⟨op', _, rfl⟩ := List.mem_map.mp hrow
      cases Opcode.code_injective (hop.symm.trans hcode)
      exact hzero (and_zeroBits_of_match hmatch)
    · exact hdest ((sameDestination_iff_bits hmatch).mpr h)

/-- Settles O15: the decoder is run on each word. -/
theorem sampleWordsDecode : Obligations.SampleWordsDecode := by
  unfold Obligations.SampleWordsDecode
  exact ⟨rfl, rfl, rfl, rfl, rfl, rfl, rfl, rfl, rfl⟩

end

/-! ## The error a command ends with

A command's body checks the causes of errors in the order of rule R260. A list of causes decides a result: it is the
error of the first cause that holds, and a success when none does. Each check of a body is one rule about the list, so
the body of every command is read once, here. -/

namespace Sys2Proof.Machine

/-- A result is decided by a list of causes with their codes: the first cause that holds gives the error. -/
def Decides : List (Prop × ErrCode) → Except ErrCode State → Prop
  | [], r => ∃ t, r = .ok t
  | (p, e) :: cs, r => (p ∧ r = .error e) ∨ (¬p ∧ Decides cs r)

/-- The causes of a command's errors in the order of rule R260. -/
def causes (i : Instr) (s : State) : List (Prop × ErrCode) :=
  [(emptyCause i s, .empty), (kernelCause i s, .kernel), (domainCause i, .domain), (dimCause i s, .dim),
    (capacityCause i s, .capacity)]

section Decides

variable {s : State} {cs : List (Prop × ErrCode)} {p : Prop} {r : Except ErrCode State}

theorem Decides.ok (t : State) : Decides [] (.ok t) := ⟨t, rfl⟩

theorem Decides.skip {e : ErrCode} (hp : ¬p) (h : Decides cs r) : Decides ((p, e) :: cs) r := .inr ⟨hp, h⟩

/-- A check that covers a part of the cause; the rest of the body decides the other part. -/
theorem Decides.part {c : Prop} [Decidable c] {e : ErrCode} {k : Unit → Except ErrCode State} (hp : c → p)
    (h : ¬c → Decides ((p, e) :: cs) (k ())) : Decides ((p, e) :: cs) (raiseIf c e >>= k) := by
  rcases raiseIf_cases (c := c) e with ⟨hc, hr⟩ | ⟨hc, hr⟩
  · rw [hr]; exact .inl ⟨hp hc, rfl⟩
  · rw [hr]; exact h hc

/-- A check that is the cause. -/
theorem Decides.check {c : Prop} [Decidable c] {e : ErrCode} {k : Unit → Except ErrCode State} (hp : p ↔ c)
    (h : Decides cs (k ())) : Decides ((p, e) :: cs) (raiseIf c e >>= k) :=
  .part hp.mpr fun hc => .skip (mt hp.mp hc) h

theorem Decides.srcBuf {b : RegIx} {k : Arr → Except ErrCode State} (hp : s.buf b = none → p)
    (h : ∀ x, s.buf b = some x → Decides ((p, .empty) :: cs) (k x)) :
    Decides ((p, .empty) :: cs) (s.srcBuf b >>= k) := by
  cases hb : s.buf b with
  | none => rw [State.srcBuf_empty hb]; exact .inl ⟨hp hb, rfl⟩
  | some x => rw [State.srcBuf_ok hb]; exact h x hb

theorem Decides.srcScal {j : RegIx} {k : NUM → Except ErrCode State} (hp : s.scal j = none → p)
    (h : ∀ x, s.scal j = some x → Decides ((p, .empty) :: cs) (k x)) :
    Decides ((p, .empty) :: cs) (s.srcScal j >>= k) := by
  cases hj : s.scal j with
  | none => rw [State.srcScal_empty hj]; exact .inl ⟨hp hj, rfl⟩
  | some x => rw [State.srcScal_ok hj]; exact h x hj

theorem Decides.srcKern {j : RegIx} {k : List NUM → Except ErrCode State} (hp : s.kern j = [] → p)
    (h : s.kern j ≠ [] → Decides ((p, .empty) :: cs) (k (s.kern j))) :
    Decides ((p, .empty) :: cs) (s.srcKern j >>= k) := by
  by_cases hj : s.kern j = []
  · rw [State.srcKern_empty hj]; exact .inl ⟨hp hj, rfl⟩
  · rw [State.srcKern_ok hj]; exact h hj

variable {i : Instr}

theorem Decides.eq_error {e : ErrCode} (h : Decides (causes i s) r) (he : FirstError i s e) : r = .error e := by
  simp only [Decides, causes] at h
  rcases he with ⟨h1, rfl⟩ | ⟨h1, h2, rfl⟩ | ⟨h1, h2, h3, rfl⟩ | ⟨h1, h2, h3, h4, rfl⟩ | ⟨h1, h2, h3, h4, h5, rfl⟩ <;>
    simp_all

end Decides

/-! ### The causes of each command -/

section Causes

variable {i : Instr} {s : State}

theorem emptyCause_of_buf {b : RegIx} (hb : b ∈ srcBufs i) (h : s.buf b = none) : emptyCause i s := .inl ⟨b, hb, h⟩

theorem emptyCause_of_scal {j : RegIx} (hj : j ∈ srcScals i) (h : s.scal j = none) : emptyCause i s :=
  .inr (.inl ⟨j, hj, h⟩)

theorem emptyCause_of_kern {j : RegIx} (hj : j ∈ srcKerns i) (h : s.kern j = []) : emptyCause i s :=
  .inr (.inr ⟨j, hj, h⟩)

theorem emptyCause_iff {bs js ks : List RegIx} (hb : srcBufs i = bs := by rfl) (hj : srcScals i = js := by rfl)
    (hk : srcKerns i = ks := by rfl) : emptyCause i s ↔
      (∃ b ∈ bs, s.buf b = none) ∨ (∃ j ∈ js, s.scal j = none) ∨ ∃ j ∈ ks, s.kern j = [] := by
  subst hb hj hk; rfl

theorem not_kernelCause (h : srcKerns i = [] := by rfl) : ¬kernelCause i s := by
  rintro ⟨j, hj, -⟩
  simp [h] at hj

/-- A cause about the array in a buffer, once that array is known. -/
theorem exists_buf_iff {b : RegIx} {x : Arr} {P : Arr → Prop} (h : s.buf b = some x) :
    (∃ y, s.buf b = some y ∧ P y) ↔ P x := by
  simp [h]

/-! ### The sources of a command -/

variable {r : Except ErrCode State} {sa : RegIx}

/-- The causes that are left to a command when its sources are read. -/
def operandCauses (i : Instr) (s : State) : List (Prop × ErrCode) :=
  [(domainCause i, .domain), (dimCause i s, .dim), (capacityCause i s, .capacity)]

theorem Decides.noSource (h : Decides (operandCauses i s) r) (hb : srcBufs i = [] := by rfl)
    (hj : srcScals i = [] := by rfl) (hk : srcKerns i = [] := by rfl) : Decides (causes i s) r :=
  .skip (by simp [emptyCause_iff hb hj hk]) <| .skip (not_kernelCause hk) h

theorem Decides.oneBuf {k : Arr → Except ErrCode State}
    (h : ∀ x, s.buf sa = some x → Decides (operandCauses i s) (k x)) (hb : srcBufs i = [sa] := by rfl)
    (hj : srcScals i = [] := by rfl) (hk : srcKerns i = [] := by rfl) :
    Decides (causes i s) (s.srcBuf sa >>= k) :=
  .srcBuf (emptyCause_of_buf (by simp [hb])) fun x hx =>
    .skip (by simp [emptyCause_iff hb hj hk, hx]) <| .skip (not_kernelCause hk) (h x hx)

theorem Decides.twoBufs {sb : RegIx} {k : Arr → Arr → Except ErrCode State}
    (h : ∀ x y, s.buf sa = some x → s.buf sb = some y → Decides (operandCauses i s) (k x y))
    (hb : srcBufs i = [sa, sb] := by rfl) (hj : srcScals i = [] := by rfl) (hk : srcKerns i = [] := by rfl) :
    Decides (causes i s) (s.srcBuf sa >>= fun x => s.srcBuf sb >>= k x) :=
  .srcBuf (emptyCause_of_buf (by simp [hb])) fun x hx => .srcBuf (emptyCause_of_buf (by simp [hb])) fun y hy =>
    .skip (by simp [emptyCause_iff hb hj hk, hx, hy]) <| .skip (not_kernelCause hk) (h x y hx hy)

theorem Decides.bufAndKern {j : RegIx} {k : Arr → List NUM → Unit → Except ErrCode State}
    (h : ∀ x, s.buf sa = some x → Decides (operandCauses i s) (k x (s.kern j) ())) (hb : srcBufs i = [sa] := by rfl)
    (hj : srcScals i = [] := by rfl) (hk : srcKerns i = [j] := by rfl) :
    Decides (causes i s) (s.srcBuf sa >>= fun x => s.srcKern j >>= fun g =>
      raiseIf (evenKernel g) .kernel >>= k x g) :=
  .srcBuf (emptyCause_of_buf (by simp [hb])) fun x hx => .srcKern (emptyCause_of_kern (by simp [hk])) fun hg =>
    .skip (by simp [emptyCause_iff hb hj hk, hx, hg]) <| .check (by simp [kernelCause, hk, hg]) (h x hx)

theorem Decides.bufAndTwoKerns {j l : RegIx} {k : Arr → List NUM → List NUM → Unit → Except ErrCode State}
    (h : ∀ x, s.buf sa = some x → Decides (operandCauses i s) (k x (s.kern j) (s.kern l) ()))
    (hb : srcBufs i = [sa] := by rfl) (hj : srcScals i = [] := by rfl) (hk : srcKerns i = [j, l] := by rfl) :
    Decides (causes i s) (s.srcBuf sa >>= fun x => s.srcKern j >>= fun g => s.srcKern l >>= fun g' =>
      raiseIf (evenKernel g ∨ evenKernel g') .kernel >>= k x g g') :=
  .srcBuf (emptyCause_of_buf (by simp [hb])) fun x hx => .srcKern (emptyCause_of_kern (by simp [hk])) fun hg =>
    .srcKern (emptyCause_of_kern (by simp [hk])) fun hg' =>
    .skip (by simp [emptyCause_iff hb hj hk, hx, hg, hg']) <| .check (by simp [kernelCause, hk, hg, hg']) (h x hx)

end Causes

/-- Every command is a body that its causes decide, followed by the common end of a command. -/
theorem exec_decides {i : Instr} (s : State) (hwf : i.wellFormed = true) :
    ∃ r, exec i s = finish i s r ∧ Decides (causes i s) r := by
  cases i with
  | nop => exact ⟨.ok s, rfl, .noSource <| .skip id <| .skip id <| .skip id <| .ok _⟩
  | free ad => exact ⟨.ok (s.freeBuf ad), rfl, .noSource <| .skip id <| .skip id <| .skip id <| .ok _⟩
  | mkdct2 ad n | mkdct4 ad n => exact ⟨_, rfl, .noSource <| .check .rfl <| .skip id <| .check .rfl <| .ok _⟩
  | colxfm ad sa ac =>
    refine ⟨_, rfl, .twoBufs fun x c hx hc => .skip id ?_⟩
    have hdim : dimCause (.colxfm ad sa ac) s ↔ c.cols ≠ c.rows ∨ x.rows % c.rows ≠ 0 := by simp [dimCause, hx, hc]
    exact .part (fun h => hdim.mpr (.inl h)) fun hsq => .check (hdim.trans (or_iff_right hsq)) <| .skip id <| .ok _
  | trn ad sa | bpp ad sa => exact ⟨_, rfl, .oneBuf fun _ _ => .skip id <| .skip id <| .skip id <| .ok _⟩
  | dct ad sa n | idct ad sa n | regroup ad sa n m | dctbpp ad sa n =>
    exact ⟨_, rfl, .oneBuf fun x hx => .check .rfl <| .check (exists_buf_iff hx) <| .skip id <| .ok _⟩
  | dwt ad sa j l | idwt ad sa j l =>
    refine ⟨_, rfl, .bufAndTwoKerns fun x hx => .skip id <| .check ((exists_buf_iff hx).trans ?_) <| .skip id <| .ok _⟩
    rw [Nat.mod_two_ne_zero, Nat.mod_two_ne_zero]
  | nlevdwt ad sa n | nlevidwt ad sa n =>
    exact ⟨_, rfl, .oneBuf fun x hx => .skip id <| .check (exists_buf_iff hx) <| .skip id <| .ok _⟩
  | quantdwt ad ae sa ta =>
    have hdst : ¬ad = ae := by simpa [Instr.wellFormed] using hwf
    refine ⟨_, rfl, ?_⟩
    rw [raiseIf_bind hdst]
    refine .twoBufs fun y t hy ht => .skip id ?_
    have hdim : dimCause (.quantdwt ad ae sa ta) s ↔ t.rows ≠ 3 ∨ notDyadic y (t.cols - 1) := by
      simp [dimCause, hy, ht]
    exact .part (fun h => hdim.mpr (.inl h)) fun hr => .check (hdim.trans (or_iff_right hr)) <| .skip id <| .ok _
  | energyz sd n layer j =>
    refine ⟨_, rfl, .noSource <| .part .inl fun h1 => .part (.inr ∘ .inl) fun h2 => ?_⟩
    exact .check ((or_iff_right h1).trans (or_iff_right h2)) <| .check .rfl <| .skip id <| .ok _
  | quantise ad sa ss =>
    refine ⟨_, rfl, .srcBuf (emptyCause_of_buf (.head _)) fun x hx =>
      .srcScal (emptyCause_of_scal (.head _)) fun g hg => .skip ?_ <| .skip not_kernelCause <|
      .skip id <| .skip id <| .skip id <| .ok _⟩
    simp [emptyCause, srcBufs, srcScals, srcKerns, hx, hg]
  | rowdec ad sa j | rowdec2 ad sa j =>
    refine ⟨_, rfl, .bufAndKern fun x hx => .skip id <| .check ((exists_buf_iff hx).trans ?_) <| .skip id <| .ok _⟩
    rw [Nat.mod_two_ne_zero]
  | rowint ad sa j | rowint2 ad sa j =>
    exact ⟨_, rfl, .bufAndKern fun x hx => .skip id <| .skip id <| .check (exists_buf_iff hx) <| .ok _⟩

/-- A command with a cause of an error ends with the first one (rules R258, R260, R261). -/
theorem failsFirst (i : Instr) (s : State) : FailsFirst i s := by
  intro w e hd he
  obtain ⟨rfl, hwf⟩ := decode_eq_ok_iff_encode.mp hd
  obtain ⟨r, hexec, hr⟩ := exec_decides s hwf
  rw [hexec, hr.eq_error he]
  exact ⟨_, finish_error i s e, failed_takeError s e _⟩

/-- A word that matches the row of a command carries it; only `QUANTDWT` has a further rule (rules R97, R101). -/
theorem encodedAs_row (op : Opcode) (h : op ≠ .quantdwt := by decide) : EncodedAs op.mask op.pattern op.build :=
  fun _ hw => decode_eq_ok_iff_match.mpr ⟨op, hw, fun hq => h hq.1, rfl⟩

/-! ## The matrix builder -/

theorem exec_mkdct4 {s : State} (ad : RegIx) {n : Nat} (h0 : n ≠ 0) (hm : n ≤ s.cfg.maxDim) :
    exec (.mkdct4 ad n) s = .next (s.setBuf ad (dct4Matrix s.cfg.num n)).succeed := by
  change finish _ _ _ = _
  rw [raiseIf_bind h0, raiseIf_bind (not_lt.mpr hm)]; rfl

/-- Each builder writes its own square matrix (rules R131, R132). -/
theorem exec_builder {s : State} {ad : RegIx} {n : Nat} (h0 : n ≠ 0) (hm : n ≤ s.cfg.maxDim) {i : Instr}
    (hi : i ∈ [Instr.mkdct2 ad n, Instr.mkdct4 ad n]) :
    ∃ m ∈ [dct2Matrix s.cfg.num n, dct4Matrix s.cfg.num n], exec i s = .next (s.setBuf ad m).succeed ∧
      m.rows = n ∧ m.cols = n := by
  rcases List.mem_pair.mp hi with rfl | rfl
  · exact ⟨_, List.mem_pair.mpr (.inl rfl), exec_mkdct2 ad h0 hm, rfl, rfl⟩
  · exact ⟨_, List.mem_pair.mpr (.inr rfl), exec_mkdct4 ad h0 hm, rfl, rfl⟩

end Sys2Proof.Machine

section

open Sys2Proof Sys2Proof.Machine

/-- Settles O31: the body runs to its one write, and the written entries are the ideal ones (`val_dct2Matrix`). -/
theorem mkDct2BuildsTheMatrix : Obligations.MkDct2BuildsTheMatrix := by
  unfold Obligations.MkDct2BuildsTheMatrix
  refine ⟨encodedAs_row .mkdct2, fun s ad n => ⟨failsFirst _ s, fun h1 hm => ?_⟩⟩
  refine exists_done_buf (exec_mkdct2 ad (by omega) hm) ⟨rfl, rfl, fun hreals ρ k hk => ?_⟩
  rw [hreals]
  exact ⟨(val_dct2Matrix ρ h1 hk).trans (if_pos rfl),
    fun i hi hin => (val_dct2Matrix ρ hin hk).trans (if_neg (by omega))⟩

/-- Settles O32: as for the DCT-II matrix, with `val_dct4Matrix`. -/
theorem mkDct4BuildsTheMatrix : Obligations.MkDct4BuildsTheMatrix := by
  unfold Obligations.MkDct4BuildsTheMatrix
  refine ⟨encodedAs_row .mkdct4, fun s ad n => ⟨failsFirst _ s, fun h1 hm => ?_⟩⟩
  refine exists_done_buf (exec_mkdct4 ad (by omega) hm) ⟨rfl, rfl, fun hreals ρ i k hi hk => ?_⟩
  rw [hreals]
  exact val_dct4Matrix ρ hi hk

/-- Settles O33: the reals meet the source's properties exactly, so property P1 is at hand in either case, and the
written array is one of the two matrices it speaks of. -/
theorem builtMatricesAreOrthogonal : Obligations.BuiltMatricesAreOrthogonal := by
  unfold Obligations.BuiltMatricesAreOrthogonal
  intro s ad n h1 hm i hi
  obtain ⟨m, hmem, hexec, hrows, hcols⟩ := exec_builder (by omega) hm hi
  refine ⟨_, m, hexec, s.buf_setBuf_self ad m, hrows, hcols, fun hformat ρ a b ha hb => ?_⟩
  have hprops : s.cfg.Tolerable := hformat.elim (realsMeetTheSourceProperties s.cfg) id
  exact hprops.orthogonal ρ n a b h1 ha hb m hmem

end

/-! ## The column transform applier -/

namespace Sys2Proof

/-- The transpose of the transpose is the very array, cells and all (rule R143). -/
theorem Arr.transpose_transpose {x : Arr} (h : x.shaped = true) : x.transpose.transpose = x :=
  Arr.ext_get (Arr.shaped_ofFn _ _ _) h rfl rfl fun _ _ hr hc =>
    (Arr.get_transpose (x := x.transpose) hc hr).trans (Arr.get_transpose hr hc)

namespace Machine

theorem exec_trn {s : State} (ad : RegIx) {sa : RegIx} {x : Arr} (hx : s.buf sa = some x) :
    exec (.trn ad sa) s = .next (s.setBuf ad x.transpose).succeed := by
  change finish _ _ _ = _
  rw [srcBuf_bind hx]; rfl

end Machine

end Sys2Proof

section

open Sys2Proof Sys2Proof.Machine

/-- Settles O34: the body runs to its one write, and row `b * N + i` of the result is the sum over block `b`
(`val_colxfm`). -/
theorem colxfmAppliesTheMatrixToRowBlocks : Obligations.ColxfmAppliesTheMatrixToRowBlocks := by
  unfold Obligations.ColxfmAppliesTheMatrixToRowBlocks
  refine ⟨encodedAs_row .colxfm, fun s ad sa ac => ⟨failsFirst _ s, fun x c hx hc hsq hd => ?_⟩⟩
  refine exists_done_buf (exec_colxfm ad hx hc hsq hd) ⟨rfl, rfl, fun hreals ρ b i j hb hi hj => ?_⟩
  rw [hreals]
  exact val_colxfm ρ (block_lt hd hb hi) hi hj

/-- Settles O35: the written array is the transpose, and a second `TRN` of it writes the transpose's transpose, which
is the first array. -/
theorem trnTransposesExactly : Obligations.TrnTransposesExactly := by
  unfold Obligations.TrnTransposesExactly
  refine ⟨encodedAs_row .trn, fun s ad sa => ⟨failsFirst _ s, fun x hx => ?_⟩⟩
  have hwritten : (s.setBuf ad x.transpose).succeed.buf ad = some x.transpose := s.buf_setBuf_self ad _
  refine ⟨_, x.transpose, exec_trn ad hx, done_setBuf s ad _, hwritten, rfl, rfl,
    fun r c hr hc => Arr.get_transpose hr hc, fun hshaped ae => ⟨_, exec_trn ae hwritten, ?_⟩⟩
  rw [Arr.transpose_transpose hshaped]
  exact State.buf_setBuf_self _ ae x

end

/-! ## The block DCT engine -/

namespace Sys2Proof

/-- A sum over a row-major index of `m` rows of `n` entries, row by row. -/
theorem sum_range_mul (m n : Nat) (f : Nat → Nat → ℝ) :
    ∑ t ∈ Finset.range (m * n), f (t / n) (t % n) = ∑ a ∈ Finset.range m, ∑ b ∈ Finset.range n, f a b := by
  induction m with
  | zero => simp
  | succ m ih =>
    rw [Nat.succ_mul, Finset.sum_range_add, ih, Finset.sum_range_succ]
    congr 1
    refine Finset.sum_congr rfl fun b hb => ?_
    have hb : b < n := Finset.mem_range.mp hb
    rw [Nat.mul_comm m n, Nat.mul_add_div (by omega), Nat.div_eq_of_lt hb, Nat.mul_add_mod, Nat.mod_eq_of_lt hb,
      Nat.add_zero]

/-- The cells of a sub-array are those of the region (rule R158). -/
theorem Arr.toList_sub (x : Arr) (r0 c0 m n : Nat) : (x.sub r0 c0 m n).toList = regionCells x r0 c0 m n :=
  (List.flatMap_def ..).symm

namespace Machine

/-! ### The four commands -/

section Blocks

variable {s : State} {sa : RegIx} {x : Arr} {n n1 n2 : Nat}

/-- The checks that the commands of this engine share: a valid source, block sizes above 0, whole blocks. -/
theorem blocked_bind {α : Type} {zero : Prop} [Decidable zero] (hx : s.buf sa = some x) (h0 : ¬zero)
    (hr : x.rows % n1 = 0) (hc : x.cols % n2 = 0) (k : Arr → Except ErrCode α) :
    (do let y ← s.srcBuf sa
        raiseIf zero .domain
        raiseIf (notBlocked y n1 n2) .dim
        k y) = k x := by
  rw [srcBuf_bind hx, raiseIf_bind h0, raiseIf_bind (not_or.mpr ⟨not_not.mpr hr, not_not.mpr hc⟩)]

theorem exec_dct (ad : RegIx) (hx : s.buf sa = some x) (hn : n ≠ 0) (hr : x.rows % n = 0) (hc : x.cols % n = 0) :
    exec (.dct ad sa n) s = .next (s.setBuf ad (dct s.cfg.num x n)).succeed :=
  congrArg (finish (.dct ad sa n) s) (blocked_bind hx hn hr hc fun y => .ok (s.setBuf ad (dct s.cfg.num y n)))

theorem exec_idct (ad : RegIx) (hx : s.buf sa = some x) (hn : n ≠ 0) (hr : x.rows % n = 0) (hc : x.cols % n = 0) :
    exec (.idct ad sa n) s = .next (s.setBuf ad (idct s.cfg.num x n)).succeed :=
  congrArg (finish (.idct ad sa n) s) (blocked_bind hx hn hr hc fun y => .ok (s.setBuf ad (idct s.cfg.num y n)))

theorem exec_regroup (ad : RegIx) (hx : s.buf sa = some x) (h1 : n1 ≠ 0) (h2 : n2 ≠ 0) (hr : x.rows % n1 = 0)
    (hc : x.cols % n2 = 0) :
    exec (.regroup ad sa n1 n2) s = .next (s.setBuf ad (regroup x n1 n2)).succeed :=
  congrArg (finish (.regroup ad sa n1 n2) s)
    (blocked_bind hx (not_or.mpr ⟨h1, h2⟩) hr hc fun y => .ok (s.setBuf ad (regroup y n1 n2)))

theorem exec_dctbpp (sd : RegIx) (hx : s.buf sa = some x) (hn : n ≠ 0) (hr : x.rows % n = 0) (hc : x.cols % n = 0) :
    exec (.dctbpp sd sa n) s = .next (s.setScal sd (dctBitCost s.cfg.num s.cfg.bin x n)).succeed :=
  congrArg (finish (.dctbpp sd sa n) s)
    (blocked_bind hx hn hr hc fun y => .ok (s.setScal sd (dctBitCost s.cfg.num s.cfg.bin y n)))

end Blocks

/-! ### The transforms -/

/-- The first coefficient of a block is the block's sum over `n` (rule R152). -/
theorem blockTransform_dct2_dc (n : Nat) (X : Nat → Nat → ℝ) :
    blockTransform n (idealDct2 n) X 0 0 = (∑ k ∈ Finset.range n, ∑ l ∈ Finset.range n, X k l) / n := by
  have hentry (v : ℝ) : 1 / Real.sqrt n * v * (1 / Real.sqrt n) = v / n := by
    rw [one_div_mul_eq_div, mul_one_div, div_div, Real.mul_self_sqrt n.cast_nonneg]
  simp only [blockTransform, idealDct2, if_true, hentry, Finset.sum_div]

/-- The columns of a square matrix with orthonormal rows are orthonormal. -/
theorem OrthonormalRows.columns {n : Nat} {C : Nat → Nat → ℝ} (h : OrthonormalRows n C) :
    OrthonormalRows n fun a k => C k a := by
  intro a b ha hb
  have hentry := congrFun (congrFun h.transpose_mul ⟨a, ha⟩) ⟨b, hb⟩
  simpa [Matrix.mul_apply, Matrix.one_apply, squareMatrix, Finset.sum_range] using hentry

/-- `DCT` undoes `IDCT` (rule R154): the transpose of an orthogonal matrix is orthogonal. -/
theorem val_dct_idct (ρ : Nat → ℝ) {x : Arr} {n r c : Nat} (hn : n ≠ 0) (hr : x.rows % n = 0) (hc : x.cols % n = 0)
    (h1 : r < x.rows) (h2 : c < x.cols) : (dct .reals (idct .reals x n) n).val ρ r c = x.val ρ r c := by
  obtain ⟨p, i, hp, hi, rfl⟩ := exists_block hr h1 hn
  obtain ⟨q, j, hq, hj, rfl⟩ := exists_block hc h2 hn
  have orth : OrthonormalRows n fun a k => idealDct2 n k a := OrthonormalRows.columns fun _ _ => idealDct2_orthogonal
  calc (dct .reals (idct .reals x n) n).val ρ (p * n + i) (q * n + j)
      = blockTransform n (idealDct2 n) (fun k l => (idct .reals x n).val ρ (p * n + k) (q * n + l)) i j :=
        val_dct ρ (x := idct .reals x n) hr hc hp hq hi hj
    _ = blockTransform n (idealDct2 n) (blockTransform n (fun a k => idealDct2 n k a)
          fun k l => x.val ρ (p * n + k) (q * n + l)) i j :=
        blockTransform_congr (fun _ _ _ _ => rfl) (fun _ _ hk hl => val_idct ρ hr hc hp hq hk hl) hi hj
    _ = x.val ρ (p * n + i) (q * n + j) := blockTransform_inverse orth _ hi hj

/-! ### Regrouping -/

section BlockCount

variable {m n : Nat} (hm : m % n = 0)

include hm

/-- The number of blocks is a block size too (rule R157). -/
theorem mod_blockCount : m % (m / n) = 0 := Nat.mod_eq_zero_of_dvd (Nat.div_dvd_of_dvd (Nat.dvd_of_mod_eq_zero hm))

/-- With the number of blocks as the block size, the number of blocks is the first size (rule R157). -/
theorem div_blockCount (h : 1 ≤ m) : m / (m / n) = n := Nat.div_div_self (Nat.dvd_of_mod_eq_zero hm) (by omega)

theorem blockCount_ne_zero (h : 1 ≤ m) (hn : n ≠ 0) : m / n ≠ 0 :=
  (Nat.div_ne_zero_iff_of_dvd (Nat.dvd_of_mod_eq_zero hm)).mpr ⟨by omega, hn⟩

/-- `a` groups of `m / n` cells and `b` more cells lie inside `m` cells. -/
theorem group_lt {a b : Nat} (ha : a < n) (hb : b < m / n) : a * (m / n) + b < m := by
  have hpos : 1 ≤ m := (Nat.zero_lt_of_lt hb).trans_le (Nat.div_le_self m n)
  exact block_lt (mod_blockCount hm) (by rwa [div_blockCount hm hpos]) hb

end BlockCount

/-- Rule R156 at the source cell. -/
theorem get_regroup {x : Arr} {n1 n2 br ir bc ic : Nat} (hr : x.rows % n1 = 0) (hc : x.cols % n2 = 0)
    (hbr : br < x.rows / n1) (hir : ir < n1) (hbc : bc < x.cols / n2) (hic : ic < n2) :
    (regroup x n1 n2).get (ir * (x.rows / n1) + br) (ic * (x.cols / n2) + bc) =
      x.get (br * n1 + ir) (bc * n2 + ic) := by
  rw [regroup, Arr.get_ofFn _ (group_lt hr hir hbr) (group_lt hc hic hbc)]
  simp only [Nat.mul_add_mod', Nat.mod_eq_of_lt, hbr, hbc]
  rw [Nat.mul_comm ir, Nat.mul_comm ic, Nat.mul_add_div (by omega), Nat.mul_add_div (by omega), Nat.div_eq_of_lt hbr,
    Nat.div_eq_of_lt hbc, Nat.add_zero, Nat.add_zero]

/-- Regrouping with the transposed size spec restores the array (rule R157): a cell's block and its place in the block
are exchanged twice. -/
theorem regroup_regroup {x : Arr} {n1 n2 : Nat} (hx : x.shaped = true) (h1 : 1 ≤ x.rows) (h2 : 1 ≤ x.cols)
    (hn1 : n1 ≠ 0) (hn2 : n2 ≠ 0) (hr : x.rows % n1 = 0) (hc : x.cols % n2 = 0) :
    regroup (regroup x n1 n2) (x.rows / n1) (x.cols / n2) = x := by
  have hq1 : x.rows / (x.rows / n1) = n1 := div_blockCount hr h1
  have hq2 : x.cols / (x.cols / n2) = n2 := div_blockCount hc h2
  refine Arr.ext_get (Arr.shaped_ofFn _ _ _) hx rfl rfl fun r c hrow hcol => ?_
  obtain ⟨br, ir, hbr, hir, rfl⟩ := exists_block hr hrow hn1
  obtain ⟨bc, ic, hbc, hic, rfl⟩ := exists_block hc hcol hn2
  have hback := get_regroup (x := regroup x n1 n2) (mod_blockCount hr) (mod_blockCount hc)
    (hq1.symm ▸ hir) hbr (hq2.symm ▸ hic) hbc
  simp only [rows_regroup, cols_regroup, hq1, hq2] at hback
  exact hback.trans (get_regroup hr hc hbr hir hbc hic)

/-! ### The bit cost -/

/-- Rule R158 over the reals. -/
theorem val_dctBitCost (ρ : Nat → ℝ) (bin : BinRule) (x : Arr) (n : Nat) :
    (dctBitCost .reals bin x n).val ρ = ∑ a ∈ Finset.range n, ∑ b ∈ Finset.range n,
      idealBpp ρ bin (regionCells x (a * (x.rows / n)) (b * (x.cols / n)) (x.rows / n) (x.cols / n)) *
        ((x.rows / n : Nat) * (x.cols / n : Nat)) := by
  rw [← sum_range_mul, dctBitCost]
  simp only [NumFormat.total_reals, NumFormat.times_reals, NUM.val_sum, NUM.val_times, NUM.val_ofRat, Arr.bpp,
    val_bitsPerPixel, Arr.toList_sub, Nat.cast_mul, Rat.cast_mul, Rat.cast_natCast]

end Machine

end Sys2Proof

section

open Sys2Proof Sys2Proof.Machine

/-- Settles O36: the body runs to its one write, each block of the result is `C * B * C^T` (`val_dct`), and at the
block's first cell the two rows of `C` are constant. -/
theorem dctTransformsEveryBlock : Obligations.DctTransformsEveryBlock := by
  unfold Obligations.DctTransformsEveryBlock
  refine ⟨encodedAs_row .dct, fun s ad sa n => ⟨failsFirst _ s, fun x hx hn hr hc => ?_⟩⟩
  refine exists_done_buf (exec_dct ad hx hn hr hc) ⟨rfl, rfl, fun hreals ρ p q hp hq => ?_⟩
  rw [hreals]
  refine ⟨fun i j hi hj => val_dct ρ hr hc hp hq hi hj, ?_⟩
  have hn : 0 < n := Nat.pos_of_ne_zero hn
  exact (val_dct ρ hr hc hp hq hn hn).trans (blockTransform_dct2_dc n _)

/-- Settles O37: as for `DCT`, with `val_idct`. -/
theorem idctTransformsEveryBlock : Obligations.IdctTransformsEveryBlock := by
  unfold Obligations.IdctTransformsEveryBlock
  refine ⟨encodedAs_row .idct, fun s ad sa n => ⟨failsFirst _ s, fun y hy hn hr hc => ?_⟩⟩
  refine exists_done_buf (exec_idct ad hy hn hr hc) ⟨rfl, rfl, fun hreals ρ p q k l hp hq hk hl => ?_⟩
  rw [hreals]
  exact val_idct ρ hr hc hp hq hk hl

/-- Settles O38: the second command reads what the first one wrote, and the block transforms undo each other; property
P2 covers `DCT` then `IDCT` in every format at once, the reals meeting it exactly. -/
theorem dctAndIdctUndoEachOther : Obligations.DctAndIdctUndoEachOther := by
  unfold Obligations.DctAndIdctUndoEachOther
  intro s ad ae sa n x hx hn hr hc io hio
  have hwritten (y : Arr) : (s.setBuf ad y).succeed.buf ad = some y := s.buf_setBuf_self ad y
  rcases List.mem_pair.mp hio with rfl | rfl
  · refine ⟨_, _, _, exec_dct ad hx hn hr hc, exec_idct ae (hwritten _) hn hr hc, rfl, State.buf_setBuf_self _ ae _,
      rfl, rfl, fun hformat ρ r c h1 h2 => ?_⟩
    have hprops : s.cfg.Tolerable := hformat.elim (realsMeetTheSourceProperties s.cfg) And.left
    exact hprops.blockRoundTrip ρ x n r c hn hr hc h1 h2
  · refine ⟨_, _, _, exec_idct ad hx hn hr hc, exec_dct ae (hwritten _) hn hr hc, rfl, State.buf_setBuf_self _ ae _,
      rfl, rfl, fun hformat ρ r c h1 h2 => ?_⟩
    have hreals : s.cfg.num = .reals := hformat.resolve_right fun h => nomatch h.2
    change s.cfg.near ((dct s.cfg.num (idct s.cfg.num x n) n).val ρ r c) _
    rw [near_reals hreals, hreals]
    exact val_dct_idct ρ hn hr hc h1 h2

/-- Settles O39: the body runs to its one write, and `get_regroup` reads the written array. -/
theorem regroupPermutesCells : Obligations.RegroupPermutesCells := by
  unfold Obligations.RegroupPermutesCells
  refine ⟨encodedAs_row .regroup, fun s ad sa n1 n2 => ⟨failsFirst _ s, fun x hx h1 h2 hr hc => ?_⟩⟩
  exact exists_done_buf (exec_regroup ad hx h1 h2 hr hc)
    ⟨rfl, rfl, fun br ir bc ic hbr hir hbc hic => get_regroup hr hc hbr hir hbc hic⟩

/-- Settles O40: `R/N1` and `W/N2` are block sizes of the regrouped array, so the second command succeeds, and it writes
the first array (`regroup_regroup`). -/
theorem deRegroupRestoresTheArray : Obligations.DeRegroupRestoresTheArray := by
  unfold Obligations.DeRegroupRestoresTheArray
  intro s ad ae sa n1 n2 x hx hshaped h1 h2 hn1 hn2 hr hc
  have hwritten : (s.setBuf ad (regroup x n1 n2)).succeed.buf ad = some (regroup x n1 n2) := s.buf_setBuf_self ad _
  refine ⟨_, _, exec_regroup ad hx hn1 hn2 hr hc, exec_regroup ae hwritten (blockCount_ne_zero hr h1 hn1)
    (blockCount_ne_zero hc h2 hn2) (mod_blockCount hr) (mod_blockCount hc), rfl, ?_⟩
  rw [regroup_regroup hshaped h1 h2 hn1 hn2 hr hc]
  exact State.buf_setBuf_self _ ae x

/-- Settles O41: the body runs to its one write, and the running total over the row-major index is the double sum
(`val_dctBitCost`). -/
theorem dctbppSumsTheSubimageCosts : Obligations.DctbppSumsTheSubimageCosts := by
  unfold Obligations.DctbppSumsTheSubimageCosts
  refine ⟨encodedAs_row .dctbpp, fun s sd sa n => ⟨failsFirst _ s, fun x hx hn hr hc => ?_⟩⟩
  refine exists_done_scal (exec_dctbpp sd hx hn hr hc) fun hreals ρ => ?_
  rw [hreals]
  exact val_dctBitCost ρ s.cfg.bin x n

end

/-! ## The DWT engine

`DWT` and `IDWT` make the same checks, and so do `NLEVDWT` and `NLEVIDWT`: each pair has one lemma for a body that
passes them. What the written cells are over the reals is said by the value lemmas of `Laws/Values.lean`, and that the
inverse commands undo the forward ones by the section on perfect reconstruction. -/

namespace Sys2Proof.Machine

/-! ### The four commands -/

section Dwt

variable {s : State} {sa k1 k2 : RegIx} {x : Arr} {n : Nat}

/-- The checks of `DWT` and `IDWT`: a valid source, two kernels of odd length, even dimensions. -/
theorem filtered_bind {α : Type} (hx : s.buf sa = some x) (hk1 : (s.kern k1).length % 2 = 1)
    (hk2 : (s.kern k2).length % 2 = 1) (hr : x.rows % 2 = 0) (hc : x.cols % 2 = 0)
    (k : Arr → List NUM → List NUM → Except ErrCode α) :
    (do let y ← s.srcBuf sa
        let h1 ← s.srcKern k1
        let h2 ← s.srcKern k2
        raiseIf (evenKernel h1 ∨ evenKernel h2) .kernel
        raiseIf (y.rows % 2 ≠ 0 ∨ y.cols % 2 ≠ 0) .dim
        k y h1 h2) = k x (s.kern k1) (s.kern k2) := by
  have hne {j : RegIx} (h : (s.kern j).length % 2 = 1) : s.kern j ≠ [] := by intro he; simp [he] at h
  have hodd : ¬(evenKernel (s.kern k1) ∨ evenKernel (s.kern k2)) := by simp [evenKernel, hk1, hk2]
  rw [srcBuf_bind hx, srcKern_bind (hne hk1), srcKern_bind (hne hk2), raiseIf_bind hodd,
    raiseIf_bind (not_or.mpr ⟨not_not.mpr hr, not_not.mpr hc⟩)]

theorem exec_dwt (ad : RegIx) (hx : s.buf sa = some x) (hk1 : (s.kern k1).length % 2 = 1)
    (hk2 : (s.kern k2).length % 2 = 1) (hr : x.rows % 2 = 0) (hc : x.cols % 2 = 0) :
    exec (.dwt ad sa k1 k2) s = .next (s.setBuf ad (dwt s.cfg.num x (s.kern k1) (s.kern k2))).succeed :=
  congrArg (finish (.dwt ad sa k1 k2) s)
    (filtered_bind hx hk1 hk2 hr hc fun y h1 h2 => .ok (s.setBuf ad (dwt s.cfg.num y h1 h2)))

theorem exec_idwt (ad : RegIx) (hx : s.buf sa = some x) (hk1 : (s.kern k1).length % 2 = 1)
    (hk2 : (s.kern k2).length % 2 = 1) (hr : x.rows % 2 = 0) (hc : x.cols % 2 = 0) :
    exec (.idwt ad sa k1 k2) s = .next (s.setBuf ad (idwt s.cfg.num x (s.kern k1) (s.kern k2))).succeed :=
  congrArg (finish (.idwt ad sa k1 k2) s)
    (filtered_bind hx hk1 hk2 hr hc fun y g1 g2 => .ok (s.setBuf ad (idwt s.cfg.num y g1 g2)))

/-- The hardwired kernels have odd lengths (rule R26). -/
theorem odd_kern_of_lt {j : RegIx} (hj : j.val < 4) : (s.kern j).length % 2 = 1 := by
  have hrom : ∀ j : RegIx, j.val < 4 → (romKernel j).length % 2 = 1 := by decide
  rw [s.kern_of_lt j hj, hrom j hj]

/-- `DWT` with the default analysis pair in `K0` and `K1` (rule R26). -/
theorem exec_dwt_default (ad : RegIx) (hx : s.buf sa = some x) (hr : x.rows % 2 = 0) (hc : x.cols % 2 = 0) :
    exec (.dwt ad sa 0 1) s = .next (s.setBuf ad (dwt s.cfg.num x kh1 kh2)).succeed :=
  exec_dwt ad hx (odd_kern_of_lt (by decide)) (odd_kern_of_lt (by decide)) hr hc

/-- `IDWT` with the default synthesis pair in `K2` and `K3` (rule R26). -/
theorem exec_idwt_default (ad : RegIx) (hx : s.buf sa = some x) (hr : x.rows % 2 = 0) (hc : x.cols % 2 = 0) :
    exec (.idwt ad sa 2 3) s = .next (s.setBuf ad (idwt s.cfg.num x kg1 kg2)).succeed :=
  exec_idwt ad hx (odd_kern_of_lt (by decide)) (odd_kern_of_lt (by decide)) hr hc

/-- The checks of `NLEVDWT` and `NLEVIDWT`: a valid source whose dimensions `2^n` divides. -/
theorem dyadic_bind {α : Type} (hx : s.buf sa = some x) (hr : x.rows % 2 ^ n = 0) (hc : x.cols % 2 ^ n = 0)
    (k : Arr → Except ErrCode α) :
    (do let y ← s.srcBuf sa
        raiseIf (notDyadic y n) .dim
        k y) = k x := by
  rw [srcBuf_bind hx, raiseIf_bind (not_or.mpr ⟨not_not.mpr hr, not_not.mpr hc⟩)]

theorem exec_nlevdwt (ad : RegIx) (hx : s.buf sa = some x) (hr : x.rows % 2 ^ n = 0) (hc : x.cols % 2 ^ n = 0) :
    exec (.nlevdwt ad sa n) s = .next (s.setBuf ad (nlevdwt s.cfg.num x n)).succeed :=
  congrArg (finish (.nlevdwt ad sa n) s) (dyadic_bind hx hr hc fun y => .ok (s.setBuf ad (nlevdwt s.cfg.num y n)))

theorem exec_nlevidwt (ad : RegIx) (hx : s.buf sa = some x) (hr : x.rows % 2 ^ n = 0) (hc : x.cols % 2 ^ n = 0) :
    exec (.nlevidwt ad sa n) s = .next (s.setBuf ad (nlevidwt s.cfg.num x n)).succeed :=
  congrArg (finish (.nlevidwt ad sa n) s) (dyadic_bind hx hr hc fun y => .ok (s.setBuf ad (nlevidwt s.cfg.num y n)))

end Dwt

/-! ### Shapes -/

section Shapes

variable (f : NumFormat) {x : Arr}

/-- The two halves of an even dimension make it up again, so `DWT` keeps the shape (rule R170). -/
theorem rows_dwt_of_even (hr : x.rows % 2 = 0) (h1 h2 : List NUM) : (dwt f x h1 h2).rows = x.rows := by
  rw [rows_dwt]; omega

theorem cols_dwt_of_even (hc : x.cols % 2 = 0) (h1 h2 : List NUM) : (dwt f x h1 h2).cols = x.cols := by
  rw [cols_dwt]; omega

theorem cols_idwt_of_even (hc : x.cols % 2 = 0) (g1 g2 : List NUM) : (idwt f x g1 g2).cols = x.cols := by
  rw [cols_idwt]; omega

@[simp] theorem rows_nlevdwt (x : Arr) (n : Nat) : (nlevdwt f x n).rows = x.rows := rows_dwtLevels ..
@[simp] theorem cols_nlevdwt (x : Arr) (n : Nat) : (nlevdwt f x n).cols = x.cols := cols_dwtLevels ..
@[simp] theorem rows_nlevidwt (x : Arr) (n : Nat) : (nlevidwt f x n).rows = x.rows := rows_idwtLevels ..
@[simp] theorem cols_nlevidwt (x : Arr) (n : Nat) : (nlevidwt f x n).cols = x.cols := cols_idwtLevels ..

/-- Depth 0 is an exact copy (rules R176, R179). -/
theorem nlevdwt_zero (x : Arr) : nlevdwt f x 0 = x := rfl

theorem nlevidwt_zero (x : Arr) : nlevidwt f x 0 = x := rfl

end Shapes

/-! ### One level over the reals -/

section Ideal

variable (ρ : Nat → ℝ)

/-- The four quadrants of one forward level: the band along the rows is chosen by the column's half, the band down the
columns by the row's half (rule R172). -/
theorem idealDwt_quadrants (h1 h2 : List NUM) {m n r c : Nat} (x : Nat → Nat → ℝ) (hr : r < m / 2) (hc : c < n / 2) :
    idealDwt ρ h1 h2 m n x r c = idealLow ρ h1 m (fun a => idealLow ρ h1 n (x a) c) r ∧
    idealDwt ρ h1 h2 m n x r (n / 2 + c) = idealLow ρ h1 m (fun a => idealHigh ρ h2 n (x a) c) r ∧
    idealDwt ρ h1 h2 m n x (m / 2 + r) c = idealHigh ρ h2 m (fun a => idealLow ρ h1 n (x a) c) r ∧
    idealDwt ρ h1 h2 m n x (m / 2 + r) (n / 2 + c) = idealHigh ρ h2 m (fun a => idealHigh ρ h2 n (x a) c) r := by
  have lower (k t : Nat) : ¬k + t < k := by omega
  simp only [idealDwt, hr, hc, lower, if_true, if_false, Nat.add_sub_cancel_left, and_self]

/-- The horizontal stage of one inverse level reads the row `down` that the vertical stage left, inside the array only
(rule R173). -/
theorem idealIdwt_eq_join (g1 g2 : List NUM) {m n r c : Nat} (y : Nat → Nat → ℝ) (down : Nat → ℝ) (hn : n % 2 = 0)
    (hc : c < n) (hdown : ∀ b, b < n → down b =
      idealInt ρ g1 (m / 2) (fun a => y a b) r + idealInt2 ρ g2 (m / 2) (fun a => y (m / 2 + a) b) r) :
    idealIdwt ρ g1 g2 m n y r c =
      idealInt ρ g1 (n / 2) down c + idealInt2 ρ g2 (n / 2) (fun b => down (n / 2 + b)) c := by
  unfold idealIdwt
  dsimp only
  congr 1
  · exact idealInt_congr ρ g1 (fun b hb => (hdown b (by omega)).symm) (by omega)
  · exact idealInt2_congr ρ g2 (fun b hb => (hdown _ (by omega)).symm) (by omega)

end Ideal

end Sys2Proof.Machine

section

open Sys2Proof Sys2Proof.Machine

/-- Settles O46: the body runs to its one write, its cells are those of one ideal level (`val_dwt`), and that level is
read quadrant by quadrant. -/
theorem dwtFillsTheFourQuadrants : Obligations.DwtFillsTheFourQuadrants := by
  unfold Obligations.DwtFillsTheFourQuadrants
  refine ⟨encodedAs_row .dwt, fun s ad sa k1 k2 => ⟨failsFirst _ s, fun x hx hk1 hk2 hr hc => ?_⟩⟩
  refine exists_done_buf (exec_dwt ad hx hk1 hk2 hr hc)
    ⟨rows_dwt_of_even _ hr _ _, cols_dwt_of_even _ hc _ _, fun hreals ρ r c hrow hcol => ?_⟩
  rw [hreals]
  simp (disch := omega) only [val_dwt]
  exact idealDwt_quadrants ρ _ _ (x.val ρ) hrow hcol

/-- Settles O47: the body runs to its one write, and its cells are those of one ideal inverse level (`val_idwt`), whose
horizontal stage joins the halves of the row `down`. -/
theorem idwtJoinsTheFourQuadrants : Obligations.IdwtJoinsTheFourQuadrants := by
  unfold Obligations.IdwtJoinsTheFourQuadrants
  refine ⟨encodedAs_row .idwt, fun s ad sa k1 k2 => ⟨failsFirst _ s, fun y hy hk1 hk2 hr hc => ?_⟩⟩
  refine exists_done_buf (exec_idwt ad hy hk1 hk2 hr hc)
    ⟨rfl, cols_idwt_of_even _ hc _ _, fun hreals ρ r c down hrow hcol hdown => ?_⟩
  rw [hreals, val_idwt ρ _ _ hr hc hrow hcol]
  exact idealIdwt_eq_join ρ _ _ (y.val ρ) down hc hcol hdown

/-- Settles O48: the second command reads what the first one wrote, in the same shape; the round trip is property P3,
which the reals meet exactly. -/
theorem idwtUndoesDwt : Obligations.IdwtUndoesDwt := by
  unfold Obligations.IdwtUndoesDwt
  intro s ad ae sa x hx hr hc
  have hwritten : (s.setBuf ad (dwt s.cfg.num x kh1 kh2)).succeed.buf ad = some (dwt s.cfg.num x kh1 kh2) :=
    s.buf_setBuf_self ad _
  have hrows := rows_dwt_of_even s.cfg.num hr kh1 kh2
  have hcols := cols_dwt_of_even s.cfg.num hc kh1 kh2
  refine ⟨_, _, _, exec_dwt_default ad hx hr hc, exec_idwt_default ae hwritten (by rwa [hrows]) (by rwa [hcols]), rfl,
    State.buf_setBuf_self _ ae _, hrows, (cols_idwt_of_even _ (by rwa [hcols]) _ _).trans hcols,
    fun hformat ρ r c h1 h2 => ?_⟩
  have hprops : s.cfg.Tolerable := hformat.elim (realsMeetTheSourceProperties s.cfg) id
  exact hprops.dwtRoundTrip ρ x r c hr hc h1 h2

/-- Settles O49: over the reals by `val_dwt_const`; the details of a 256 by 256 array are property P8, which the reals
meet exactly. -/
theorem dwtOfAConstantArrayIsLowLow : Obligations.DwtOfAConstantArrayIsLowLow := by
  unfold Obligations.DwtOfAConstantArrayIsLowLow
  intro s ad sa x ρ v hx hr hc hconst
  refine ⟨_, _, exec_dwt_default ad hx hr hc, s.buf_setBuf_self ad _, rows_dwt_of_even _ hr _ _,
    cols_dwt_of_even _ hc _ _, fun hreals r c h1 h2 => ?_, fun hformat hrows hcols => ?_⟩
  · rw [hreals]
    exact val_dwt_const ρ hr hc hconst h1 h2
  · have hprops : s.cfg.Tolerable := hformat.elim (realsMeetTheSourceProperties s.cfg) id
    rw [hrows, hcols] at hconst
    exact hprops.constantDetail ρ x v hrows hcols hconst

/-- Settles O50: the body runs to its one write, and its cells are those of the ideal levels from the whole array on
(`val_dwtLevels`). -/
theorem nlevdwtRunsTheLevels : Obligations.NlevdwtRunsTheLevels := by
  unfold Obligations.NlevdwtRunsTheLevels
  refine ⟨encodedAs_row .nlevdwt, fun s ad sa n => ⟨failsFirst _ s, fun x hx hr hc => ?_⟩⟩
  refine exists_done_buf (exec_nlevdwt ad hx hr hc) ⟨rows_nlevdwt .., cols_nlevdwt ..,
    fun h0 => h0 ▸ nlevdwt_zero _ x, fun hreals ρ r c h1 h2 => ?_⟩
  rw [hreals]
  exact val_dwtLevels ρ n (x.val ρ) hr hc le_rfl le_rfl (fun _ _ _ _ => rfl) h1 h2

/-- Settles O51: as for `NLEVDWT`, from the region of size original/2^n on (`val_idwtLevels`). -/
theorem nlevidwtRunsTheLevels : Obligations.NlevidwtRunsTheLevels := by
  unfold Obligations.NlevidwtRunsTheLevels
  refine ⟨encodedAs_row .nlevidwt, fun s ad sa n => ⟨failsFirst _ s, fun y hy hr hc => ?_⟩⟩
  refine exists_done_buf (exec_nlevidwt ad hy hr hc) ⟨rows_nlevidwt .., cols_nlevidwt ..,
    fun h0 => h0 ▸ nlevidwt_zero _ y, fun hreals ρ r c h1 h2 => ?_⟩
  rw [hreals]
  exact val_idwtLevels ρ n (y.val ρ) (Nat.div_mul_le_self _ _) (Nat.div_mul_le_self _ _) (fun _ _ _ _ => rfl) h1 h2

/-- Settles O52: the second command reads what the first one wrote, in the same shape; the round trip is
`val_nlevidwt_nlevdwt` over the reals and property P3 at size 256 in another format. -/
theorem nlevidwtUndoesNlevdwt : Obligations.NlevidwtUndoesNlevdwt := by
  unfold Obligations.NlevidwtUndoesNlevdwt
  intro s ad ae sa n x hx hr hc
  have hwritten : (s.setBuf ad (nlevdwt s.cfg.num x n)).succeed.buf ad = some (nlevdwt s.cfg.num x n) :=
    s.buf_setBuf_self ad _
  refine ⟨_, _, _, exec_nlevdwt ad hx hr hc,
    exec_nlevidwt ae hwritten (by rwa [rows_nlevdwt]) (by rwa [cols_nlevdwt]), rfl, State.buf_setBuf_self _ ae _,
    (rows_nlevidwt ..).trans (rows_nlevdwt ..), (cols_nlevidwt ..).trans (cols_nlevdwt ..),
    fun hformat ρ r c h1 h2 => ?_⟩
  change s.cfg.near ((nlevidwt s.cfg.num (nlevdwt s.cfg.num x n) n).val ρ r c) _
  rcases hformat with hreals | ⟨hprops, hrows, hcols⟩
  · rw [near_reals hreals, hreals]
    exact val_nlevidwt_nlevdwt ρ hr hc h1 h2
  · exact hprops.levelsRoundTrip ρ x n r c hrows hcols (hrows ▸ hr) (hrows ▸ h1) (hcols ▸ h2)

end

/-! ## Subband quantisation

`QUANTDWT` writes one band after the other. The bands are listed here with their table entries and regions; no two of
them share an entry or a cell, so each write is still there at the end. -/

namespace Sys2Proof.Machine

section Fold

variable {α β γ : Type} {w : α → β → α} {P : α → Prop} {get : α → γ} {hit : β → Prop} {v : β → γ} {bs : List β} {a : α}

/-- What no write of a list hits stays as it was. -/
theorem foldl_of_miss (hP : ∀ a, P a → ∀ b ∈ bs, P (w a b)) (hw : ∀ a, P a → ∀ b ∈ bs, ¬hit b → get (w a b) = get a)
    (ha : P a) (hmiss : ∀ b ∈ bs, ¬hit b) : get (bs.foldl w a) = get a := by
  refine (List.foldlRecOn (motive := fun a' => P a' ∧ get a' = get a) bs w ⟨ha, rfl⟩ fun a' ⟨hp, hg⟩ b hb => ?_).2
  exact ⟨hP a' hp b hb, (hw a' hp b hb (hmiss b hb)).trans hg⟩

/-- What one write of a list hits and no later one does holds that write's value in the end. -/
theorem foldl_of_hit {b : β} (hP : ∀ a, P a → ∀ b ∈ bs, P (w a b))
    (hw : ∀ a, P a → ∀ b ∈ bs, ¬hit b → get (w a b) = get a) (hv : ∀ a, P a → ∀ b ∈ bs, hit b → get (w a b) = v b)
    (hone : bs.Pairwise fun b d => hit b → ¬hit d) (ha : P a) (hb : b ∈ bs) (hhit : hit b) :
    get (bs.foldl w a) = v b := by
  obtain ⟨before, later, rfl⟩ := List.append_of_mem hb
  have hmem : ∀ d ∈ later, d ∈ before ++ b :: later := fun d hd => by simp [hd]
  have hpre : P (before.foldl w a) := List.foldlRecOn before w ha fun a ha d hd => hP a ha d (by simp [hd])
  have hlater : ∀ d ∈ later, ¬hit d := fun d hd =>
    List.rel_of_pairwise_cons (List.pairwise_append.mp hone).2.1 hd hhit
  rw [List.foldl_append, List.foldl_cons,
    foldl_of_miss (fun a ha d hd => hP a ha d (hmem d hd)) (fun a ha d hd => hw a ha d (hmem d hd)) (hP _ hpre b hb)
      hlater]
  exact hv _ hpre b hb hhit

end Fold

/-! ### The bands -/

/-- A band of `QUANTDWT`: its entry `[row][level]` of the step table and of the entropy table, and its region of the
array (rule R191). -/
structure Band where
  row : Nat
  level : Nat
  top : Nat
  left : Nat
  height : Nat
  width : Nat

/-- LH, HL and HH of one level, each of `m` rows and `n` columns (rule R191). -/
def detailBands (l m n : Nat) : List Band := [⟨0, l, 0, n, m, n⟩, ⟨1, l, m, 0, m, n⟩, ⟨2, l, m, n, m, n⟩]

/-- The bands in the order of `quantLevels`: `k` levels from level `l` on, then the final LL. -/
def bandsFrom : Nat → Nat → Nat → Nat → List Band
  | 0, l, mr, mc => [⟨0, l, 0, 0, mr, mc⟩]
  | k + 1, l, mr, mc => detailBands l (mr / 2) (mc / 2) ++ bandsFrom k (l + 1) (mr / 2) (mc / 2)

/-- The write of one band (rule R191). -/
def writeBand (f : NumFormat) (bin : BinRule) (y t : Arr) (acc : Arr × Arr) (b : Band) : Arr × Arr :=
  quantBand f bin y (t.get b.row b.level) b.row b.level b.top b.left b.height b.width acc

theorem quantLevels_eq_foldl (f : NumFormat) (bin : BinRule) (y t : Arr) (k l mr mc : Nat) (acc : Arr × Arr) :
    quantLevels f bin y t k l mr mc acc = (bandsFrom k l mr mc).foldl (writeBand f bin y t) acc := by
  induction k generalizing l mr mc acc with
  | zero => rfl
  | succ k ih => exact ih ..

/-- The cell `[r][c]` lies in the band's region. -/
def Band.Covers (b : Band) (r c : Nat) : Prop :=
  b.top ≤ r ∧ r < b.top + b.height ∧ b.left ≤ c ∧ c < b.left + b.width

/-- The band has the entry `[o][j]` of the tables. -/
def Band.Owns (b : Band) (o j : Nat) : Prop := o = b.row ∧ j = b.level

/-- A band of the `k` levels from level `l` on stays in their columns of the tables and in the working region; only
the final LL, in row 0, has an entry in the last column. -/
structure Band.Within (k l mr mc : Nat) (b : Band) : Prop where
  row : b.row < 3
  level : l ≤ b.level ∧ b.level ≤ l + k
  last : b.level = l + k → b.row = 0
  rows : b.top + b.height ≤ mr
  cols : b.left + b.width ≤ mc

theorem within_of_mem_detailBands {l m n : Nat} {b : Band} (h : b ∈ detailBands l m n) :
    b.row < 3 ∧ b.level = l ∧ (m ≤ b.top ∨ n ≤ b.left) ∧ b.top + b.height ≤ 2 * m ∧ b.left + b.width ≤ 2 * n := by
  simp only [detailBands, List.mem_cons, List.not_mem_nil, or_false] at h
  rcases h with rfl | rfl | rfl <;> dsimp only <;> omega

theorem within_of_mem_bandsFrom {k l mr mc : Nat} {b : Band} (h : b ∈ bandsFrom k l mr mc) : b.Within k l mr mc := by
  induction k generalizing l mr mc with
  | zero =>
    obtain rfl := List.mem_singleton.mp h
    constructor <;> dsimp only <;> omega
  | succ k ih =>
    rcases List.mem_append.mp h with hd | hl
    · obtain ⟨_, _, _, _, _⟩ := within_of_mem_detailBands hd
      constructor <;> omega
    · obtain ⟨_, _, _, _, _⟩ := ih hl
      constructor <;> omega

/-- Two bands share no table entry and no cell. -/
def Band.Apart (b d : Band) : Prop :=
  (∀ o j, b.Owns o j → ¬d.Owns o j) ∧ ∀ r c, b.Covers r c → ¬d.Covers r c

theorem Band.Apart.of_bounds {b d : Band} (he : b.row ≠ d.row ∨ b.level ≠ d.level)
    (hr : b.top + b.height ≤ d.top ∨ d.top + d.height ≤ b.top ∨ b.left + b.width ≤ d.left ∨
      d.left + d.width ≤ b.left) : b.Apart d := by
  refine ⟨fun o j => ?_, fun r c => ?_⟩
  · unfold Band.Owns; omega
  · unfold Band.Covers; omega

theorem pairwise_apart_detailBands (l m n : Nat) : (detailBands l m n).Pairwise Band.Apart := by
  have h01 : Band.Apart ⟨0, l, 0, n, m, n⟩ ⟨1, l, m, 0, m, n⟩ := .of_bounds (by simp) (by simp)
  have h02 : Band.Apart ⟨0, l, 0, n, m, n⟩ ⟨2, l, m, n, m, n⟩ := .of_bounds (by simp) (by simp)
  have h12 : Band.Apart ⟨1, l, m, 0, m, n⟩ ⟨2, l, m, n, m, n⟩ := .of_bounds (by simp) (by simp)
  simp [detailBands, h01, h02, h12]

/-- The details of a level lie outside the region that the next level works on, and in an earlier column. -/
theorem pairwise_apart_bandsFrom (k l mr mc : Nat) : (bandsFrom k l mr mc).Pairwise Band.Apart := by
  induction k generalizing l mr mc with
  | zero => exact List.pairwise_singleton _ _
  | succ k ih =>
    refine List.pairwise_append.mpr ⟨pairwise_apart_detailBands .., ih .., fun b hb d hd => ?_⟩
    obtain ⟨_, hlevel, hout, _, _⟩ := within_of_mem_detailBands hb
    obtain ⟨_, hnext, _, _, _⟩ := within_of_mem_bandsFrom hd
    exact .of_bounds (by omega) (by omega)

theorem detailBands_subset_bandsFrom {k d : Nat} (l mr mc : Nat) (hd : d < k) :
    detailBands (l + d) (mr / 2 ^ (d + 1)) (mc / 2 ^ (d + 1)) ⊆ bandsFrom k l mr mc := by
  induction d generalizing k l mr mc with
  | zero =>
    obtain ⟨k, rfl⟩ := Nat.exists_eq_succ_of_ne_zero (by omega : k ≠ 0)
    exact List.subset_append_left ..
  | succ d ih =>
    obtain ⟨k, rfl⟩ := Nat.exists_eq_succ_of_ne_zero (by omega : k ≠ 0)
    have h := ih (l + 1) (mr / 2) (mc / 2) (by omega : d < k)
    rw [Nat.div_div_eq_div_mul, Nat.div_div_eq_div_mul, ← Nat.pow_succ', Nat.add_assoc, Nat.add_comm 1 d] at h
    exact List.subset_append_of_subset_right _ h

theorem lowBand_mem_bandsFrom (k l mr mc : Nat) : ⟨0, l + k, 0, 0, mr / 2 ^ k, mc / 2 ^ k⟩ ∈ bandsFrom k l mr mc := by
  induction k generalizing l mr mc with
  | zero => simp [bandsFrom]
  | succ k ih =>
    have h := ih (l + 1) (mr / 2) (mc / 2)
    rw [Nat.div_div_eq_div_mul, Nat.div_div_eq_div_mul, ← Nat.pow_succ', Nat.add_assoc, Nat.add_comm 1 k] at h
    exact List.mem_append_right _ h

/-! ### The result of `quantdwt` -/

section Quantdwt

variable {f : NumFormat} {bin : BinRule} {y t : Arr}

/-- The quantised array has the shape of the source, the entropy table that of the step table (rule R191). -/
structure Outputs (y t : Arr) (acc : Arr × Arr) : Prop where
  rows : acc.1.rows = y.rows
  cols : acc.1.cols = y.cols
  shaped : acc.2.shaped = true
  tableRows : acc.2.rows = 3
  tableCols : acc.2.cols = t.cols

theorem Outputs.writeBand {acc : Arr × Arr} (h : Outputs y t acc) (b : Band) :
    Outputs y t (writeBand f bin y t acc b) :=
  ⟨h.rows, h.cols, Arr.shaped_setCell _ _ _ h.shaped, h.tableRows, h.tableCols⟩

theorem Outputs.initial (y t : Arr) : Outputs y t (y, Arr.zeros 3 t.cols) := ⟨rfl, rfl, Arr.shaped_ofFn .., rfl, rfl⟩

theorem outputs_quantdwt (f : NumFormat) (bin : BinRule) (y t : Arr) : Outputs y t (quantdwt f bin y t) := by
  rw [quantdwt, quantLevels_eq_foldl]
  exact List.foldlRecOn _ _ (.initial y t) fun _ h b _ => h.writeBand b

/-- The band's quantised cells. -/
def Band.quantised (f : NumFormat) (y t : Arr) (b : Band) : Arr :=
  (y.sub b.top b.left b.height b.width).quantise f (t.get b.row b.level)

/-- The band's bit cost: its `bpp` times its number of pixels (rule R191). -/
def Band.cost (f : NumFormat) (bin : BinRule) (y t : Arr) (b : Band) : NUM :=
  f.times ((b.quantised f y t).bpp f bin) (NUM.ofRat ((b.height * b.width : Nat) : Rat))

theorem writeBand_eq (acc : Arr × Arr) (b : Band) : writeBand f bin y t acc b =
    (acc.1.paste b.top b.left (b.quantised f y t), acc.2.setCell b.row b.level (b.cost f bin y t)) := rfl

theorem Band.get_quantised {b : Band} {r c : Nat} (hr : r < b.height) (hc : c < b.width) :
    (b.quantised f y t).get r c = (y.get (b.top + r) (b.left + c)).quantise f (t.get b.row b.level) := by
  rw [Band.quantised, Arr.quantise, Arr.get_map hr hc, Arr.get_sub hr hc]

theorem get_writeBand_of_covers {acc : Arr × Arr} {b : Band} {r c : Nat} (h : Outputs y t acc) (hr : r < y.rows)
    (hc : c < y.cols) (hb : b.Covers r c) :
    (writeBand f bin y t acc b).1.get r c = (y.get r c).quantise f (t.get b.row b.level) := by
  obtain ⟨h1, h2, h3, h4⟩ := id hb
  rw [writeBand_eq, Arr.paste, Arr.get_ofFn _ (h.rows ▸ hr) (h.cols ▸ hc)]
  refine (if_pos hb).trans ?_
  rw [Band.get_quantised (by omega) (by omega), Nat.add_sub_cancel' h1, Nat.add_sub_cancel' h3]

theorem get_writeBand_of_not_covers {acc : Arr × Arr} {b : Band} {r c : Nat} (h : Outputs y t acc) (hr : r < y.rows)
    (hc : c < y.cols) (hb : ¬b.Covers r c) : (writeBand f bin y t acc b).1.get r c = acc.1.get r c := by
  rw [writeBand_eq, Arr.paste, Arr.get_ofFn _ (h.rows ▸ hr) (h.cols ▸ hc)]
  exact if_neg hb

/-- Every cell of a band is quantised with the band's entry of the step table (rule R191). -/
theorem get_quantdwt (f : NumFormat) (bin : BinRule) {b : Band} (hb : b ∈ bandsFrom (t.cols - 1) 0 y.rows y.cols)
    {r c : Nat} (hr : r < b.height) (hc : c < b.width) : (quantdwt f bin y t).1.get (b.top + r) (b.left + c) =
      (y.get (b.top + r) (b.left + c)).quantise f (t.get b.row b.level) := by
  obtain ⟨_, _, _, hheight, hwidth⟩ := within_of_mem_bandsFrom hb
  have hrow : b.top + r < y.rows := by omega
  have hcol : b.left + c < y.cols := by omega
  have hcovers : b.Covers (b.top + r) (b.left + c) := by unfold Band.Covers; omega
  rw [quantdwt, quantLevels_eq_foldl]
  exact foldl_of_hit (P := Outputs y t) (get := fun acc => acc.1.get (b.top + r) (b.left + c))
    (hit := fun d => d.Covers (b.top + r) (b.left + c))
    (v := fun d => (y.get (b.top + r) (b.left + c)).quantise f (t.get d.row d.level))
    (fun _ h d _ => h.writeBand d) (fun _ h _ _ => get_writeBand_of_not_covers h hrow hcol)
    (fun _ h _ _ => get_writeBand_of_covers h hrow hcol) ((pairwise_apart_bandsFrom ..).imp fun hd => hd.2 _ _)
    (.initial y t) hb hcovers

section Entries

variable (ht : 1 ≤ t.cols)

include ht

theorem entry_writeBand {b : Band} (hb : b ∈ bandsFrom (t.cols - 1) 0 y.rows y.cols) {acc : Arr × Arr}
    (h : Outputs y t acc) (o j : Nat) : (writeBand f bin y t acc b).2.get o j =
      if o = b.row ∧ j = b.level then b.cost f bin y t else acc.2.get o j := by
  obtain ⟨hrow, hlevel, _, _, _⟩ := within_of_mem_bandsFrom hb
  exact Arr.get_setCell _ h.shaped (h.tableRows ▸ hrow) (h.tableCols ▸ by omega) o j

/-- Every band's bit cost is in the band's entry of the entropy table (rule R191). -/
theorem entry_quantdwt (f : NumFormat) (bin : BinRule) {b : Band}
    (hb : b ∈ bandsFrom (t.cols - 1) 0 y.rows y.cols) :
    (quantdwt f bin y t).2.get b.row b.level = b.cost f bin y t := by
  rw [quantdwt, quantLevels_eq_foldl]
  exact foldl_of_hit (P := Outputs y t) (get := fun acc => acc.2.get b.row b.level)
    (hit := fun d => d.Owns b.row b.level) (fun _ h d _ => h.writeBand d)
    (fun _ h d hd hmiss => (entry_writeBand ht hd h ..).trans (if_neg hmiss))
    (fun _ h d hd hhit => (entry_writeBand ht hd h ..).trans (if_pos hhit))
    ((pairwise_apart_bandsFrom ..).imp fun hd => hd.1 _ _) (.initial y t) hb ⟨rfl, rfl⟩

/-- No band has an entry in the last column below row 0, so those stay exact zeros (rule R193). -/
theorem entry_quantdwt_unused (f : NumFormat) (bin : BinRule) (y : Arr) {o : Nat} (ho : o ≠ 0) :
    (quantdwt f bin y t).2.get o (t.cols - 1) = NUM.zero := by
  have hmiss : ∀ b ∈ bandsFrom (t.cols - 1) 0 y.rows y.cols, ¬b.Owns o (t.cols - 1) := fun b hb ⟨hrow, hlevel⟩ =>
    ho (hrow.trans ((within_of_mem_bandsFrom hb).last (by omega)))
  rw [quantdwt, quantLevels_eq_foldl]
  exact (foldl_of_miss (P := Outputs y t) (get := fun acc => acc.2.get o (t.cols - 1)) (fun _ h d _ => h.writeBand d)
    (fun _ h d hd hd' => (entry_writeBand ht hd h ..).trans (if_neg hd')) (.initial y t) hmiss).trans
    (Arr.get_zeros ..)

end Entries

/-- The cells whose `bpp` is taken are those that stand in the result. -/
theorem toList_quantised (f : NumFormat) (bin : BinRule) {b : Band}
    (hb : b ∈ bandsFrom (t.cols - 1) 0 y.rows y.cols) :
    (b.quantised f y t).toList = regionCells (quantdwt f bin y t).1 b.top b.left b.height b.width := by
  have hcells : b.quantised f y t = (quantdwt f bin y t).1.sub b.top b.left b.height b.width :=
    Arr.ext_get (Arr.shaped_ofFn ..) (Arr.shaped_ofFn ..) rfl rfl fun r c (hr : r < b.height) (hc : c < b.width) => by
      rw [Band.get_quantised hr hc, Arr.get_sub hr hc, get_quantdwt f bin hb hr hc]
  rw [hcells, Arr.toList_sub]

end Quantdwt

/-- Rule R191 over the reals, for one band: its cells and its entry of the entropy table. -/
theorem val_quantdwt (ρ : Nat → ℝ) (bin : BinRule) {y t : Arr} (ht : 1 ≤ t.cols) {b : Band}
    (hb : b ∈ bandsFrom (t.cols - 1) 0 y.rows y.cols) :
    (∀ r c, r < b.height → c < b.width → (quantdwt .reals bin y t).1.val ρ (b.top + r) (b.left + c) =
      idealQuantise (y.val ρ (b.top + r) (b.left + c)) (t.val ρ b.row b.level)) ∧
    (quantdwt .reals bin y t).2.val ρ b.row b.level =
      idealBpp ρ bin (regionCells (quantdwt .reals bin y t).1 b.top b.left b.height b.width) *
        (b.height * b.width) := by
  refine ⟨fun r c hr hc => ?_, ?_⟩
  · rw [Arr.val, get_quantdwt .reals bin hb hr hc, NUM.val_quantise]; rfl
  · rw [Arr.val, entry_quantdwt ht .reals bin hb, Band.cost, Arr.bpp, toList_quantised .reals bin hb]
    simp

/-! ### The command -/

section Command

variable {s : State}

theorem done_setBuf_setBuf (s : State) (b d : RegIx) (x y : Arr) :
    Done [b, d] [] s ((s.setBuf b x).setBuf d y).succeed := by
  refine ⟨rfl, fun b' hb => ?_, fun _ _ => rfl, rfl, rfl, rfl, rfl, rfl, rfl, rfl, rfl, rfl, rfl, rfl, rfl⟩
  obtain ⟨h1, h2⟩ : b' ≠ b ∧ b' ≠ d := by simpa using hb
  rw [State.buf_congr (State.succeed_bufs _), State.buf_setBuf, if_neg h2, State.buf_setBuf, if_neg h1]

/-- A command that ends with the writes of two different buffers. -/
theorem exists_done_two_bufs {i : Instr} {ad ae : RegIx} {x y : Arr} {P : Arr → Arr → Prop} (hne : ad ≠ ae)
    (h : exec i s = .next ((s.setBuf ad x).setBuf ae y).succeed) (hxy : P x y) :
    ∃ t q e, exec i s = .next t ∧ Done [ad, ae] [] s t ∧ t.buf ad = some q ∧ t.buf ae = some e ∧ P q e := by
  refine ⟨_, x, y, h, done_setBuf_setBuf s ad ae x y, ?_, State.buf_setBuf_self _ ae y, hxy⟩
  rw [State.buf_congr (State.succeed_bufs _), State.buf_setBuf, if_neg hne, State.buf_setBuf_self]

theorem exec_quantdwt {ad ae sa ta : RegIx} {x g : Arr} (hne : ad ≠ ae) (hx : s.buf sa = some x)
    (hg : s.buf ta = some g) (h3 : g.rows = 3) (hr : x.rows % 2 ^ (g.cols - 1) = 0)
    (hc : x.cols % 2 ^ (g.cols - 1) = 0) :
    exec (.quantdwt ad ae sa ta) s = .next ((s.setBuf ad (quantdwt s.cfg.num s.cfg.bin x g).1).setBuf ae
      (quantdwt s.cfg.num s.cfg.bin x g).2).succeed := by
  change finish _ _ _ = _
  rw [raiseIf_bind hne, srcBuf_bind hx, srcBuf_bind hg, raiseIf_bind (not_not.mpr h3),
    raiseIf_bind (not_or.mpr ⟨not_not.mpr hr, not_not.mpr hc⟩)]
  rfl

/-- A word of `QUANTDWT`'s row with different destinations carries it (rules R97, R101). -/
theorem decode_quantdwt {w : Word} (hw : w &&& Opcode.quantdwt.mask = Opcode.quantdwt.pattern)
    (hne : regField w 23 ≠ regField w 14) :
    decode w = .ok (.quantdwt (regField w 23) (regField w 14) (regField w 20) (regField w 17)) :=
  decode_eq_ok_iff_match.mpr ⟨.quantdwt, hw, fun h => hne h.2, rfl⟩

end Command

/-! ## The energy probe -/

theorem exec_energyz {s : State} (sd : RegIx) {n layer i : Nat} (hlayer : layer ≤ n) (hi : i ≤ 2)
    (hlast : layer = n → i = 0) (hsize : s.imgSize.toNat % 2 ^ n = 0) : exec (.energyz sd n layer i) s =
      .next (s.setScal sd (energyZ s.cfg.num s.imgSize.toNat n layer i)).succeed := by
  change finish _ _ _ = _
  rw [raiseIf_bind (not_lt.mpr hlayer), raiseIf_bind (not_lt.mpr hi), raiseIf_bind (fun h => h.2 (hlast h.1)),
    raiseIf_bind (not_not.mpr hsize)]
  rfl

section Energy

variable (ρ : Nat → ℝ)

theorem val_sumOfSquares (x : Arr) : (sumOfSquares .reals x).val ρ =
    ∑ a ∈ Finset.range x.rows, ∑ b ∈ Finset.range x.cols, x.val ρ a b ^ 2 := by
  rw [← sum_range_mul, sumOfSquares]
  simp only [NumFormat.sum_reals, NumFormat.times_reals, NUM.val_sum, NUM.val_times, Arr.val, pow_two]

theorem val_impulseArray {size r c : Nat} (pos : Nat × Nat) (hr : r < size) (hc : c < size) :
    (impulseArray size pos).val ρ r c = if r = pos.1 ∧ c = pos.2 then 100 else 0 := by
  rw [Arr.val, impulseArray, Arr.get_ofFn _ hr hc, apply_ite (NUM.val ρ), NUM.val_ofRat, NUM.val_zero, impulse]
  norm_num

/-- The energy of the reconstruction of the impulse, over the reals (rule R196). -/
theorem val_energyZ (size n layer i : Nat) : (energyZ .reals size n layer i).val ρ =
    ∑ a ∈ Finset.range size, ∑ b ∈ Finset.range size, idealIdwtLevels ρ n (size / 2 ^ n) (size / 2 ^ n)
      (fun r c => if r = (impulsePosition size n layer i).1 ∧ c = (impulsePosition size n layer i).2 then 100 else 0)
      a b ^ 2 := by
  rw [energyZ, val_sumOfSquares, rows_nlevidwt, cols_nlevidwt]
  refine Finset.sum_congr rfl fun a ha => Finset.sum_congr rfl fun b hb => congrArg (· ^ 2) ?_
  exact val_idwtLevels ρ n _ (Nat.div_mul_le_self _ _) (Nat.div_mul_le_self _ _)
    (fun r c hr hc => val_impulseArray ρ _ hr hc) (Finset.mem_range.mp ha) (Finset.mem_range.mp hb)

end Energy

/-- The centres of LH, HL and HH of level `layer`, of side `m` (rule R197). -/
theorem impulsePosition_detail {size n layer m : Nat} (h : layer < n) (hm : m = size / 2 ^ (layer + 1)) :
    impulsePosition size n layer 0 = (m / 2, m + m / 2) ∧ impulsePosition size n layer 1 = (m + m / 2, m / 2) ∧
    impulsePosition size n layer 2 = (m + m / 2, m + m / 2) := by
  simp [impulsePosition, h, hm]

/-- The centre of the final LL (rule R197). -/
theorem impulsePosition_low (size n i : Nat) :
    impulsePosition size n n i = (size / 2 ^ n / 2, size / 2 ^ n / 2) := by
  simp [impulsePosition]

end Sys2Proof.Machine

section

open Sys2Proof Sys2Proof.Machine

/-- Settles O53: the body runs to its two writes; the bands share no cell and no entry, so every band's cells and cost
stand in the result (`val_quantdwt`), and the two entries that no band has keep their zeros. -/
theorem quantdwtQuantisesEveryBand : Obligations.QuantdwtQuantisesEveryBand := by
  unfold Obligations.QuantdwtQuantisesEveryBand
  refine ⟨fun w => decode_quantdwt, fun s ad ae sa ta => ⟨failsFirst _ s, fun x g hne hx hg h3 h1 hr hc => ?_⟩⟩
  have hout := outputs_quantdwt s.cfg.num s.cfg.bin x g
  refine exists_done_two_bufs hne (exec_quantdwt hne hx hg h3 hr hc)
    ⟨hout.rows, hout.cols, hout.tableRows, hout.tableCols, fun hreals ρ l m k hl hm hk => ?details,
      fun hreals ρ n m k hn hm hk => ?low, entry_quantdwt_unused h1 _ _ x (by decide),
      entry_quantdwt_unused h1 _ _ x (by decide)⟩
  case details =>
    have hsub := detailBands_subset_bandsFrom 0 x.rows x.cols hl
    rw [Nat.zero_add, ← hm, ← hk] at hsub
    obtain ⟨hlh, elh⟩ := val_quantdwt ρ s.cfg.bin h1 (b := ⟨0, l, 0, k, m, k⟩) (hsub (by simp [detailBands]))
    obtain ⟨hhl, ehl⟩ := val_quantdwt ρ s.cfg.bin h1 (b := ⟨1, l, m, 0, m, k⟩) (hsub (by simp [detailBands]))
    obtain ⟨hhh, ehh⟩ := val_quantdwt ρ s.cfg.bin h1 (b := ⟨2, l, m, k, m, k⟩) (hsub (by simp [detailBands]))
    simp only [Nat.zero_add] at hlh hhl
    rw [hreals]
    exact ⟨fun r c hr hc => ⟨hlh r c hr hc, hhl r c hr hc, hhh r c hr hc⟩, elh, ehl, ehh⟩
  case low =>
    subst hn
    have hmem := lowBand_mem_bandsFrom (g.cols - 1) 0 x.rows x.cols
    rw [Nat.zero_add, ← hm, ← hk] at hmem
    obtain ⟨hll, ell⟩ := val_quantdwt ρ s.cfg.bin h1 hmem
    simp only [Nat.zero_add] at hll
    rw [hreals]
    exact ⟨hll, ell⟩

/-- Settles O54: in each of the four cases the checks pass and the impulse stands where rule R197 says; the written
value is the energy of the ideal inverse levels from there (`val_energyZ`). -/
theorem energyzMeasuresTheImpulseResponse : Obligations.EnergyzMeasuresTheImpulseResponse := by
  unfold Obligations.EnergyzMeasuresTheImpulseResponse
  refine ⟨encodedAs_row .energyz, fun s sd n layer i => ⟨failsFirst _ s, fun size pr pc hsize hn hpos => ?_⟩⟩
  obtain ⟨hlayer, hi, hlast, hcentre⟩ : layer ≤ n ∧ i ≤ 2 ∧ (layer = n → i = 0) ∧
      impulsePosition size n layer i = (pr, pc) := by
    rcases hpos with ⟨hl, rfl, rfl, rfl⟩ | ⟨hl, rfl, rfl, rfl⟩ | ⟨hl, rfl, rfl, rfl⟩ | ⟨rfl, rfl, rfl, rfl⟩
    · exact ⟨by omega, by omega, by omega, (impulsePosition_detail hl rfl).1⟩
    · exact ⟨by omega, by omega, by omega, (impulsePosition_detail hl rfl).2.1⟩
    · exact ⟨by omega, by omega, by omega, (impulsePosition_detail hl rfl).2.2⟩
    · exact ⟨le_rfl, by omega, fun _ => rfl, impulsePosition_low size layer 0⟩
  subst hsize
  refine exists_done_scal (exec_energyz sd hlayer hi hlast hn) fun hreals ρ => ?_
  rw [hreals, val_energyZ, hcentre]

end

/-! ## The quantiser

Over the reals `quantise` with a positive step is odd, so what is claimed of it is proved on the non-negative numbers,
where it is `ceil(x/step - 1/2) * step` (rules R212, R213). -/

namespace Sys2Proof

/-- Odd symmetry, for every step (rule R213). -/
theorem idealQuantise_neg (x s : ℝ) : idealQuantise (-x) s = -idealQuantise x s := by
  by_cases hs : s ≤ 0
  · simp only [idealQuantise, if_pos hs]
  · simp only [idealQuantise, if_neg hs, Left.sign_neg, SignType.coe_neg, abs_neg, neg_mul]

@[simp] theorem idealQuantise_zero (s : ℝ) : idealQuantise 0 s = 0 := by
  rw [← self_eq_neg, ← idealQuantise_neg, neg_zero]

section PositiveStep

variable {s : ℝ} (hs : 0 < s)

include hs

theorem idealQuantise_of_nonneg {x : ℝ} (hx : 0 ≤ x) : idealQuantise x s = ⌈x / s - 1 / 2⌉ * s := by
  have hquot : 0 ≤ x / s := div_nonneg hx hs.le
  have hlevel : 0 ≤ ⌈x / s - 1 / 2⌉ := Int.ceil_nonneg_of_neg_one_lt (by linarith)
  rcases hx.eq_or_lt with rfl | hpos
  · have hzero : ⌈-(1 / 2 : ℝ)⌉ = 0 := by norm_num [Int.ceil_eq_iff]
    rw [idealQuantise_zero, zero_div, zero_sub, hzero, Int.cast_zero, zero_mul]
  · have hcast : ((⌈x / s - 1 / 2⌉.toNat : ℤ) : ℝ) = ⌈x / s - 1 / 2⌉ := by rw [Int.toNat_of_nonneg hlevel]
    rw [idealQuantise_of_pos hs, abs_of_nonneg hx, sign_pos hpos, SignType.coe_one, one_mul, ← Int.cast_natCast, hcast]

/-- The results are integer multiples of the step (rule R213). -/
theorem exists_idealQuantise_eq_mul (x : ℝ) : ∃ k : ℤ, idealQuantise x s = k * s := by
  rcases le_total 0 x with hx | hx
  · exact ⟨_, idealQuantise_of_nonneg hs hx⟩
  · refine ⟨-⌈-x / s - 1 / 2⌉, ?_⟩
    rw [← neg_neg x, idealQuantise_neg, idealQuantise_of_nonneg hs (neg_nonneg.mpr hx), neg_neg, Int.cast_neg, neg_mul]

/-- Integer multiples of the step are fixed points. -/
theorem idealQuantise_mul (k : ℤ) : idealQuantise (k * s) s = k * s := by
  have hnat (n : Nat) : idealQuantise (n * s) s = n * s := by
    have hlevel : ⌈(n : ℝ) - 1 / 2⌉ = n := Int.ceil_eq_iff.mpr ⟨by push_cast; linarith, by push_cast; linarith⟩
    rw [idealQuantise_of_nonneg hs (by positivity), mul_div_cancel_right₀ _ hs.ne', hlevel, Int.cast_natCast]
  obtain ⟨n, rfl | rfl⟩ := k.eq_nat_or_neg
  · exact_mod_cast hnat n
  · rw [Int.cast_neg, neg_mul, idealQuantise_neg, Int.cast_natCast, hnat]

/-- Idempotence (rule R213). -/
theorem idealQuantise_idealQuantise (x : ℝ) : idealQuantise (idealQuantise x s) s = idealQuantise x s := by
  obtain ⟨k, hk⟩ := exists_idealQuantise_eq_mul hs x
  rw [hk, idealQuantise_mul hs]

/-- The error is at most half a step (rule R213). -/
theorem abs_idealQuantise_sub_le (x : ℝ) : |idealQuantise x s - x| ≤ s / 2 := by
  have hnonneg (y : ℝ) (hy : 0 ≤ y) : |idealQuantise y s - y| ≤ s / 2 := by
    have hround : |(⌈y / s - 1 / 2⌉ : ℝ) - y / s| ≤ 1 / 2 := by
      have hlow := Int.le_ceil (y / s - 1 / 2)
      have hhigh := Int.ceil_lt_add_one (y / s - 1 / 2)
      exact abs_le.mpr ⟨by linarith, by linarith⟩
    calc |idealQuantise y s - y| = |(⌈y / s - 1 / 2⌉ - y / s) * s| := by
          rw [idealQuantise_of_nonneg hs hy, sub_mul, div_mul_cancel₀ _ hs.ne']
      _ = |(⌈y / s - 1 / 2⌉ : ℝ) - y / s| * s := by rw [abs_mul, abs_of_pos hs]
      _ ≤ 1 / 2 * s := mul_le_mul_of_nonneg_right hround hs.le
      _ = s / 2 := one_div_mul_eq_div 2 s
  rcases le_total 0 x with hx | hx
  · exact hnonneg x hx
  · have h := hnonneg (-x) (neg_nonneg.mpr hx)
    rwa [idealQuantise_neg, neg_sub_neg, abs_sub_comm] at h

theorem monotone_idealQuantise : Monotone (idealQuantise · s) := by
  refine monotone_of_odd_of_monotoneOn_nonneg (idealQuantise_neg · s) fun x hx y hy hxy => ?_
  have hlevel : ⌈x / s - 1 / 2⌉ ≤ ⌈y / s - 1 / 2⌉ :=
    Int.ceil_le_ceil (sub_le_sub_right (div_le_div_of_nonneg_right hxy hs.le) _)
  rw [idealQuantise_of_nonneg hs hx, idealQuantise_of_nonneg hs hy]
  exact mul_le_mul_of_nonneg_right (Int.cast_le.mpr hlevel) hs.le

end PositiveStep

/-- A rational step of at most 0 copies the value itself, in every format (rules R9, R212). -/
theorem NUM.quantise_ofRat_nonpos (f : NumFormat) (x : NUM) {a : Rat} (ha : a ≤ 0) :
    x.quantise f (NUM.ofRat a) = x := by
  simp [NUM.quantise, NUM.ofRat, NUM.bounds, Alg.ofRat, Alg.bounds, ha]

end Sys2Proof

section

open Sys2Proof Sys2Proof.Machine

/-- Settles O55: the body runs to its one write, and each written cell is `quantise` of the source's cell, which over
the reals is the formula of rule R212. -/
theorem quantiseRoundsEveryCell : Obligations.QuantiseRoundsEveryCell := by
  unfold Obligations.QuantiseRoundsEveryCell
  refine ⟨encodedAs_row .quantise, fun s ad sa ss => ⟨failsFirst _ s, fun x g hx hg => ?_⟩⟩
  refine exists_done_buf (exec_quantise ad hx hg)
    ⟨rfl, rfl, fun ρ r c hr hc => ?values, fun a ha hle r c hr hc => ?copies⟩
  case values =>
    rw [val_arr_quantise ρ s.cfg.num g hr hc]
    refine ⟨fun hle => s.cfg.num.quantiseVal_nonpos _ hle, fun hreals hpos => ?_⟩
    rw [hreals, NumFormat.quantiseVal_reals, idealQuantise, if_neg (not_le.mpr hpos)]
  case copies =>
    rw [ha, Arr.quantise, Arr.get_map hr hc, NUM.quantise_ofRat_nonpos _ _ hle]

/-- Settles O56: the properties are those of `quantise` over the reals. -/
theorem quantiseProperties : Obligations.QuantiseProperties := by
  unfold Obligations.QuantiseProperties
  intro ρ g x y
  simp only [NUM.val_quantise, NumFormat.quantiseVal_reals]
  refine ⟨fun hg => ⟨fun hy => ?odd, idealQuantise_idealQuantise hg _, abs_idealQuantise_sub_le hg _,
    fun hxy => monotone_idealQuantise hg hxy, exists_idealQuantise_eq_mul hg _⟩, fun hx => ?zero⟩
  case odd => rw [hy, idealQuantise_neg]
  case zero => rw [hx, idealQuantise_zero]

end

/-! ## The bit-cost estimator

With `T` cells and `count b` of them in bin `b`, the entropy is the mean of `log2 (T / count b)` over the cells, and
`log2 T` exceeds it by the mean of `log2 (count b)`. Both are means of non-negative numbers, which gives the bounds and
says when each is reached (rule R217). -/

namespace Sys2Proof

/-! ### Means over the cells -/

/-- The mean over the cells of a function of their bins. -/
noncomputable def binMean (bins : List ℤ) (f : ℤ → ℝ) : ℝ :=
  ∑ b ∈ bins.toFinset, (bins.count b : ℝ) / bins.length * f b

section Mean

variable {bins : List ℤ} {b : ℤ}

theorem one_le_count (hb : b ∈ bins) : (1 : ℝ) ≤ bins.count b := by exact_mod_cast List.count_pos_iff.mpr hb

theorem share_pos (hb : b ∈ bins) : 0 < (bins.count b : ℝ) / bins.length :=
  div_pos (by exact_mod_cast List.count_pos_iff.mpr hb) (by exact_mod_cast List.length_pos_of_mem hb)

theorem one_le_length_div_count (hb : b ∈ bins) : (1 : ℝ) ≤ bins.length / bins.count b :=
  (one_le_div (zero_lt_one.trans_le (one_le_count hb))).mpr (by exact_mod_cast List.count_le_length)

theorem binMean_const (hne : bins ≠ []) (v : ℝ) : binMean bins (fun _ => v) = v := by
  have hlength : (bins.length : ℝ) ≠ 0 := by exact_mod_cast (List.length_pos_of_ne_nil hne).ne'
  rw [binMean, ← Finset.sum_mul, ← Finset.sum_div, ← Nat.cast_sum, List.sum_toFinset_count_eq_length, div_self hlength,
    one_mul]

variable {f : ℤ → ℝ} (hf : ∀ b ∈ bins, 0 ≤ f b)

include hf

theorem binMean_nonneg : 0 ≤ binMean bins f :=
  Finset.sum_nonneg fun b hb =>
    have hb := List.mem_toFinset.mp hb
    mul_nonneg (share_pos hb).le (hf b hb)

theorem binMean_eq_zero_iff : binMean bins f = 0 ↔ ∀ b ∈ bins, f b = 0 := by
  have hterm (b : ℤ) (hb : b ∈ bins.toFinset) : 0 ≤ (bins.count b : ℝ) / bins.length * f b :=
    have hb := List.mem_toFinset.mp hb
    mul_nonneg (share_pos hb).le (hf b hb)
  rw [binMean, Finset.sum_eq_zero_iff_of_nonneg hterm]
  simp only [List.mem_toFinset]
  exact forall₂_congr fun b hb => mul_eq_zero_iff_left (share_pos hb).ne'

end Mean

/-! ### The entropy -/

theorem logb_two_eq_zero_iff {v : ℝ} (hv : 1 ≤ v) : Real.logb 2 v = 0 ↔ v = 1 := by
  refine ⟨fun h => ?_, fun h => by rw [h, Real.logb_one]⟩
  by_contra hne
  exact (Real.logb_pos one_lt_two (lt_of_le_of_ne hv (Ne.symm hne))).ne' h

section Entropy

variable {bins : List ℤ}

theorem logb_length_div_count_nonneg : ∀ b ∈ bins, 0 ≤ Real.logb 2 (bins.length / bins.count b) :=
  fun _ hb => Real.logb_nonneg one_lt_two (one_le_length_div_count hb)

theorem logb_count_nonneg : ∀ b ∈ bins, 0 ≤ Real.logb 2 (bins.count b) :=
  fun _ hb => Real.logb_nonneg one_lt_two (one_le_count hb)

theorem idealEntropy_eq_binMean (bins : List ℤ) :
    idealEntropy bins = binMean bins fun b => Real.logb 2 (bins.length / bins.count b) := by
  rw [idealEntropy, binMean, ← Finset.sum_neg_distrib]
  refine Finset.sum_congr rfl fun b _ => ?_
  rw [← mul_neg, ← Real.logb_inv, inv_div]

theorem logb_length_sub_idealEntropy (hne : bins ≠ []) :
    Real.logb 2 bins.length - idealEntropy bins = binMean bins fun b => Real.logb 2 (bins.count b) := by
  rw [idealEntropy_eq_binMean, ← binMean_const hne (Real.logb 2 bins.length), binMean, binMean, binMean,
    ← Finset.sum_sub_distrib]
  refine Finset.sum_congr rfl fun b hb => ?_
  have hb := List.mem_toFinset.mp hb
  have hlength : (bins.length : ℝ) ≠ 0 := by exact_mod_cast (List.length_pos_of_mem hb).ne'
  rw [← mul_sub, Real.logb_div hlength (zero_lt_one.trans_le (one_le_count hb)).ne', sub_sub_cancel]

theorem idealEntropy_nonneg (bins : List ℤ) : 0 ≤ idealEntropy bins := by
  rw [idealEntropy_eq_binMean]
  exact binMean_nonneg logb_length_div_count_nonneg

theorem idealEntropy_le_logb_length (hne : bins ≠ []) : idealEntropy bins ≤ Real.logb 2 bins.length := by
  rw [← sub_nonneg, logb_length_sub_idealEntropy hne]
  exact binMean_nonneg logb_count_nonneg

/-- No cost exactly when one bin holds all the cells (rule R217). -/
theorem idealEntropy_eq_zero_iff : idealEntropy bins = 0 ↔ ∀ a ∈ bins, ∀ b ∈ bins, a = b := by
  rw [idealEntropy_eq_binMean, binMean_eq_zero_iff logb_length_div_count_nonneg]
  refine forall₂_congr fun a ha => ?_
  have hcount : (bins.count a : ℝ) ≠ 0 := (zero_lt_one.trans_le (one_le_count ha)).ne'
  rw [logb_two_eq_zero_iff (one_le_length_div_count ha), div_eq_one_iff_eq hcount, Nat.cast_inj, eq_comm,
    List.count_eq_length]

/-- The greatest cost exactly when every cell has a bin of its own (rule R217). -/
theorem idealEntropy_eq_logb_length_iff (hne : bins ≠ []) :
    idealEntropy bins = Real.logb 2 bins.length ↔ bins.Nodup := by
  rw [eq_comm, ← sub_eq_zero, logb_length_sub_idealEntropy hne, binMean_eq_zero_iff logb_count_nonneg,
    List.nodup_iff_count_eq_one]
  refine forall₂_congr fun b hb => ?_
  rw [logb_two_eq_zero_iff (one_le_count hb), Nat.cast_eq_one]

theorem idealEntropy_perm {bins' : List ℤ} (h : bins'.Perm bins) : idealEntropy bins' = idealEntropy bins := by
  rw [idealEntropy, idealEntropy, List.toFinset_eq_of_perm _ _ h, h.length_eq]
  simp only [h.count_eq]

/-- Renaming the bins leaves the entropy. -/
theorem idealEntropy_map {f : ℤ → ℤ} (hf : Function.Injective f) (bins : List ℤ) :
    idealEntropy (bins.map f) = idealEntropy bins := by
  have hset : (bins.map f).toFinset = bins.toFinset.image f := by ext; simp
  rw [idealEntropy, hset, Finset.sum_image hf.injOn, List.length_map]
  simp only [List.count_map_of_injective _ _ hf, idealEntropy]

end Entropy

/-! ### The cells of an array and their bins -/

theorem Arr.toList_eq_regionCells (x : Arr) (hx : x.shaped = true) : x.toList = regionCells x 0 0 x.rows x.cols := by
  have hself : x.sub 0 0 x.rows x.cols = x := by simpa [Arr.sub] using x.ofFn_get hx
  rw [← Arr.toList_sub, hself]

theorem Arr.length_toList (x : Arr) (hx : x.shaped = true) : x.toList.length = x.rows * x.cols := by
  simp [x.toList_eq_regionCells hx, regionCells, List.length_flatMap]

theorem idealBin_add_int (v : ℝ) (m : ℤ) : idealBin (v + m) = idealBin v + m := by
  rw [idealBin, idealBin, add_right_comm, Int.floor_add_intCast]

/-- Different multiples of a step of at least 1 have different reference bins (rule R217). -/
theorem mul_eq_mul_of_idealBin_eq {g : ℝ} (hg : 1 ≤ g) {k l : ℤ} (h : idealBin (k * g) = idealBin (l * g)) :
    (k : ℝ) * g = l * g := by
  have hlt : |(k : ℝ) * g - l * g| < 1 := by simpa using Int.abs_sub_lt_one_of_floor_eq_floor h
  have hdist : |(k : ℝ) - l| < 1 := by
    rw [← sub_mul, abs_mul, abs_of_nonneg (zero_le_one.trans hg)] at hlt
    exact (le_mul_of_one_le_right (abs_nonneg _) hg).trans_lt hlt
  have hkl : k - l = 0 := Int.abs_lt_one_iff.mp (by exact_mod_cast hdist)
  rw [sub_eq_zero.mp hkl]

/-- The bins of cells moved by an integer are the bins moved by it. -/
theorem map_idealBinOf_add_int (ρ : Nat → ℝ) {cells cells' : List NUM} {m : ℤ}
    (h : cells'.map (NUM.val ρ) = cells.map fun a => a.val ρ + (m : ℝ)) :
    cells'.map (idealBinOf ρ .reference) = (cells.map (idealBinOf ρ .reference)).map (· + m) := by
  have hbins : cells'.map (idealBinOf ρ .reference) = (cells'.map (NUM.val ρ)).map idealBin := (List.map_map ..).symm
  rw [hbins, h, List.map_map, List.map_map]
  exact List.map_congr_left fun a _ => idealBin_add_int (a.val ρ) m

theorem Arr.val_bpp (ρ : Nat → ℝ) (bin : BinRule) (x : Arr) :
    (x.bpp .reals bin).val ρ = idealEntropy (x.toList.map (idealBinOf ρ bin)) := val_bitsPerPixel ρ bin x.toList

end Sys2Proof

section

open Sys2Proof Sys2Proof.Machine

/-- Settles O57: the body runs to its one write, and the written value is the entropy of the bins of the cells, which
in a shaped array are as many as its shape says. -/
theorem bppIsTheHistogramEntropy : Obligations.BppIsTheHistogramEntropy := by
  unfold Obligations.BppIsTheHistogramEntropy
  refine ⟨encodedAs_row .bpp, fun s sd sa => ⟨failsFirst _ s, fun x hx hshaped => ?_⟩⟩
  refine exists_done_scal (exec_bpp sd hx) fun hreals ρ bins hbins => ?_
  have hcells : x.toList.map (idealBinOf ρ s.cfg.bin) = bins := by rw [hbins, x.toList_eq_regionCells hshaped]
  have hlength : bins.length = x.rows * x.cols := by rw [← hcells, List.length_map, x.length_toList hshaped]
  rw [hreals, Arr.val_bpp, hcells, idealEntropy, hlength]

/-- Settles O58: each clause is one of the entropy of the list of bins (`Arr.val_bpp`). -/
theorem bppBoundsAndExtremes : Obligations.BppBoundsAndExtremes := by
  unfold Obligations.BppBoundsAndExtremes
  intro ρ bin x hshaped hrows hcols
  have hlength : x.rows * x.cols = (x.toList.map (idealBinOf ρ bin)).length := by
    rw [List.length_map, x.length_toList hshaped]
  have hne : x.toList.map (idealBinOf ρ bin) ≠ [] :=
    List.ne_nil_of_length_pos (hlength ▸ Nat.mul_pos hrows hcols)
  simp only [Arr.val_bpp, hlength]
  refine ⟨idealEntropy_nonneg _, idealEntropy_le_logb_length hne, ?oneBin, fun heq => ?equalCells,
    idealEntropy_eq_logb_length_iff hne, fun y => idealEntropy_perm, fun href => ⟨fun y m hy => ?shift, ?levels⟩⟩
  case oneBin => rw [idealEntropy_eq_zero_iff]; simp only [List.forall_mem_map]
  case equalCells =>
    rw [idealEntropy_eq_zero_iff]
    simp only [List.forall_mem_map]
    exact fun a ha b hb => congrArg (bin.binVal .reals) (heq a ha b hb)
  case shift =>
    subst href
    rw [map_idealBinOf_add_int ρ hy, idealEntropy_map (add_left_injective m)]
  case levels =>
    subst href
    intro g hg hmul a ha b hb hab
    obtain ⟨k, hk⟩ := hmul a ha
    obtain ⟨l, hl⟩ := hmul b hb
    have hab : idealBin (a.val ρ) = idealBin (b.val ρ) := hab
    rw [hk, hl] at hab ⊢
    exact mul_eq_mul_of_idealBin_eq hg hab

end

/-! ## The filter bank

The four commands make the same first checks. What the written cells are over the reals is said by the value lemmas of
`Laws/Values.lean`, and that the default pairs give every row back by the section on perfect reconstruction. -/

namespace Sys2Proof.Machine

/-! ### Reflection -/

section Reflection

variable {c : Nat}

theorem refl_one (j : Int) : refl 1 j = 0 := if_pos rfl

/-- Reflection about the first sample, a row of one sample included. -/
theorem refl_mirror_first (hc : 1 ≤ c) (j : Int) : refl c (-j) = refl c j := by
  rcases hc.eq_or_lt with rfl | hc
  · rw [refl_one, refl_one]
  · exact refl_neg hc j

/-- The period of the extended row, a row of one sample included. -/
theorem refl_period (hc : 1 ≤ c) (j : Int) : refl c (j + 2 * (c - 1)) = refl c j := by
  rcases hc.eq_or_lt with rfl | hc
  · rw [refl_one, refl_one]
  · exact refl_add_period hc j

/-- Reflection about the last sample is reflection about the first one, moved by a period. -/
theorem refl_mirror_last (hc : 1 ≤ c) (j : Int) : refl c ((c : Int) - 1 + j) = refl c ((c : Int) - 1 - j) := by
  rw [← refl_mirror_first hc, ← refl_period hc]
  congr 1
  ring

end Reflection

/-! ### The four commands -/

section Commands

variable {s : State} {sa k : RegIx} {x : Arr}

/-- The first checks of the four commands: a valid source and a kernel of odd length. -/
theorem rowFilter_bind {α : Type} (hx : s.buf sa = some x) (hk : (s.kern k).length % 2 = 1)
    (body : Arr → List NUM → Except ErrCode α) :
    (do let y ← s.srcBuf sa
        let h ← s.srcKern k
        raiseIf (evenKernel h) .kernel
        body y h) = body x (s.kern k) := by
  have hne : s.kern k ≠ [] := by intro he; simp [he] at hk
  have hodd : ¬evenKernel (s.kern k) := by simp [evenKernel, hk]
  rw [srcBuf_bind hx, srcKern_bind hne, raiseIf_bind hodd]

theorem exec_rowdec2 (ad : RegIx) (hx : s.buf sa = some x) (hk : (s.kern k).length % 2 = 1) (hc : x.cols % 2 = 0) :
    exec (.rowdec2 ad sa k) s = .next (s.setBuf ad (rowdec2 s.cfg.num x (s.kern k))).succeed := by
  change finish _ _ _ = _
  rw [rowFilter_bind hx hk, raiseIf_bind (not_not.mpr hc)]; rfl

theorem exec_rowint (ad : RegIx) (hx : s.buf sa = some x) (hk : (s.kern k).length % 2 = 1)
    (hc : 2 * x.cols ≤ s.cfg.maxDim) :
    exec (.rowint ad sa k) s = .next (s.setBuf ad (rowint s.cfg.num x (s.kern k))).succeed := by
  change finish _ _ _ = _
  rw [rowFilter_bind hx hk, raiseIf_bind (not_lt.mpr hc)]; rfl

theorem exec_rowint2 (ad : RegIx) (hx : s.buf sa = some x) (hk : (s.kern k).length % 2 = 1)
    (hc : 2 * x.cols ≤ s.cfg.maxDim) :
    exec (.rowint2 ad sa k) s = .next (s.setBuf ad (rowint2 s.cfg.num x (s.kern k))).succeed := by
  change finish _ _ _ = _
  rw [rowFilter_bind hx hk, raiseIf_bind (not_lt.mpr hc)]; rfl

/-- A command that ends with the write of one buffer leaves that array there and all else as it was. -/
theorem exists_done_written {i : Instr} {ad : RegIx} (h : exec i s = .next (s.setBuf ad x).succeed) :
    ∃ t, exec i s = .next t ∧ Done [ad] [] s t ∧ t.buf ad = some x :=
  ⟨_, h, done_setBuf s ad x, s.buf_setBuf_self ad x⟩

end Commands

/-! ### The filtered rows over the reals -/

section Rows

variable (ρ : Nat → ℝ)

/-- The filter with its centre and its half length added up among the naturals (rule R228). -/
theorem idealFilter_eq_sum (h : List NUM) (c : Nat) (x : Nat → ℝ) (t : Nat) :
    idealFilter ρ h c x t = ∑ a ∈ Finset.range h.length,
      (h.getD a NUM.zero).val ρ * x (refl c ((t + (h.length - 1) / 2 : Nat) - (a : Int))) := by
  simp only [idealFilter, Nat.cast_add]

section Spread

variable (g : List NUM) {c v : Nat} {x u w : Nat → ℝ}

/-- A doubled row is read on its even and its odd places. -/
theorem idealFilter_congr_places (h : ∀ j, j < c → w (2 * j) = u (2 * j) ∧ w (2 * j + 1) = u (2 * j + 1))
    (hv : v < 2 * c) : idealFilter ρ g (2 * c) w v = idealFilter ρ g (2 * c) u v := by
  refine idealFilter_congr ρ g (by omega) (fun k hk => ?_) v
  obtain ⟨j, rfl | rfl⟩ := Nat.even_or_odd' k
  · exact (h j (by omega)).1
  · exact (h j (by omega)).2

/-- `ROWINT` filters any row with the samples on the even places and zeros on the odd ones (rule R231). -/
theorem idealInt_eq_idealFilter (hu : ∀ j, j < c → u (2 * j) = x j ∧ u (2 * j + 1) = 0) (hv : v < 2 * c) :
    idealInt ρ g c x v = idealFilter ρ g (2 * c) u v :=
  idealFilter_congr_places ρ g (fun j hj => by simp [hu j hj]) hv

/-- `ROWINT2` filters any row with the samples on the odd places and zeros on the even ones (rule R232). -/
theorem idealInt2_eq_idealFilter (hu : ∀ j, j < c → u (2 * j + 1) = x j ∧ u (2 * j) = 0) (hv : v < 2 * c) :
    idealInt2 ρ g c x v = idealFilter ρ g (2 * c) u v :=
  idealFilter_congr_places ρ g (fun j hj => by simp [hu j hj, Nat.mul_add_div]) hv

end Spread

/-- The two branches of a row through the default pairs add up to the row (rule R233). -/
theorem val_branches_default {x : Arr} {r c : Nat} (heven : x.cols % 2 = 0) (hr : r < x.rows) (hc : c < x.cols) :
    (rowint .reals (rowdec .reals x kh1) kg1).val ρ r c + (rowint2 .reals (rowdec2 .reals x kh2) kg2).val ρ r c =
      x.val ρ r c := by
  have hspread : c < 2 * (x.cols / 2) := by omega
  calc (rowint .reals (rowdec .reals x kh1) kg1).val ρ r c + (rowint2 .reals (rowdec2 .reals x kh2) kg2).val ρ r c
      = idealInt ρ kg1 (x.cols / 2) ((rowdec .reals x kh1).val ρ r) c +
          idealInt2 ρ kg2 (x.cols / 2) ((rowdec2 .reals x kh2).val ρ r) c :=
        congrArg₂ (· + ·) (val_rowint ρ kg1 hr hspread) (val_rowint2 ρ kg2 hr hspread)
    _ = idealInt ρ kg1 (x.cols / 2) (idealLow ρ kh1 x.cols (x.val ρ r)) c +
          idealInt2 ρ kg2 (x.cols / 2) (idealHigh ρ kh2 x.cols (x.val ρ r)) c :=
        congrArg₂ (· + ·) (idealInt_congr ρ kg1 (fun _ hk => val_rowdec ρ kh1 hr hk) hspread)
          (idealInt2_congr ρ kg2 (fun _ hk => val_rowdec2 ρ kh2 hr hk) hspread)
    _ = x.val ρ r c := idealInt_add_idealInt2_default ρ (x.val ρ r) heven hc

end Rows

end Sys2Proof.Machine

section

open Sys2Proof Sys2Proof.Machine

/-- Settles O42: the two mirrors and the period, with the row of one sample apart. -/
theorem reflectionExtendsARow : Obligations.ReflectionExtendsARow := by
  unfold Obligations.ReflectionExtendsARow
  exact fun c j hc => ⟨refl_lt hc j, fun _ hk => refl_of_lt hk, refl_mirror_first hc j, refl_mirror_last hc j,
    refl_period hc j⟩

/-- Settles O43: each body runs to its one write, and each written cell is the filter centred on the even or on the odd
sample (`val_rowdec`, `val_rowdec2`). -/
theorem rowDecimationFiltersEachRow : Obligations.RowDecimationFiltersEachRow := by
  unfold Obligations.RowDecimationFiltersEachRow
  refine ⟨encodedAs_row .rowdec, encodedAs_row .rowdec2, fun s ad sa k io hio =>
    ⟨failsFirst _ s, fun x hx hk hc => ?_⟩⟩
  rcases List.mem_pair.mp hio with rfl | rfl
  case inl =>
    refine exists_done_buf (exec_rowdec ad hx hk hc) ⟨rfl, rfl, fun hreals ρ r u hr hu => ?_⟩
    rw [hreals, val_rowdec ρ _ hr hu]
    exact idealFilter_eq_sum ρ _ _ _ (2 * u)
  case inr =>
    refine exists_done_buf (exec_rowdec2 ad hx hk hc) ⟨rfl, rfl, fun hreals ρ r u hr hu => ?_⟩
    rw [hreals, val_rowdec2 ρ _ hr hu]
    exact idealFilter_eq_sum ρ _ _ _ (2 * u + 1)

/-- Settles O44: each body runs to its one write, and each written cell is the filter on the row spread over the even or
over the odd places (`idealInt_eq_idealFilter`, `idealInt2_eq_idealFilter`). -/
theorem rowInterpolationFiltersTheSpreadRow : Obligations.RowInterpolationFiltersTheSpreadRow := by
  unfold Obligations.RowInterpolationFiltersTheSpreadRow
  refine ⟨encodedAs_row .rowint, encodedAs_row .rowint2, fun s ad sa k io hio =>
    ⟨failsFirst _ s, fun x hx hk hc => ?_⟩⟩
  rcases List.mem_pair.mp hio with rfl | rfl
  case inl =>
    refine exists_done_buf (exec_rowint ad hx hk hc) ⟨rfl, rfl, fun hreals ρ r u hr hu v hv => ?_⟩
    rw [hreals, val_rowint ρ _ hr hv, idealInt_eq_idealFilter ρ _ hu hv]
    exact idealFilter_eq_sum ρ _ _ u v
  case inr =>
    refine exists_done_buf (exec_rowint2 ad hx hk hc) ⟨rfl, rfl, fun hreals ρ r u hr hu v hv => ?_⟩
    rw [hreals, val_rowint2 ρ _ hr hv, idealInt2_eq_idealFilter ρ _ hu hv]
    exact idealFilter_eq_sum ρ _ _ u v

/-- Settles O45: each command leaves the operands of the next ones in place, so all four succeed; the cells of the two
results add up by `val_branches_default`. -/
theorem defaultKernelsReconstructEveryRow : Obligations.DefaultKernelsReconstructEveryRow := by
  unfold Obligations.DefaultKernelsReconstructEveryRow
  intro s sa b1 b2 x hinv hx hc hsource hbranch
  obtain ⟨-, -, -, -, hcap⟩ := (Arr.wf_iff _ _).mp (State.inv_buf hinv hx)
  have odd (t : State) (k : RegIx) (hk : k.val < 4 := by decide) : (t.kern k).length % 2 = 1 := odd_kern_of_lt hk
  obtain ⟨t1, run1, ⟨-, frame1⟩, low1⟩ := exists_done_written (exec_rowdec b1 hx (odd s 0) hc)
  have hx1 : t1.buf sa = some x := (frame1.bufs sa (by simpa using hsource.symm)).trans hx
  obtain ⟨t2, run2, ⟨-, frame2⟩, high2⟩ := exists_done_written (exec_rowdec2 b2 hx1 (odd t1 1) hc)
  have low2 := (frame2.bufs b1 (by simpa using hbranch.symm)).trans low1
  have cfg2 : t2.cfg = s.cfg := frame2.cfg.trans frame1.cfg
  have hfits : 2 * (x.cols / 2) ≤ s.cfg.maxDim := by omega
  obtain ⟨t3, run3, ⟨-, frame3⟩, even3⟩ := exists_done_written (exec_rowint b1 low2 (odd t2 2) (cfg2 ▸ hfits))
  have high3 := (frame3.bufs b2 (by simpa using hbranch)).trans high2
  have cfg3 : t3.cfg = s.cfg := frame3.cfg.trans cfg2
  obtain ⟨t4, run4, ⟨hok, frame4⟩, odd4⟩ := exists_done_written (exec_rowint2 b2 high3 (odd t3 3) (cfg3 ▸ hfits))
  have even4 := (frame4.bufs b1 (by simpa using hbranch.symm)).trans even3
  have hcols : 2 * (x.cols / 2) = x.cols := by omega
  refine ⟨t1, t2, t3, t4, _, _, run1, run2, run3, run4, hok, even4, odd4, rfl, hcols, rfl, hcols,
    fun hreals ρ r c hrow hcol => ?_⟩
  rw [cfg3, cfg2, frame1.cfg, hreals]
  exact val_branches_default ρ hc hrow hcol

end

/-! ## The system commands -/

namespace Sys2Proof.Machine

theorem exec_nop (s : State) : exec .nop s = .next s.succeed := finish_ok .nop s s

theorem exec_free (ad : RegIx) (s : State) : exec (.free ad) s = .next (s.freeBuf ad).succeed :=
  finish_ok (.free ad) s (s.freeBuf ad)

theorem done_freeBuf (s : State) (b : RegIx) : Done [b] [] s (s.freeBuf b).succeed := by
  refine ⟨rfl, fun b' hb => ?_, fun _ _ => rfl, rfl, rfl, rfl, rfl, rfl, rfl, rfl, rfl, rfl, rfl, rfl, rfl⟩
  have hb : b' ≠ b := by simpa using hb
  rw [State.buf_congr (State.succeed_bufs _), State.buf_freeBuf, if_neg hb]

end Sys2Proof.Machine

section

open Sys2Proof Sys2Proof.Machine

/-- Settles O29: the body of `NOP` is the state itself, so only the end of a successful command is left. -/
theorem nopOnlyClearsTheError : Obligations.NopOnlyClearsTheError := by
  unfold Obligations.NopOnlyClearsTheError
  exact ⟨encodedAs_row .nop, exec_nop⟩

/-- Settles O30: the one write of `FREE` clears its buffer, whatever the buffer held, and frames all else
(`done_freeBuf`). -/
theorem freeReleasesABuffer : Obligations.FreeReleasesABuffer := by
  unfold Obligations.FreeReleasesABuffer
  exact ⟨encodedAs_row .free, fun s ad => ⟨_, exec_free ad s, done_freeBuf s ad, s.buf_freeBuf_self ad⟩⟩

end

/-! ## Success and failure of a command

The frame of a success is that of the writes a command's body makes (`Writes`), and a failure changes only the
registers that record it (`failed_takeError`). Which of the two it is, the list of causes decides (`exec_decides`). -/

namespace Sys2Proof.Machine

section Frame

variable {bs js : List RegIx} {s t : State} {i : Instr}

theorem Frame.refl (bs js : List RegIx) (s : State) : Frame bs js s s :=
  ⟨fun _ _ => rfl, fun _ _ => rfl, rfl, rfl, rfl, rfl, rfl, rfl, rfl, rfl, rfl, rfl, rfl, rfl⟩

theorem Frame.freeBuf (h : Frame bs js s t) {b : RegIx} (hb : b ∈ bs) : Frame bs js s (t.freeBuf b) :=
  { h with
    bufs := fun b' hb' => by rw [State.buf_freeBuf, if_neg (ne_of_mem_of_not_mem hb hb').symm, h.bufs b' hb'] }

theorem Frame.setBuf (h : Frame bs js s t) {b : RegIx} (x : Arr) (hb : b ∈ bs) : Frame bs js s (t.setBuf b x) :=
  { h with
    bufs := fun b' hb' => by rw [State.buf_setBuf, if_neg (ne_of_mem_of_not_mem hb hb').symm, h.bufs b' hb'] }

theorem Frame.setScal (h : Frame bs js s t) {j : RegIx} (v : NUM) (hj : j ∈ js) : Frame bs js s (t.setScal j v) :=
  { h with
    scalars := fun j' hj' => by rw [State.scal_setScal, if_neg (ne_of_mem_of_not_mem hj hj').symm, h.scalars j' hj'] }

theorem Frame.done_succeed (h : Frame bs js s t) : Done bs js s t.succeed := ⟨rfl, { h with }⟩

/-- Writes to a command's destinations leave everything else unchanged. -/
theorem Writes.frame (h : Writes i s t) : Frame (dstBufs i) (dstScals i) s t := by
  induction h with
  | nothing => exact .refl _ _ s
  | free hb _ ih => exact ih.freeBuf hb
  | buf hb _ _ ih => exact ih.setBuf _ hb
  | scal hj _ ih => exact ih.setScal _ hj

/-- Every command ends with success within its destinations or with an error and nothing else (rules R261, R263). -/
theorem exec_done_or_failed (i : Instr) (s : State) : ∃ t, exec i s = .next t ∧
    (Done (dstBufs i) (dstScals i) s t ∨ ∃ e : ErrCode, e ≠ .ok ∧ Failed e (encode i) s t) := by
  rcases exec_cases i s with ⟨t, hw, ht⟩ | ⟨e, he, ht⟩
  · exact ⟨_, ht, .inl hw.frame.done_succeed⟩
  · exact ⟨_, ht, .inr ⟨e, he, failed_takeError s e _⟩⟩

/-- A command that ends with `STATUS.ERR` 0 changed at most its destinations (rule R263). -/
theorem done_of_exec_err_ok (h : exec i s = .next t) (ht : t.err = .ok) : Done (dstBufs i) (dstScals i) s t := by
  obtain ⟨u, hu, hend⟩ := exec_done_or_failed i s
  cases hu.symm.trans h
  rcases hend with hdone | ⟨e, he, hfailed⟩
  · exact hdone
  · exact absurd (hfailed.err.symm.trans ht) he

end Frame

theorem Decides.exists_ok {i : Instr} {s : State} {r : Except ErrCode State} (h : Decides (causes i s) r)
    (hno : NoError i s) : ∃ t, r = .ok t := by
  obtain ⟨hempty, hkernel, hdomain, hdim, hcapacity⟩ := hno
  simpa [Decides, causes, hempty, hkernel, hdomain, hdim, hcapacity] using h

/-- An encodable command without a cause of an error succeeds (rule R263). -/
theorem exists_done_of_noError {i : Instr} {s : State} (hwf : i.wellFormed = true) (hno : NoError i s) :
    ∃ t, exec i s = .next t ∧ Done (dstBufs i) (dstScals i) s t := by
  obtain ⟨r, hexec, hr⟩ := exec_decides s hwf
  obtain ⟨u, rfl⟩ := hr.exists_ok hno
  exact ⟨u.succeed, hexec, done_of_exec_err_ok hexec rfl⟩

end Sys2Proof.Machine

section

open Sys2Proof Sys2Proof.Machine

/-- Settles O4: a command makes writes to its destinations and succeeds, or takes an error (`exec_cases`). -/
theorem commandsSucceedOrFailPrecisely : Obligations.CommandsSucceedOrFailPrecisely := by
  unfold Obligations.CommandsSucceedOrFailPrecisely
  exact exec_done_or_failed

/-- Settles O5: a write of `CMD` is `State.issue`; an illegal word takes `ILLEGAL`, and the causes decide how a legal
command ends (`exec_decides`). -/
theorem firstCauseDecidesTheError : Obligations.FirstCauseDecidesTheError := by
  unfold Obligations.FirstCauseDecidesTheError
  refine ⟨fun w r s hd => ⟨_, issue_of_error hd, failed_takeError s .illegal w⟩, fun w i s hd => ?_⟩
  have hwf : i.wellFormed = true := (decode_eq_ok_iff_encode.mp hd).2
  exact ⟨issue_of_ok hd, exists_done_of_noError hwf, fun e => failsFirst i s w e hd⟩

end
